-- ==== Sys2Proof/Word.lean ====
section
/-! DEFINITION. The word types of the HSQ decode block (spec/00_scope.md R7, R9, R14): bytes, 16-bit
words and texts. Cursors, addresses and counts are natural numbers without wrap-around (R7), and
`line_remain` is an integer. -/

namespace Sys2Proof

/-- A byte: 8 bits in every byte-addressed space (R9, R70). -/
abbrev Byte := BitVec 8

/-- A 16-bit word: instruction words, `raw`, and every 16-bit field of the payloads (R75). -/
abbrev Half := BitVec 16

/-- A text is a finite sequence of characters, each one Unicode scalar value (R14). -/
abbrev Text := List Char

end Sys2Proof
end

