-- ==== Sys2Proof/Config.lean ====
section
/-! DEFINITION. What an implementation fixes. The ten capacities of spec/00_scope.md R6 are a record
that `State` carries (so that every statement holds for every value, log 11); `RenderValue` (R8, R277)
is the one open value and has no body (log 15). -/

namespace Sys2Proof

/-- The capacities of R6. `none` is the spec's `unbounded`. -/
structure Caps where
  inCap      : Option Nat
  outCap     : Option Nat
  pCap       : Option Nat
  nSubpalCap : Option Nat
  nPartCap   : Option Nat
  pixCap     : Option Nat
  nSentCap   : Option Nat
  textCap    : Option Nat
  logCap     : Option Nat
  nInstrCap  : Option Nat
deriving DecidableEq, Repr

/-- Every capacity `unbounded`, "the recommended value for a model" (R6, log 11). -/
def Caps.unbounded : Caps :=
  { inCap := none, outCap := none, pCap := none, nSubpalCap := none, nPartCap := none,
    pixCap := none, nSentCap := none, textCap := none, logCap := none, nInstrCap := none }

/-- `RenderValue` of R277: the text of a numeric parameter value, an OPEN parameter, "a total function
from 0..65535 to texts that depends on `v` alone". No body: nothing can prove what it is (log 15). -/
opaque Config.renderValue : Half → Text

end Sys2Proof
end

