-- ==== Sys2Proof/Syntax.lean ====
section
/-! DEFINITION. The instructions of the block: one constructor of `Instr` per row of
spec/opcode_table.json, with the operand types of spec/10_state.md and spec/30_encoding.md. -/

namespace Sys2Proof

/-- The three engines (R1, R15). -/
inductive Engine where
  | hsqd
  | imgd
  | txtp
deriving DecidableEq, Repr

/-- One colour or one raw triple: three 8-bit channels in the order red, green, blue (R46, R111). -/
structure Color where
  r : Byte
  g : Byte
  b : Byte
deriving DecidableEq, Repr

/-- One subpalette record (R46). -/
structure SubPalette where
  ord    : Nat
  loc    : Byte
  colors : List Color
deriving DecidableEq, Repr

/-- A parameter's mode (R54, R122). -/
inductive ParamMode where
  | read8
  | read16
  | readUntil (terminator : Byte)
deriving DecidableEq, Repr

/-- One declared parameter of a text instruction (R54). -/
structure Param where
  name : Text
  mode : ParamMode
deriving DecidableEq, Repr

/-- One text-instruction definition, an entry of `ITAB` (R54). -/
structure TextInstruction where
  triggerByte  : Byte
  functionName : Text
  params       : List Param
deriving DecidableEq, Repr

/-- `CHARSET` (R53), held sparsely: "only overridden bytes are present". A byte that is not listed has
no override. -/
abbrev Charset := List (Byte × Char)

/-- One item of the working sequence (R268): a raw byte not yet decoded, or a character. -/
inductive Item where
  | B (b : Byte)
  | C (ch : Char)
deriving DecidableEq, Repr

/-- The payload a launch of IMGD or TXTP binds (R41, R52): host bytes, or `OBUF[0:olen]` of HSQD. -/
inductive Payload where
  | bytes (bs : List Byte)
  | obuf
deriving DecidableEq, Repr

/-- The engine and the inputs of a launch (R352). -/
inductive LaunchReq where
  | hsqd (bytes : List Byte) (verify : Bool)
  | imgd (payload : Payload)
  | txtp (payload : Payload) (charset : Charset) (itab : List TextInstruction)
deriving DecidableEq, Repr

/-- The instructions. Each carries its decoded operands. -/
inductive Instr where
  /-- HDR: the six header bytes in address order (R101, R141). -/
  | hdr (h0 h1 h2 h3 h4 h5 : Byte)
  /-- IW: one instruction word (R103, R145). -/
  | iw (w : Half)
  /-- LIT, CopyByte (R147). -/
  | lit (b : Byte)
  /-- M0, Method0: the two length bits and the distance byte (R148). -/
  | m0 (b1 b2 : Bool) (d : Byte)
  /-- M1, Method1 with short length (R149). -/
  | m1 (raw : Half)
  /-- M1X, Method1 with extended length (R150). -/
  | m1x (raw : Half) (e : Byte)
  /-- END, the end marker (R151). Its third byte is 0. -/
  | endMark (raw : Half)
  /-- OAS: the `offsetsArrayStart` word (R201). -/
  | oas (v : Half)
  /-- PALTERM: the peeked palette terminator (R202). -/
  | palterm
  /-- PALREC: `loc` and the raw triples. `cnt` is their number (R203). -/
  | palrec (loc : Byte) (raws : List Color)
  /-- OFFS: the entries read, entry 0 among them (R208). -/
  | offs (entries : List Half)
  /-- PART_UNKNOWN: the bytes of the range after the zero field (R214). -/
  | partUnknown (rawBytes : List Byte)
  /-- PART_RAW: an image part header with bit 15 of `cw` clear (R215, R221). -/
  | partRaw (width : BitVec 15) (height poff : Byte)
  /-- PART_RLE: an image part header with bit 15 of `cw` set (R215, R223). -/
  | partRle (width : BitVec 15) (height poff : Byte)
  /-- REP: bits 6:0 of the command byte, and the value byte (R225). -/
  | rep (c : BitVec 7) (v : Byte)
  /-- LITR: the value bytes. The command byte is their number minus one (R226). -/
  | litr (vs : List Byte)
  /-- PAIR: one pixel-pair byte (R217). -/
  | pair (v : Byte)
  /-- COMPOSE: a subpalette record and the default colour (R232). -/
  | compose (sp : SubPalette) (dflt : Color)
  /-- TIDX: the entries read, entry 0 among them (R261). -/
  | tidx (entries : List Half)
  /-- NL_FE: the newline byte 0xFE (R266). -/
  | nlFe
  /-- NL_0D: the newline byte 0x0D (R266). -/
  | nl0d
  /-- CHAR_OVERRIDE: a byte with a charset override (R266). -/
  | charOverride (b : Byte)
  /-- CHAR_DIRECT: a byte without one (R266). -/
  | charDirect (b : Byte)
  /-- TINSTR: the trigger byte of the entry being expanded (R271). -/
  | tinstr (t : Byte)
  /-- PARAM_READ8: the byte read (R272). -/
  | paramRead8 (v : Byte)
  /-- PARAM_READ16: the little-endian value read (R273). -/
  | paramRead16 (v : Half)
  /-- PARAM_READUNTIL: the captured items and the terminator (R274). -/
  | paramReadUntil (captured : List Item) (t : Byte)
  /-- RESET, a host command (R351). -/
  | reset
  /-- LAUNCH, a host command (R352). -/
  | launch (req : LaunchReq)
deriving DecidableEq, Repr

end Sys2Proof
end

