-- ==== Sys2Proof/WellFormed.lean ====
section
/-! DEFINITION. Which terms of `Instr` stand for an encoding of spec/30_encoding.md: the operand
constraints of spec/opcode_table.json, each a Bool. -/

namespace Sys2Proof

/-- A table of 16-bit entries read by R208 or R261: entry 0 is its byte size, and `max(n, 1)` entries
are read with `n` half of it. -/
def entriesWf : List Half → Bool
  | [] => false
  | e0 :: es => es.length + 1 == max (e0.toNat / 2) 1

/-- The keys of a sparse table rise strictly, so that equal tables are equal lists. -/
def Charset.wf : Charset → Bool
  | [] => true
  | [_] => true
  | (a, _) :: (b, ch) :: rest => decide (a.toNat < b.toNat) && Charset.wf ((b, ch) :: rest)

/-- A byte that is one of the two newline bytes (R121, R266). -/
def isNewline (b : Byte) : Bool := b == 0xFE || b == 0x0D

/-- `raw[2:0]`, the field `len3` (R108). -/
def len3 (raw : Half) : BitVec 3 := raw.setWidth 3

def LaunchReq.wf : LaunchReq → Bool
  | .hsqd _ _ => true
  | .imgd _ => true
  | .txtp _ charset _ => Charset.wf charset

/-- The operand constraints of the opcode table. -/
def Instr.wf : Instr → Bool
  | .hdr _ _ _ _ _ _ => true
  | .iw _ => true
  | .lit _ => true
  | .m0 _ _ _ => true
  | .m1 raw => len3 raw != 0
  | .m1x raw e => len3 raw == 0 && e != 0
  | .endMark raw => len3 raw == 0
  | .oas _ => true
  | .palterm => true
  | .palrec loc raws => decide (raws.length ≤ 255) && !(loc == 0xFF && raws.length == 255)
  | .offs entries => entriesWf entries
  | .partUnknown _ => true
  | .partRaw width _ _ => width != 0
  | .partRle _ _ _ => true
  | .rep _ _ => true
  | .litr vs => decide (1 ≤ vs.length) && decide (vs.length ≤ 128)
  | .pair _ => true
  | .compose sp _ => decide (sp.colors.length ≤ 255)
  | .tidx entries => entriesWf entries
  | .nlFe => true
  | .nl0d => true
  | .charOverride b => !isNewline b
  | .charDirect b => !isNewline b
  | .tinstr _ => true
  | .paramRead8 _ => true
  | .paramRead16 _ => true
  | .paramReadUntil captured t => !captured.contains (Item.B t)
  | .reset => true
  | .launch req => req.wf

end Sys2Proof
end

