-- ==== Sys2Proof/Decode.lean ====
section
/-! DEFINITION. From stream bits and bytes to an instruction, and back. The three languages share no
encoding and the same byte means different things to different engines and phases (spec/30_encoding.md
R100, R125), so the decoder takes the context the engine stands in. It is total: it answers an
instruction and the bytes after it, or a named reason. After it: the encoder, and the packer of R126. -/

namespace Sys2Proof

/-! ## Byte order and fields -/

/-- Little-endian assembly of two bytes, the lower address first (R11, R75). -/
def le16 (lo hi : Byte) : Half := hi ++ lo

/-- The byte at the lower address of a 16-bit value (R75). -/
def loByte (v : Half) : Byte := v.setWidth 8

/-- The byte at the higher address of a 16-bit value (R75). -/
def hiByte (v : Half) : Byte := (v >>> 8).setWidth 8

/-- Why a decoder answers no instruction. -/
inductive DecodeError where
  /-- A byte was needed after `consumed` bytes had been read, and there is none. -/
  | short (consumed : Nat)
  /-- A parameter byte is needed where an inserted character stands, or where the sentence ends (R281). -/
  | noRawByte
  /-- No raw terminator byte follows (R274). -/
  | noTerminator
  /-- The item is not the trigger byte of the entry (R122). -/
  | notTrigger
deriving DecidableEq, Repr

/-! ## HSQ prefix codes -/

/-- What the prefix bits select (R105, R146). `method1` covers short, extended and end marker. -/
inductive PrefixKind where
  | copyByte
  | method0 (b1 b2 : Bool)
  | method1
deriving DecidableEq, Repr

/-- The prefix code of R105, first consumed bit first. `none`: more bits are needed. -/
def classify : List Bool → Option PrefixKind
  | true :: _ => some .copyByte
  | false :: true :: _ => some .method1
  | false :: false :: b1 :: b2 :: _ => some (.method0 b1 b2)
  | _ => none

/-- The code of R105 for a kind, first consumed bit first. -/
def PrefixKind.bits : PrefixKind → List Bool
  | .copyByte => [true]
  | .method0 b1 b2 => [false, false, b1, b2]
  | .method1 => [false, true]

/-! ## What an engine may be reading -/

/-- The context a byte stream is decoded in: the engine and the place in its loops. -/
inductive Ctx where
  /-- HSQD, the header (R101). -/
  | hdr
  /-- HSQD, an instruction word (R103). -/
  | iw
  /-- HSQD, the operand bytes of an instruction whose prefix is consumed (R106 to R108). -/
  | operands (k : PrefixKind)
  /-- IMGD, the pointer (R110). -/
  | oas
  /-- IMGD, a record boundary of the palette area (R111). -/
  | pal
  /-- IMGD, the offsets array (R112). -/
  | offs
  /-- IMGD, the whole range of a part (R113). -/
  | part
  /-- IMGD, a run command (R115). -/
  | rle
  /-- IMGD, a byte of a packed row (R114, R116). -/
  | pair
  /-- TXTP, the sentence index (R120). -/
  | tidx
  /-- TXTP, a character byte under a charset (R121). -/
  | char (charset : Charset)
deriving DecidableEq, Repr

/-- What a decoder answers: the instruction and the bytes after it. -/
abbrev Decoded := Except DecodeError (Instr × List Byte)

def decodeHdr : List Byte → Decoded
  | h0 :: h1 :: h2 :: h3 :: h4 :: h5 :: rest => .ok (.hdr h0 h1 h2 h3 h4 h5, rest)
  | _ => .error (.short 0)

def decodeIw : List Byte → Decoded
  | l :: h :: rest => .ok (.iw (le16 l h), rest)
  | _ => .error (.short 0)

/-- Operand bytes of Method1 (R108): `raw`, then `e` exactly when `raw[2:0] = 0`. -/
def decodeMethod1 : List Byte → Decoded
  | l :: h :: rest =>
    if len3 (le16 l h) = 0 then
      match rest with
      | [] => .error (.short 2)
      | e :: rest' =>
        if e = 0 then .ok (.endMark (le16 l h), rest') else .ok (.m1x (le16 l h) e, rest')
    else .ok (.m1 (le16 l h), rest)
  | _ => .error (.short 0)

def decodeOperands : PrefixKind → List Byte → Decoded
  | .copyByte, b :: rest => .ok (.lit b, rest)
  | .method0 b1 b2, d :: rest => .ok (.m0 b1 b2 d, rest)
  | .method1, bs => decodeMethod1 bs
  | .copyByte, [] => .error (.short 0)
  | .method0 _ _, [] => .error (.short 0)

def decodeOas : List Byte → Decoded
  | l :: h :: rest => .ok (.oas (le16 l h), rest)
  | _ => .error (.short 0)

/-- `n` raw triples, red first (R111), or nothing if a byte is missing. -/
def takeColors : Nat → List Byte → Option (List Color × List Byte)
  | 0, bs => some ([], bs)
  | n + 1, r :: g :: b :: bs =>
    match takeColors n bs with
    | some (cs, rest) => some (⟨r, g, b⟩ :: cs, rest)
    | none => none
  | _ + 1, _ => none

/-- A record boundary of the palette area: the terminator is tested first (R111, R202). -/
def decodePal : List Byte → Decoded
  | l :: c :: rest =>
    if l = 0xFF ∧ c = 0xFF then .ok (.palterm, rest)
    else
      match takeColors c.toNat rest with
      | some (raws, rest') => .ok (.palrec l raws, rest')
      | none => .error (.short 2)
  | _ => .error (.short 0)

/-- `n` little-endian entries. The error says how many entries were read before a byte was missing. -/
def takeHalves : Nat → List Byte → Except Nat (List Half × List Byte)
  | 0, bs => .ok ([], bs)
  | n + 1, l :: h :: bs =>
    match takeHalves n bs with
    | .ok (es, rest) => .ok (le16 l h :: es, rest)
    | .error k => .error (k + 1)
  | _ + 1, _ => .error 0

/-- A table whose entry 0 is its own byte size (R112, R120): `max(n, 1)` entries with `n = e_0 div 2`. -/
def decodeEntries (mk : List Half → Instr) : List Byte → Decoded
  | l :: h :: rest =>
    match takeHalves (max ((le16 l h).toNat / 2) 1 - 1) rest with
    | .ok (es, rest') => .ok (mk (le16 l h :: es), rest')
    | .error k => .error (.short (2 * (k + 1)))
  | _ => .error (.short 0)

/-- A part's whole range (R113). An unknown part takes all of it. -/
def decodePart : List Byte → Decoded
  | a :: b :: rest =>
    if le16 a b = 0 then .ok (.partUnknown rest, [])
    else
      match rest with
      | h :: p :: d =>
        if (le16 a b).msb then .ok (.partRle ((le16 a b).setWidth 15) h p, d)
        else .ok (.partRaw ((le16 a b).setWidth 15) h p, d)
      | _ => .error (.short 2)
  | _ => .error (.short 0)

/-- `n` bytes, or nothing if one is missing. -/
def takeBytes : Nat → List Byte → Option (List Byte × List Byte)
  | 0, bs => some ([], bs)
  | n + 1, b :: bs =>
    match takeBytes n bs with
    | some (vs, rest) => some (b :: vs, rest)
    | none => none
  | _ + 1, [] => none

/-- A run command and its value bytes (R115). A literal run cut short has read every byte there is (R226). -/
def decodeRle : List Byte → Decoded
  | cmd :: rest =>
    if cmd.msb then
      match rest with
      | v :: rest' => .ok (.rep (cmd.setWidth 7) v, rest')
      | [] => .error (.short 1)
    else
      match takeBytes (cmd.toNat + 1) rest with
      | some (vs, rest') => .ok (.litr vs, rest')
      | none => .error (.short (1 + rest.length))
  | [] => .error (.short 0)

def decodePair : List Byte → Decoded
  | v :: rest => .ok (.pair v, rest)
  | [] => .error (.short 0)

/-- The override of a byte, `CHARSET[b]` (R53). -/
def Charset.get : Charset → Byte → Option Char
  | [], _ => none
  | (a, ch) :: rest, b => if a = b then some ch else Charset.get rest b

/-- The class of a byte, tested in the order of R121. -/
def decodeChar (charset : Charset) (b : Byte) : Instr :=
  if b = 0xFE then .nlFe
  else if b = 0x0D then .nl0d
  else if (Charset.get charset b).isSome then .charOverride b
  else .charDirect b

/-- The decoder of byte streams. -/
def decode : Ctx → List Byte → Decoded
  | .hdr, bs => decodeHdr bs
  | .iw, bs => decodeIw bs
  | .operands k, bs => decodeOperands k bs
  | .oas, bs => decodeOas bs
  | .pal, bs => decodePal bs
  | .offs, bs => decodeEntries .offs bs
  | .part, bs => decodePart bs
  | .rle, bs => decodeRle bs
  | .pair, bs => decodePair bs
  | .tidx, bs => decodeEntries .tidx bs
  | .char charset, b :: rest => .ok (decodeChar charset b, rest)
  | .char _, [] => .error (.short 0)

/-! ## The working sequence of TXTP -/

/-- The context an item sequence is decoded in: the entry being expanded, or one parameter of it. -/
inductive ItemCtx where
  | trigger (t : Byte)
  | param (mode : ParamMode)
deriving DecidableEq, Repr

abbrev DecodedItems := Except DecodeError (Instr × List Item)

/-- The items before the first raw byte `t`, and those after it. -/
def splitAtByte (t : Byte) : List Item → Option (List Item × List Item)
  | [] => none
  | it :: rest =>
    if it = .B t then some ([], rest)
    else
      match splitAtByte t rest with
      | some (captured, after) => some (it :: captured, after)
      | none => none

def decodeTrigger (t : Byte) : List Item → DecodedItems
  | .B b :: rest => if b = t then .ok (.tinstr b, rest) else .error .notTrigger
  | _ => .error .notTrigger

/-- One parameter (R122, R272 to R274). -/
def decodeParam : ParamMode → List Item → DecodedItems
  | .read8, .B v :: rest => .ok (.paramRead8 v, rest)
  | .read8, _ => .error .noRawByte
  | .read16, .B lo :: .B hi :: rest => .ok (.paramRead16 (le16 lo hi), rest)
  | .read16, _ => .error .noRawByte
  | .readUntil t, items =>
    match splitAtByte t items with
    | some (captured, rest) => .ok (.paramReadUntil captured t, rest)
    | none => .error .noTerminator

/-- The decoder of item sequences. -/
def decodeItems : ItemCtx → List Item → DecodedItems
  | .trigger t, items => decodeTrigger t items
  | .param mode, items => decodeParam mode items

/-! ## The encoder -/

/-- The prefix bits of an HSQ instruction, first consumed first (R105). -/
def Instr.prefixBits : Instr → List Bool
  | .lit _ => [true]
  | .m0 b1 b2 _ => [false, false, b1, b2]
  | .m1 _ => [false, true]
  | .m1x _ _ => [false, true]
  | .endMark _ => [false, true]
  | _ => []

/-- Little-endian bytes of a 16-bit value. -/
def halfBytes (v : Half) : List Byte := [loByte v, hiByte v]

/-- The bytes of a triple, red first (R111). -/
def Color.bytes (c : Color) : List Byte := [c.r, c.g, c.b]

/-- `cw` of an image part header (R113): `comp` in bit 15, `width` below it. -/
def partWord (comp : Bool) (width : BitVec 15) : Half := BitVec.ofBool comp ++ width

/-- The bytes of an instruction of a byte stream: after its prefix bits for HSQ, all of it for the
rest. Host commands, COMPOSE and the instructions of the working sequence have none. -/
def Instr.encode : Instr → List Byte
  | .hdr h0 h1 h2 h3 h4 h5 => [h0, h1, h2, h3, h4, h5]
  | .iw w => halfBytes w
  | .lit b => [b]
  | .m0 _ _ d => [d]
  | .m1 raw => halfBytes raw
  | .m1x raw e => halfBytes raw ++ [e]
  | .endMark raw => halfBytes raw ++ [0]
  | .oas v => halfBytes v
  | .palterm => [0xFF, 0xFF]
  | .palrec loc raws => loc :: BitVec.ofNat 8 raws.length :: (raws.map Color.bytes).flatten
  | .offs entries => (entries.map halfBytes).flatten
  | .partUnknown rawBytes => 0 :: 0 :: rawBytes
  | .partRaw width height poff => halfBytes (partWord false width) ++ [height, poff]
  | .partRle width height poff => halfBytes (partWord true width) ++ [height, poff]
  | .rep c v => [(1#1 ++ c : BitVec 8), v]
  | .litr vs => BitVec.ofNat 8 (vs.length - 1) :: vs
  | .pair v => [v]
  | .compose _ _ => []
  | .tidx entries => (entries.map halfBytes).flatten
  | .nlFe => [0xFE]
  | .nl0d => [0x0D]
  | .charOverride b => [b]
  | .charDirect b => [b]
  | .tinstr _ => []
  | .paramRead8 _ => []
  | .paramRead16 _ => []
  | .paramReadUntil _ _ => []
  | .reset => []
  | .launch _ => []

/-- The items of an instruction of the working sequence (R122). -/
def Instr.encodeItems : Instr → List Item
  | .tinstr t => [.B t]
  | .paramRead8 v => [.B v]
  | .paramRead16 v => [.B (loByte v), .B (hiByte v)]
  | .paramReadUntil captured t => captured ++ [.B t]
  | _ => []

/-- Which instructions a context can hold. -/
def Ctx.admits (ctx : Ctx) (i : Instr) : Bool :=
  match ctx with
  | .hdr => match i with | .hdr _ _ _ _ _ _ => true | _ => false
  | .iw => match i with | .iw _ => true | _ => false
  | .operands k =>
    match i with
    | .lit _ => k == .copyByte
    | .m0 b1 b2 _ => k == .method0 b1 b2
    | .m1 _ => k == .method1
    | .m1x _ _ => k == .method1
    | .endMark _ => k == .method1
    | _ => false
  | .oas => match i with | .oas _ => true | _ => false
  | .pal => match i with | .palterm => true | .palrec _ _ => true | _ => false
  | .offs => match i with | .offs _ => true | _ => false
  | .part =>
    match i with
    | .partUnknown _ => true
    | .partRaw _ _ _ => true
    | .partRle _ _ _ => true
    | _ => false
  | .rle => match i with | .rep _ _ => true | .litr _ => true | _ => false
  | .pair => match i with | .pair _ => true | _ => false
  | .tidx => match i with | .tidx _ => true | _ => false
  | .char charset =>
    match i with
    | .nlFe => true
    | .nl0d => true
    | .charOverride b => (Charset.get charset b).isSome
    | .charDirect b => (Charset.get charset b).isNone
    | _ => false

/-- Which instructions an item context can hold. -/
def ItemCtx.admits (ctx : ItemCtx) (i : Instr) : Bool :=
  match ctx with
  | .trigger t => match i with | .tinstr t' => t == t' | _ => false
  | .param mode =>
    match i with
    | .paramRead8 _ => mode == .read8
    | .paramRead16 _ => mode == .read16
    | .paramReadUntil _ t => mode == .readUntil t
    | _ => false

/-! ## Words as the opcode table numbers them -/

/-- `n` bytes of `w`, bits 7 to 0 first. -/
def tableBytes : Nat → Nat → List Byte
  | 0, _ => []
  | n + 1, w => BitVec.ofNat 8 w :: tableBytes n (w / 256)

/-- Bit `k` of `w` for `k` below `n`, bit 0 first. -/
def tableBits : Nat → Nat → List Bool
  | 0, _ => []
  | n + 1, w => (w % 2 == 1) :: tableBits n (w / 2)

/-- The context a table word is read in. A word alone does not say which engine reads it, so a context
is chosen by its size and value (log 20). `none`: no row has that size, or the row has no encoding. -/
def tableCtx (nbits w : Nat) : Option Ctx :=
  if nbits = 8 then
    if w = 0xFE ∨ w = 0x0D then some (.char [])
    else if 16 ≤ w then some .rle
    else (classify (tableBits 4 w)).map Ctx.operands
  else if nbits = 16 then
    if w = 0xFFFF then some .pal else if w = 0 then some .part else some .iw
  else if nbits = 32 then some .part
  else if nbits = 48 then some .hdr
  else if nbits % 24 = 16 then some .pal
  else none

/-- The bytes that context reads: for an HSQ prefix the operand bytes, all zero; else the word's bytes,
with zero operand bytes after a run command. -/
def tableStream (nbits w : Nat) : List Byte :=
  match tableCtx nbits w with
  | some (.operands _) => tableBytes 3 0
  | some .rle => tableBytes 130 w
  | _ => tableBytes (nbits / 8) w

/-- The instruction the decoder reads from a table word (log 20). -/
def decodeTableWord (nbits w : Nat) : Option Instr :=
  match tableCtx nbits w with
  | none => none
  | some ctx =>
    match decode ctx (tableStream nbits w) with
    | .ok (i, _) => some i
    | .error _ => none

/-! ## The packer of R126 -/

/-- The body being packed: its bytes, where the open word starts, and how many of its bits are used
(16: no open word). -/
structure Packer where
  body : List Byte
  open_ : Nat
  used : Nat
deriving DecidableEq, Repr

def Packer.empty : Packer := ⟨[], 0, 16⟩

/-- Emit one instruction bit: open a word of two zero bytes if none is open or it is full. -/
def Packer.bit (p : Packer) (b : Bool) : Packer :=
  let p' : Packer := if p.used = 16 then ⟨p.body ++ [0, 0], p.body.length, 0⟩ else p
  { p' with
    body := p'.body.modify (p'.open_ + p'.used / 8)
      (fun v => if b then v ||| BitVec.twoPow 8 (p'.used % 8) else v)
    used := p'.used + 1 }

/-- Emit an instruction: its prefix bits, then its operand bytes. -/
def Packer.instr (p : Packer) (i : Instr) : Packer :=
  let q := i.prefixBits.foldl Packer.bit p
  { q with body := q.body ++ i.encode }

/-- The body of a sequence of HSQ instructions. -/
def packBody (prog : List Instr) : List Byte := (prog.foldl Packer.instr Packer.empty).body

/-- `.header usize, csize`: `ctrl = 0` and the one `cksum` that R102 accepts. -/
def packHeader (usize csize : Half) : List Byte :=
  let five := [loByte usize, hiByte usize, 0, loByte csize, hiByte csize]
  five ++ [BitVec.ofNat 8 0xAB - five.foldl (· + ·) 0]

end Sys2Proof
end

