-- ==== Sys2Proof/Machine/State.lean ====
section
/-! DEFINITION. The state of one instance of the block (spec/10_state.md R30 to R62), as plain data:
the three engines, the palette composer's outputs, the capacities, and the host's pending moves. The
fields the spec does not name are marked "model's own". INVENTORY.md lists every field with its reset
value. -/

namespace Sys2Proof.Machine

/-! ## Memory -/

/-- One byte-addressed space: (address, byte) pairs, addresses strictly rising. An address that is not
listed has no value (R37, R61, U30, U31; DESIGN CHOICE, safe, log 1). -/
abbrev Memory := List Host.Cell

/-- The byte-addressed spaces (R70): the payload buffer has one binding per interpreter (R41, R52). -/
inductive Space where
  | ibuf
  | obuf
  | pbufImgd
  | pbufTxtp
deriving DecidableEq, Repr

/-! ## Reasons a step stops -/

/-- A step stops with a fault only where the model has no value to go on with. No reachable state does
(Sys2Proof/Safety.lean): both are safe. The block's own exceptions are no faults of this kind: they are
next states (R320, R321). -/
inductive Fault where
  /-- Raised by any read of a byte of `sp` that nothing has written (R11: "defined only when
  a + n <= |SP|"). Safe (log 1). -/
  | unwrittenByte (sp : Space) (a : Nat)
  /-- Raised by IMGD, TXTP where the entry `j` of `ABS`, `ADDR` or `ITAB` that a loop stands at does not
  exist. Safe (log 28). -/
  | missingEntry (e : Engine) (j : Nat)
deriving DecidableEq, Repr

/-- The refusals: the host moves that spec/93_implementation_defined.md section 4 says a model refuses, and
a launch beside a RUNNING engine. All safe (log 5, log 21). -/
inductive Refusal where
  /-- Raised by `exec` alone, for an instruction that has no meaning yet. Safe. -/
  | notModelled (mnemonic : String)
  /-- Raised by LAUNCH of an engine that is RUNNING (U41, R352). Safe. -/
  | launchWhileRunning (e : Engine)
  /-- Raised by LAUNCH of IMGD or TXTP bound to `OBUF` while HSQD is not DONE (U40, R85). Safe. -/
  | bindWhileNotDone
  /-- Raised by LAUNCH of HSQD while an interpreter bound to its `OBUF` is RUNNING (U40, R85, R357 c).
  Safe. -/
  | relaunchUnderBound
  /-- Raised by LAUNCH while another engine, `active`, is RUNNING: "at most one engine runs at a time" (R15,
  R328). Safe (log 5). -/
  | otherRunning (active : Engine)
  /-- Raised by the host move `compose` when IMGD is not DONE or stores no such record (U42, R353).
  Safe (log 17). -/
  | resultNotReadable
deriving DecidableEq, Repr

/-! ## Status registers and causes -/

/-- `E.STATUS` (R31). -/
inductive Status where
  | idle
  | running
  | done
  | fault
deriving DecidableEq, Repr

/-- `E.CAUSE` (R31): `NONE` or a fatal cause of R310. -/
inductive Cause where
  | none
  | badChecksum
  | unexpectedEnd
  | backRefUnderflow
  | arrayMismatch
  | badOffsetsStart
  | capacityExceeded
deriving DecidableEq, Repr

/-- The unit causes of R310. -/
inductive UnitCause where
  | badRange
  | truncated
  | paramOverrun
  | channelRange
  | paletteOverrun
deriving DecidableEq, Repr

/-- The status registers of one engine (R31). -/
structure EngineStatus where
  status   : Status
  cause    : Cause
  faultPos : Nat
deriving DecidableEq, Repr

/-- The unit kinds of the skip logs (R50, R57). -/
inductive UnitKind where
  | subPalette
  | part
  | sentence
deriving DecidableEq, Repr

/-- One skip-log entry (R50, R57). -/
structure LogEntry where
  unit  : UnitKind
  id    : Nat
  cause : UnitCause
  addr  : Nat
deriving DecidableEq, Repr

/-! ## HSQD -/

/-- The working register `kind` (R36). -/
inductive Kind where
  | copyByte
  | method0
  | method1
  | endMarker
deriving DecidableEq, Repr

/-- `HSQD.STOP` (R38). -/
inductive Stop where
  | none
  | endMarker
  | endInput
deriving DecidableEq, Repr

/-- `HSQD.PHASE` (R40). -/
inductive HsqdPhase where
  | header
  | body
deriving DecidableEq, Repr

/-- The HSQD state (R31 to R40). -/
structure Hsqd where
  st     : EngineStatus
  verify : Bool
  pos    : Nat
  bitbuf : Half
  bitcnt : Nat
  usize  : BitVec 32
  csize  : Half
  cksum  : Byte
  raw    : Half
  len    : Half
  dist   : Half
  kind   : Kind
  obuf   : Memory
  olen   : Nat
  stop   : Stop
  ibuf   : Memory
  inLen  : Nat
  phase  : HsqdPhase
  /-- Model's own: `none` at an instruction boundary, else the prefix bits consumed so far (log 7). -/
  pfx    : Option (List Bool)
deriving DecidableEq, Repr

/-! ## IMGD -/

/-- An image-part record (R47). -/
structure ImagePart where
  index         : Nat
  isCompressed  : Bool
  width         : BitVec 15
  height        : Byte
  paletteOffset : Byte
  rawBytes      : List Byte
  decodedPixels : List (Option Byte)
deriving DecidableEq, Repr

/-- An unknown-part record (R48). -/
structure UnknownPart where
  index    : Nat
  rawBytes : List Byte
deriving DecidableEq, Repr

/-- Model's own: the loop of R200 to R230 that IMGD stands in (log 8). -/
inductive ImgdPhase where
  /-- The pointer is next (R201). -/
  | pointer
  /-- A record boundary of the palette loop (R202). -/
  | palette
  /-- The offsets array is next (R208). -/
  | offsets
  /-- The framing of part `i` is next (R211), or the end of the run. -/
  | frame
  /-- The header of part `i` is next (R213). -/
  | header
  /-- The row loop of a packed part (R221). -/
  | rows
  /-- The row loop of an RLE part (R223). -/
  | runs
deriving DecidableEq, Repr

/-- The IMGD state (R31, R41 to R50). -/
structure Imgd where
  st         : EngineStatus
  pbuf       : Memory
  plen       : Nat
  /-- Whether `PBUF` was bound to `OBUF` at the launch (R41, R85). -/
  bound      : Bool
  phase      : ImgdPhase
  oas        : Half
  pcur       : Nat
  k          : Nat
  loc        : Byte
  cnt        : Byte
  tbs        : Half
  n          : Nat
  abs        : List Nat
  c          : Nat
  i          : Nat
  pstart     : Nat
  pend       : Nat
  cw         : Half
  comp       : Bool
  width      : BitVec 15
  height     : Byte
  poff       : Byte
  s          : Nat
  y          : Nat
  x          : Nat
  bpl        : Nat
  lineRemain : Int
  cmd        : Byte
  v          : Byte
  count      : Nat
  pixels     : List (Option Byte)
  palNoterm  : Bool
  subpals    : List SubPalette
  imgparts   : List ImagePart
  unkparts   : List UnknownPart
  skiplog    : List LogEntry
deriving DecidableEq, Repr

/-! ## PALC -/

/-- The outputs of the palette composer (R51): a total mapping from 0..255, and `PALERR`. -/
structure Palc where
  palette : Vector Color 256
  palerr  : Bool
deriving DecidableEq, Repr

/-! ## TXTP -/

/-- A sentence record (R56). -/
structure Sentence where
  index                : Nat
  startAddress         : Nat
  endAddress           : Nat
  rawText              : Text
  textWithInstructions : Text
deriving DecidableEq, Repr

/-- Model's own: the loop of R261 to R282 that TXTP stands in (log 8). -/
inductive TxtpPhase where
  /-- The index is next (R261). -/
  | index
  /-- The framing of sentence `i` is next (R264), or the end of the run. -/
  | frame
  /-- The charset decode of the sentence's bytes (R267). -/
  | raw
  /-- The scan for the trigger of the entry (R269, R270). -/
  | scan
  /-- The parameters of the expansion under way (R271). -/
  | params
  /-- The final decode of the working sequence (R280). -/
  | final
deriving DecidableEq, Repr

/-- The TXTP state (R31, R52 to R58). -/
structure Txtp where
  st        : EngineStatus
  pbuf      : Memory
  plen      : Nat
  /-- Whether `PBUF` was bound to `OBUF` at the launch (R52, R85). -/
  bound     : Bool
  charset   : Charset
  itab      : List TextInstruction
  phase     : TxtpPhase
  ibs       : Half
  n         : Nat
  addr      : List Half
  c         : Nat
  i         : Nat
  sstart    : Nat
  send      : Nat
  w         : List Item
  t         : Byte
  p         : Nat
  q         : Nat
  r         : Nat
  /-- The values of R271 read so far. -/
  vals      : List (List Item)
  /-- Model's own: the number of the `ITAB` entry the loop of R269 stands at (log 8). -/
  entry     : Nat
  /-- Model's own: the number of the parameter the loop of R271 stands at (log 8). -/
  prm       : Nat
  /-- `rawText` of the sentence being decoded (R267). -/
  rawText   : Text
  /-- `textWithInstructions` of the sentence being decoded (R280). -/
  outText   : Text
  sentences : List Sentence
  skiplog   : List LogEntry
  dupStart  : Bool
deriving DecidableEq, Repr

/-! ## The host -/

/-- A move of the host agent (R350): a command, or standing aside while one engine steps (log 3). -/
inductive HostMove where
  /-- The command RESET (R351). -/
  | reset
  /-- The command LAUNCH (R352). -/
  | launch (req : LaunchReq)
  /-- PALC on record number `j` of `SUBPALS` with a default colour (R232, R353). -/
  | compose (j : Nat) (dflt : Color)
  /-- No command: engine `e` takes its next step if it is RUNNING. -/
  | run (e : Engine)
deriving DecidableEq, Repr



/-- The whole machine. -/
structure State where
  hsqd  : Hsqd
  imgd  : Imgd
  palc  : Palc
  txtp  : Txtp
  /-- The capacities of R6: configuration, which no step changes (log 11). -/
  caps  : Caps
  /-- Model's own: the host's pending moves, oldest first (log 3). -/
  hostq : List HostMove
deriving DecidableEq, Repr

/-! ## Reset (R61, R351) -/

/-- `STATUS = IDLE`, `CAUSE = NONE`, `FAULT_POS = 0` (R31). -/
def EngineStatus.reset : EngineStatus := { status := .idle, cause := .none, faultPos := 0 }

/-- R61. The working registers of R36 are unspecified there and hold zero (DESIGN CHOICE, log 2). -/
def Hsqd.reset : Hsqd :=
  { st := .reset, verify := true, pos := 0, bitbuf := 0, bitcnt := 0, usize := 0, csize := 0, cksum := 0,
    raw := 0, len := 0, dist := 0, kind := .copyByte, obuf := [], olen := 0, stop := .none, ibuf := [],
    inLen := 0, phase := .header, pfx := none }

/-- R61. The working registers of R44 are unspecified there and hold zero (DESIGN CHOICE, log 2). -/
def Imgd.reset : Imgd :=
  { st := .reset, pbuf := [], plen := 0, bound := false, phase := .pointer, oas := 0, pcur := 0, k := 0,
    loc := 0, cnt := 0, tbs := 0, n := 0, abs := [], c := 0, i := 0, pstart := 0, pend := 0, cw := 0,
    comp := false, width := 0, height := 0, poff := 0, s := 0, y := 0, x := 0, bpl := 0, lineRemain := 0,
    cmd := 0, v := 0, count := 0, pixels := [], palNoterm := false, subpals := [], imgparts := [],
    unkparts := [], skiplog := [] }

/-- All flags are clear (R351); the palette itself has no reset value in the spec (DESIGN CHOICE,
log 16). -/
def Palc.reset : Palc := { palette := Vector.replicate 256 ⟨0, 0, 0⟩, palerr := false }

/-- R61. The rest of R55 is unspecified there and holds zero (DESIGN CHOICE, log 2). -/
def Txtp.reset : Txtp :=
  { st := .reset, pbuf := [], plen := 0, bound := false, charset := [], itab := [], phase := .index,
    ibs := 0, n := 0, addr := [], c := 0, i := 0, sstart := 0, send := 0, w := [], t := 0, p := 0, q := 0,
    r := 0, vals := [], entry := 0, prm := 0, rawText := [], outText := [], sentences := [],
    skiplog := [], dupStart := false }

/-- The machine right after reset (R61, R351): every engine IDLE, every store empty, no host move
pending. "There is no reset vector: no engine starts by itself after reset." -/
def State.reset : State :=
  { hsqd := .reset, imgd := .reset, palc := .reset, txtp := .reset, caps := .unbounded, hostq := [] }

end Sys2Proof.Machine
end

