-- ==== Sys2Proof/Machine/Ops.lean ====
section
/-! DEFINITION. The named operations every meaning is written over: memory (spec/20_memory.md), the
capacities (R317), raising a fatal fault and a unit error (R320, R321), the output buffer and the
back-reference copy (R153, R155), and the lifting of an engine's operation to the machine. -/

namespace Sys2Proof.Machine

/-- What a step or a meaning answers. -/
abbrev Answer := Host.Outcome State Fault Refusal

/-! ## Memory -/

/-- The byte at an address, or nothing where nothing has been written (log 1). -/
def Memory.read : Memory → Nat → Option Byte
  | [], _ => none
  | (a, b) :: m, x => if x = a then some b else Memory.read m x

/-- `MemWrite(SP, a, 1, b)` of R11, keeping the addresses strictly rising. -/
def Memory.write : Memory → Nat → Byte → Memory
  | [], x, v => [(x, v)]
  | (a, b) :: m, x, v =>
    if x < a then (x, v) :: (a, b) :: m
    else if x = a then (x, v) :: m
    else (a, b) :: Memory.write m x v

/-- Bytes laid out from address `a` upwards, as a launch loads them (R352). -/
def Memory.ofBytes : Nat → List Byte → Memory
  | _, [] => []
  | a, b :: bs => (a, b) :: Memory.ofBytes (a + 1) bs

/-- The `n` bytes from address `a`, `SP[a : a + n]` of R10; nothing if one of them has no value. -/
def Memory.slice (m : Memory) : Nat → Nat → Option (List Byte)
  | _, 0 => some []
  | a, n + 1 =>
    match m.read a, Memory.slice m (a + 1) n with
    | some b, some bs => some (b :: bs)
    | _, _ => none

/-- The first address at or above `a` that has no value, looking at `n` of them. -/
def Memory.gap (m : Memory) : Nat → Nat → Nat
  | a, 0 => a
  | a, n + 1 => if (m.read a).isSome then Memory.gap m (a + 1) n else a

/-- The canonical form: addresses strictly rising. No entry can equal what an unlisted address reads as,
since such an address has no value. -/
def Memory.wf : Memory → Bool
  | [] => true
  | (a, _) :: m => (match m with | [] => true | (a', _) :: _ => decide (a < a')) && Memory.wf m

/-- The bytes from the cursor `a` up to the limit `lim`, the range a cursor of R12 may still read. -/
def window (sp : Space) (m : Memory) (a lim : Nat) : Except Fault (List Byte) :=
  match m.slice a (lim - a) with
  | some bs => .ok bs
  | none => .error (.unwrittenByte sp (m.gap a (lim - a)))

/-! ## Capacities (R6, R317) -/

/-- A store of `n` entries "already holds its capacity". -/
def full (cap : Option Nat) (n : Nat) : Bool :=
  match cap with
  | none => false
  | some c => decide (c ≤ n)

/-- `n` is more than the capacity. -/
def exceeds (cap : Option Nat) (n : Nat) : Bool :=
  match cap with
  | none => false
  | some c => decide (c < n)

/-! ## Exceptions

There is no return from an exception (R322): a FAULT is left only by a launch of that engine or by
RESET, both in HostCmd.lean. -/

/-- Fatal fault entry, R320: `STATUS <- FAULT; CAUSE <- cause; FAULT_POS <- info`. -/
def EngineStatus.raise (cause : Cause) (info : Nat) (_st : EngineStatus) : EngineStatus :=
  { status := .fault, cause := cause, faultPos := info }

/-- The status registers a launch leaves (R352). -/
def EngineStatus.launched : EngineStatus := { status := .running, cause := .none, faultPos := 0 }

/-- The end of a run with a result (R355): only `STATUS` changes. -/
def EngineStatus.finish (st : EngineStatus) : EngineStatus := { st with status := .done }

def Hsqd.fatal (cause : Cause) (info : Nat) (h : Hsqd) : Hsqd := { h with st := h.st.raise cause info }

def Imgd.fatal (cause : Cause) (info : Nat) (m : Imgd) : Imgd := { m with st := m.st.raise cause info }

def Txtp.fatal (cause : Cause) (info : Nat) (x : Txtp) : Txtp := { x with st := x.st.raise cause info }

/-- Unit error entry in IMGD, R321: one log entry, then the engine goes on as `next` says. If the log is
full the fatal CapacityExceeded of R322 is raised instead, at the cursor `cur` (log 13). -/
def Imgd.unitError (caps : Caps) (e : LogEntry) (cur : Nat) (next : Imgd → Imgd) (m : Imgd) : Imgd :=
  if full caps.logCap m.skiplog.length then m.fatal .capacityExceeded cur
  else next { m with skiplog := m.skiplog ++ [e] }

/-- Unit error entry in TXTP, R321. -/
def Txtp.unitError (caps : Caps) (e : LogEntry) (cur : Nat) (next : Txtp → Txtp) (x : Txtp) : Txtp :=
  if full caps.logCap x.skiplog.length then x.fatal .capacityExceeded cur
  else next { x with skiplog := x.skiplog ++ [e] }

/-! ## Output buffer and back-references -/

/-- `MemWrite(OBUF, olen, 1, b); olen <- olen + 1`, the write of R72 and R155. -/
def Hsqd.push (b : Byte) (h : Hsqd) : Hsqd :=
  { h with obuf := h.obuf.write h.olen b, olen := h.olen + 1 }

/-- `Append(b)` of R155. -/
def Hsqd.append (caps : Caps) (b : Byte) (h : Hsqd) : Hsqd :=
  if full caps.outCap h.olen then h.fatal .capacityExceeded h.pos else h.push b

/-- `BackCopy(len, dist)` of R153, byte by byte: the source index is computed from the current `olen`
each time, so a byte just appended can be copied again (R82). Underflow is tested before the capacity
(R319). -/
def Hsqd.backCopy (caps : Caps) (dist : Int) : Nat → Hsqd → Except Fault Hsqd
  | 0, h => .ok h
  | len + 1, h =>
    let src : Int := h.olen + dist
    if src < 0 then .ok (h.fatal .backRefUnderflow h.pos)
    else
      match h.obuf.read src.toNat with
      | none => .error (.unwrittenByte .obuf src.toNat)
      | some b =>
        if full caps.outCap h.olen then .ok (h.fatal .capacityExceeded h.pos)
        else Hsqd.backCopy caps dist len (h.push b)

/-! ## From an engine to the machine -/

def State.setHsqd (s : State) (h : Hsqd) : State := { s with hsqd := h }

def State.setImgd (s : State) (m : Imgd) : State := { s with imgd := m }

def State.setPalc (s : State) (p : Palc) : State := { s with palc := p }

def State.setTxtp (s : State) (x : Txtp) : State := { s with txtp := x }

def State.setHostq (s : State) (q : List HostMove) : State := { s with hostq := q }

/-- An operation of HSQD touches the HSQD state alone (R30). -/
def onHsqd (f : Caps → Hsqd → Except Fault Hsqd) (s : State) : Answer :=
  match f s.caps s.hsqd with
  | .ok h => .next (s.setHsqd h)
  | .error r => .fault r

/-- An operation of IMGD touches the IMGD state alone (R30). -/
def onImgd (f : Caps → Imgd → Except Fault Imgd) (s : State) : Answer :=
  match f s.caps s.imgd with
  | .ok m => .next (s.setImgd m)
  | .error r => .fault r

/-- An operation of TXTP touches the TXTP state alone (R30). -/
def onTxtp (f : Caps → Txtp → Except Fault Txtp) (s : State) : Answer :=
  match f s.caps s.txtp with
  | .ok x => .next (s.setTxtp x)
  | .error r => .fault r

end Sys2Proof.Machine
end

