-- ==== Sys2Proof/Machine/Operands.lean ====
section
/-! DEFINITION. The operand forms: lengths and distances of back-references (spec/30_encoding.md R107 to
R109), run counts and row lengths (R115, R220, R224), pixels (R116, R217), colours (R203), characters
(R121, R266) and the placeholders of text instructions (R275, R276). -/

namespace Sys2Proof.Machine

/-! ## HSQD -/

/-- `length = 2 + 2·b1 + b2` (R107). -/
def m0Len (b1 b2 : Bool) : Nat := 2 + 2 * b1.toNat + b2.toNat

/-- `distance = d − 256` (R107). -/
def m0Dist (d : Byte) : Int := d.toNat - 256

/-- `length = len3 + 2` of the short form (R108). -/
def m1Len (raw : Half) : Nat := (len3 raw).toNat + 2

/-- `length = e + 2` of the extended form (R150; the spec's own reading, R109 and D15, log 23). -/
def m1xLen (e : Byte) : Nat := e.toNat + 2

/-- `raw[15:3]`, the field `dist13` (R108). -/
def dist13 (raw : Half) : BitVec 13 := (raw >>> 3).setWidth 13

/-- `distance = dist13 − 8192` for every `raw` (R152). -/
def m1Dist (raw : Half) : Int := (dist13 raw).toNat - 8192

/-! ## IMGD -/

/-- `4 × raw` of a legal raw channel (R203). -/
def scaleChannel (v : Byte) : Byte := v <<< 2

def scaleColor (c : Color) : Color := ⟨scaleChannel c.r, scaleChannel c.g, scaleChannel c.b⟩

/-- Bytes per line: `2 · ceil(ceil(width / 2) / 2)` (R220; the spec's own reading, D26, log 23). -/
def bplOf (width : BitVec 15) : Nat := 2 * (((width.toNat + 1) / 2 + 1) / 2)

/-- What `line_remain` starts a row at: `4 · ceil(width / 4)` (R224). -/
def lineQuantum (width : BitVec 15) : Nat := 4 * ((width.toNat + 3) / 4)

/-- The command byte of a repeat run: bit 7 set, `c` below it (R115). -/
def repCmd (c : BitVec 7) : Byte := 1#1 ++ c

/-- `count = 257 − cmd` with `cmd` unsigned (R225). -/
def repCount (c : BitVec 7) : Nat := 257 - (repCmd c).toNat

/-- The command byte of a literal run of the bytes `vs`: `count − 1` (R226). -/
def litrCmd (vs : List Byte) : Byte := BitVec.ofNat 8 (vs.length - 1)

/-- `v[3:0]`, the left pixel (R116). -/
def loNib (v : Byte) : Byte := v &&& 0x0F

/-- `v[7:4]`, the right pixel (R116). -/
def hiNib (v : Byte) : Byte := v >>> 4

/-- `Emit(nib)` of R217: a column at or past `width` is dropped, a zero nibble leaves `None`. -/
def Imgd.emit (nib : Byte) (m : Imgd) : Imgd :=
  { m with
    pixels :=
      if m.x < m.width.toNat ∧ nib ≠ 0 then m.pixels.set (m.y * m.width.toNat + m.x) (some nib)
      else m.pixels
    x := m.x + 1 }

/-- `EmitPair(v)` of R217: the low nibble first. -/
def Imgd.emitPair (v : Byte) (m : Imgd) : Imgd := (m.emit (loNib v)).emit (hiNib v)

/-- `EmitPair` of each byte in turn. -/
def Imgd.emitPairs : List Byte → Imgd → Imgd
  | [], m => m
  | v :: vs, m => Imgd.emitPairs vs (m.emitPair v)

/-! ## TXTP -/

/-- The newline character (R14, D5). -/
def newlineChar : Char := '\n'

/-- `chr(b)`: the character whose code point is the byte (R14). -/
def chr (b : Byte) : Char := Char.ofNat b.toNat

/-- `CharDecode(b)` (R266). -/
def charDecode (charset : Charset) (b : Byte) : Char :=
  if isNewline b then newlineChar
  else
    match Charset.get charset b with
    | some ch => ch
    | none => chr b

/-- The smallest index of a raw byte `t` in the working sequence (R269, R270). -/
def findByte (t : Byte) : List Item → Option Nat
  | [] => none
  | it :: rest => if it = .B t then some 0 else (findByte t rest).map (· + 1)

/-- `C(text)` of R275: the `C` items of a text. -/
def textItems (t : Text) : List Item := t.map Item.C

/-- The element form (R275). -/
def elementForm (name : Text) (captured : List Item) : List Item :=
  textItems ['<'] ++ textItems name ++ textItems ['>'] ++ captured ++
    textItems ['<', '/'] ++ textItems name ++ textItems ['>']

/-- One attribute of the attribute form: ` name="value"` (R276). -/
def attrItems (prm : Param) (val : List Item) : List Item :=
  textItems [' '] ++ textItems prm.name ++ textItems ['=', '"'] ++ val ++ textItems ['"']

/-- The attributes of the attribute form, in parameter order (R276). -/
def attributes : List Param → List (List Item) → List Item
  | prm :: prms, val :: vals => attrItems prm val ++ attributes prms vals
  | _, _ => []

/-- The attribute form (R276). -/
def attributeForm (name : Text) (prms : List Param) (vals : List (List Item)) : List Item :=
  textItems ['<'] ++ textItems name ++ attributes prms vals ++ textItems ['/', '>']

/-- The element form is used "exactly when the instruction has one parameter and that parameter's mode
is `ReadUntil`" (R275). -/
def usesElementForm : List Param → Bool
  | [⟨_, .readUntil _⟩] => true
  | _ => false

/-- `Placeholder(ins, vals)` of R271. -/
def placeholder (ins : TextInstruction) (vals : List (List Item)) : List Item :=
  if usesElementForm ins.params then elementForm ins.functionName (vals.headD [])
  else attributeForm ins.functionName ins.params vals

/-- The value of a numeric parameter: the `C` items of `RenderValue(v)` (R272, R273, R277). -/
def numericValue (v : Half) : List Item := textItems (Config.renderValue v)

end Sys2Proof.Machine
end

