-- ==== Sys2Proof/Machine/Flags.lean ====
section
/-! DEFINITION. The conditions behind every flag-like state of the block (spec/10_state.md R59): the
checksum, the range checks and the informational flags. The block has no arithmetic condition codes. -/

namespace Sys2Proof.Machine

/-- The sum of the six header bytes (R102). -/
def headerSum (h0 h1 h2 h3 h4 h5 : Byte) : Nat :=
  h0.toNat + h1.toNat + h2.toNat + h3.toNat + h4.toNat + h5.toNat

/-- "A header is checksum-valid exactly when" its sum modulo 256 is `0xAB` (R102). -/
def checksumOk (h0 h1 h2 h3 h4 h5 : Byte) : Bool := headerSum h0 h1 h2 h3 h4 h5 % 256 == 0xAB

/-- A raw triple with a channel of 64 or more (R203, R204). -/
def channelOut (c : Color) : Bool := decide (64 ≤ c.r.toNat) || decide (64 ≤ c.g.toNat) || decide (64 ≤ c.b.toNat)

/-- `BadRange`: the range decreases or leaves the payload (R211, R264). -/
def badRange (start stop len : Nat) : Bool := decide (stop < start) || decide (len < stop)

/-- `BadOffsetsStart` (R201). -/
def badOffsetsStart (oas plen : Nat) : Bool := decide (oas < 2) || decide (plen < oas)

/-- `ArrayMismatch`: no entries, or the first absolute address is not the cursor after the array (R209). -/
def arrayMismatch (abs : List Nat) (c : Nat) : Bool :=
  match abs with
  | [] => true
  | a :: _ => a != c

/-- `PALERR`: the colours do not fit the 256 slots (R232, R233). -/
def slotRange (sp : SubPalette) : Bool := decide (256 < sp.loc.toNat + sp.colors.length)

/-- The condition of `DUP_START`: some stored record starts where this sentence does (R282). -/
def startTaken (sentences : List Sentence) (start : Nat) : Bool :=
  sentences.any (fun r => r.startAddress == start)

end Sys2Proof.Machine
end

