-- ==== Sys2Proof/Machine/HostRead.lean ====
section
/-! DEFINITION. Result reads (spec/70_reset_and_hazards.md R353): what the host may read of a state, and
nothing else. A read changes nothing, so it is a function of the state, not a step. -/

namespace Sys2Proof.Machine

/-- The header registers as the host reads them (R35, R156). -/
structure HeaderView where
  usize : BitVec 32
  csize : Half
  cksum : Byte
deriving DecidableEq, Repr

/-- The results of an HSQD run (R156, R353). -/
structure HsqdView where
  header : HeaderView
  bytes  : List Byte
  stop   : Stop
deriving DecidableEq, Repr

/-- The results of an IMGD run (R200, R353). -/
structure ImgdView where
  subpals   : List SubPalette
  imgparts  : List ImagePart
  unkparts  : List UnknownPart
  skiplog   : List LogEntry
  palNoterm : Bool
deriving DecidableEq, Repr

/-- The results of a TXTP run (R260, R353). -/
structure TxtpView where
  sentences : List Sentence
  skiplog   : List LogEntry
  dupStart  : Bool
deriving DecidableEq, Repr

/-- The status registers of an engine: the host reads all three (R31). -/
def statusOf (e : Engine) (s : State) : EngineStatus :=
  match e with
  | .hsqd => s.hsqd.st
  | .imgd => s.imgd.st
  | .txtp => s.txtp.st

/-- The numeric code of a `CAUSE` register (R310, U53). -/
def Cause.code : Cause → Nat
  | .none => 0
  | .badChecksum => 1
  | .unexpectedEnd => 2
  | .backRefUnderflow => 3
  | .arrayMismatch => 4
  | .badOffsetsStart => 5
  | .capacityExceeded => 6

/-- The numeric code of a skip log's cause field (R310, U53). -/
def UnitCause.code : UnitCause → Nat
  | .badRange => 16
  | .truncated => 17
  | .paramOverrun => 18
  | .channelRange => 24
  | .paletteOverrun => 25

/-- `CAUSE` and `FAULT_POS`, when the engine's status is FAULT (R353). -/
def readFault (e : Engine) (s : State) : Option (Cause × Nat) :=
  if (statusOf e s).status = .fault then some ((statusOf e s).cause, (statusOf e s).faultPos) else none

/-- `HDR`: valid when HSQD is DONE, and after a FAULT "whose cause is not `UnexpectedEnd` at `FAULT_POS`
0" (R35). -/
def readHeader (s : State) : Option HeaderView :=
  let view : HeaderView := ⟨s.hsqd.usize, s.hsqd.csize, s.hsqd.cksum⟩
  match s.hsqd.st.status with
  | .done => some view
  | .fault => if s.hsqd.st.cause = .unexpectedEnd ∧ s.hsqd.st.faultPos = 0 then none else some view
  | _ => none

/-- The results of HSQD, when it is DONE (R353); `OBUF[0:olen]` and `HDR` (R156). -/
def readHsqd (s : State) : Option HsqdView :=
  if s.hsqd.st.status = .done then
    (s.hsqd.obuf.slice 0 s.hsqd.olen).map
      (fun bs => ⟨⟨s.hsqd.usize, s.hsqd.csize, s.hsqd.cksum⟩, bs, s.hsqd.stop⟩)
  else none

/-- The results of IMGD, when it is DONE (R353). -/
def readImgd (s : State) : Option ImgdView :=
  if s.imgd.st.status = .done then
    some ⟨s.imgd.subpals, s.imgd.imgparts, s.imgd.unkparts, s.imgd.skiplog, s.imgd.palNoterm⟩
  else none

/-- The results of TXTP, when it is DONE (R353). -/
def readTxtp (s : State) : Option TxtpView :=
  if s.txtp.st.status = .done then some ⟨s.txtp.sentences, s.txtp.skiplog, s.txtp.dupStart⟩ else none

/-- Record `j` of a valid `SUBPALS`, for PALC (R353). -/
def readSubpal (j : Nat) (s : State) : Option SubPalette :=
  match readImgd s with
  | some v => v.subpals[j]?
  | none => none

end Sys2Proof.Machine
end

