-- ==== Sys2Proof/Machine/HostCmd.lean ====
section
/-! DEFINITION. The host commands RESET and LAUNCH (spec/70_reset_and_hazards.md R351, R352). They are
also the only way out of a FAULT (spec/60_exceptions.md R322). -/

namespace Sys2Proof.Machine

/-- RESET: every state element at its reset value, in any state (R351). The capacities are no state
(R62) and the host's own pending moves are not the block's (log 29). -/
def execReset (s : State) : Answer := .next { State.reset with caps := s.caps, hostq := s.hostq }

/-- LAUNCH(HSQD, bytes, verify) of R352: everything the previous run left is erased (log 10). An input
longer than `IN_CAP` is not loaded and faults at once (R317, log 12). -/
def launchedHsqd (caps : Caps) (bytes : List Byte) (verify : Bool) : Hsqd :=
  let h : Hsqd := { Hsqd.reset with st := .launched, verify := verify }
  if exceeds caps.inCap bytes.length then h.fatal .capacityExceeded 0
  else { h with ibuf := Memory.ofBytes 0 bytes, inLen := bytes.length }

/-- LAUNCH(IMGD, bytes) of R352. -/
def launchedImgd (caps : Caps) (bytes : List Byte) (bound : Bool) : Imgd :=
  let m : Imgd := { Imgd.reset with st := .launched, bound := bound }
  if exceeds caps.pCap bytes.length then m.fatal .capacityExceeded 0
  else { m with pbuf := Memory.ofBytes 0 bytes, plen := bytes.length }

/-- LAUNCH(TXTP, bytes, charset, itab) of R352. -/
def launchedTxtp (caps : Caps) (bytes : List Byte) (bound : Bool) (charset : Charset)
    (itab : List TextInstruction) : Txtp :=
  let x : Txtp := { Txtp.reset with st := .launched, bound := bound }
  if exceeds caps.pCap bytes.length || exceeds caps.nInstrCap itab.length then
    x.fatal .capacityExceeded 0
  else
    { x with
      pbuf := Memory.ofBytes 0 bytes, plen := bytes.length, charset := charset, itab := itab }

/-- Whether an interpreter bound to `OBUF` is RUNNING (R85, R357 c). -/
def boundRunning (s : State) : Bool :=
  (s.imgd.bound && decide (s.imgd.st.status = .running)) ||
    (s.txtp.bound && decide (s.txtp.st.status = .running))

/-- What a launch goes on to do with the payload bytes: the host's own, or a copy of `OBUF[0:olen]` of an
HSQD that is DONE (R41, R52, R85). -/
def withPayload (p : Payload) (s : State) (f : List Byte → Bool → State) : Answer :=
  match p with
  | .bytes bs => .next (f bs false)
  | .obuf =>
    if s.hsqd.st.status = .done then
      match window .obuf s.hsqd.obuf 0 s.hsqd.olen with
      | .ok bs => .next (f bs true)
      | .error r => .fault r
    else .refused .bindWhileNotDone

/-- The RUNNING engine of the instance, of which there is at most one (R15, R328, log 4). -/
def activeEngine (s : State) : Option Engine :=
  if s.hsqd.st.status = .running then some .hsqd
  else if s.imgd.st.status = .running then some .imgd
  else if s.txtp.st.status = .running then some .txtp
  else none

/-- The engine a launch starts. -/
def LaunchReq.engine : LaunchReq → Engine
  | .hsqd _ _ => .hsqd
  | .imgd _ => .imgd
  | .txtp _ _ _ => .txtp

/-- Why a launch of `e` is refused, if it is: the engine itself is RUNNING (R352, U41), HSQD would be
relaunched under a bound RUNNING interpreter (R85, U40), or another engine is RUNNING (R15, R328; log 5,
log 21). -/
def launchRefusal (e : Engine) (s : State) : Option Refusal :=
  match activeEngine s with
  | none => none
  | some active =>
    if (statusOf e s).status = .running then some (.launchWhileRunning e)
    else if e = .hsqd ∧ boundRunning s then some .relaunchUnderBound
    else some (.otherRunning active)

/-- The state after LAUNCH(IMGD): PALC is part of the IMGD state (R30), and a launch writes `PALERR` (R59)
and erases what the previous run left (R352, log 16). -/
def State.launchImgd (s : State) (bytes : List Byte) (bound : Bool) : State :=
  (s.setImgd (launchedImgd s.caps bytes bound)).setPalc .reset

/-- LAUNCH (R352), under its preconditions (R15, R84, R85, R328, R357). -/
def execLaunch (req : LaunchReq) (s : State) : Answer :=
  match launchRefusal (LaunchReq.engine req) s with
  | some r => .refused r
  | none =>
    match req with
    | .hsqd bytes verify => .next (s.setHsqd (launchedHsqd s.caps bytes verify))
    | .imgd p => withPayload p s s.launchImgd
    | .txtp p charset itab =>
      withPayload p s (fun bs bound => s.setTxtp (launchedTxtp s.caps bs bound charset itab))

end Sys2Proof.Machine
end

