-- ==== Sys2Proof/Machine/Hsqd.lean ====
section
/-! DEFINITION. The meanings of HSQD's instructions (spec/40_hsq_decompressor.md). Each starts where the
prefix bits have been consumed by Decode() (R146) and the cursor stands at the operand bytes; it moves
the cursor over them. `…Op` works on the HSQD state, `exec…` on the machine. -/

namespace Sys2Proof.Machine

/-- Header step: R141, then the checksum check of R142. -/
def hdrOp (h0 h1 h2 h3 h4 h5 : Byte) (_ : Caps) (h : Hsqd) : Except Fault Hsqd :=
  let h' : Hsqd :=
    { h with
      pos := h.pos + 6
      usize := (le16 h0 h1).setWidth 32
      csize := le16 h3 h4
      cksum := h5 }
  if h.verify && !checksumOk h0 h1 h2 h3 h4 h5 then .ok (h'.fatal .badChecksum 6)
  else .ok { h' with phase := .body }

def execHdr (h0 h1 h2 h3 h4 h5 : Byte) (s : State) : Answer := onHsqd (hdrOp h0 h1 h2 h3 h4 h5) s

/-- The reload of GetBit: `bitbuf <- Rd16(); bitcnt <- 16` (R145). -/
def iwOp (w : Half) (_ : Caps) (h : Hsqd) : Except Fault Hsqd :=
  .ok { h with pos := h.pos + 2, bitbuf := w, bitcnt := 16 }

def execIw (w : Half) (s : State) : Answer := onHsqd (iwOp w) s

/-- CopyByte (R147). -/
def litOp (b : Byte) (caps : Caps) (h : Hsqd) : Except Fault Hsqd :=
  .ok (Hsqd.append caps b { h with pos := h.pos + 1, kind := .copyByte })

def execLit (b : Byte) (s : State) : Answer := onHsqd (litOp b) s

/-- Method0 (R148). -/
def m0Op (b1 b2 : Bool) (d : Byte) (caps : Caps) (h : Hsqd) : Except Fault Hsqd :=
  Hsqd.backCopy caps (m0Dist d) (m0Len b1 b2)
    { h with
      pos := h.pos + 1
      kind := .method0
      len := BitVec.ofNat 16 (m0Len b1 b2)
      dist := BitVec.ofInt 16 (m0Dist d) }

def execM0 (b1 b2 : Bool) (d : Byte) (s : State) : Answer := onHsqd (m0Op b1 b2 d) s

/-- Method1 with short length (R149). -/
def m1Op (raw : Half) (caps : Caps) (h : Hsqd) : Except Fault Hsqd :=
  Hsqd.backCopy caps (m1Dist raw) (m1Len raw)
    { h with
      pos := h.pos + 2
      kind := .method1
      raw := raw
      len := BitVec.ofNat 16 (m1Len raw)
      dist := BitVec.ofInt 16 (m1Dist raw) }

def execM1 (raw : Half) (s : State) : Answer := onHsqd (m1Op raw) s

/-- Method1 with extended length (R150). -/
def m1xOp (raw : Half) (e : Byte) (caps : Caps) (h : Hsqd) : Except Fault Hsqd :=
  Hsqd.backCopy caps (m1Dist raw) (m1xLen e)
    { h with
      pos := h.pos + 3
      kind := .method1
      raw := raw
      len := BitVec.ofNat 16 (m1xLen e)
      dist := BitVec.ofInt 16 (m1Dist raw) }

def execM1x (raw : Half) (e : Byte) (s : State) : Answer := onHsqd (m1xOp raw e) s

/-- End marker (R151): nothing is appended, the run ends. That `kind` is End afterwards, the value R36 lists for
it and Decode (R146) never returns, is the model's choice (U32; DESIGN CHOICE, unsafe, log 33). -/
def endOp (raw : Half) (_ : Caps) (h : Hsqd) : Except Fault Hsqd :=
  .ok { h with
        pos := h.pos + 3, kind := .endMarker, raw := raw, stop := .endMarker, st := h.st.finish }

def execEnd (raw : Half) (s : State) : Answer := onHsqd (endOp raw) s

end Sys2Proof.Machine
end

