-- ==== Sys2Proof/Machine/Imgd.lean ====
section
/-! DEFINITION. The meanings of IMGD's instructions (spec/41_image_decoder.md). A part or a row loop is
several instructions: a header opens the part (PART_RAW, PART_RLE), PAIR, REP and LITR decode its rows,
and the control steps of Fetch.lean end rows and parts (log 8). -/

namespace Sys2Proof.Machine

/-- The engine goes on to part `i + 1` (R211, R212). -/
def Imgd.nextPart (m : Imgd) : Imgd := { m with i := m.i + 1, phase := .frame }

/-- A unit error inside part `i` (R211): logged with the part's index and start address, and the partial
pixel array is dropped (R321). -/
def Imgd.partError (caps : Caps) (cause : UnitCause) (m : Imgd) : Imgd :=
  m.unitError caps ⟨.part, m.i, cause, m.pstart⟩ m.s (fun u => ({ u with pixels := [] } : Imgd).nextPart)

/-- Pointer phase (R201). -/
def oasOp (v : Half) (_ : Caps) (m : Imgd) : Except Fault Imgd :=
  let m' : Imgd := { m with oas := v }
  if badOffsetsStart v.toNat m.plen then .ok (m'.fatal .badOffsetsStart 0)
  else .ok { m' with pcur := 2, k := 0, phase := .palette }

def execOas (v : Half) (s : State) : Answer := onImgd (oasOp v) s

/-- The terminator ends the palette loop and is not consumed (R202, R205). -/
def paltermOp (_ : Caps) (m : Imgd) : Except Fault Imgd := .ok { m with phase := .offsets }

def execPalterm (s : State) : Answer := onImgd paltermOp s

/-- One subpalette record (R203): the whole record is consumed before a channel is tested (R204). -/
def palrecOp (loc : Byte) (raws : List Color) (caps : Caps) (m : Imgd) : Except Fault Imgd :=
  let a0 := m.pcur
  let m' : Imgd :=
    { m with loc := loc, cnt := BitVec.ofNat 8 raws.length, pcur := m.pcur + 2 + 3 * raws.length }
  if raws.any channelOut then
    .ok (m'.unitError caps ⟨.subPalette, m.k, .channelRange, a0⟩ m'.pcur
      (fun u => { u with k := u.k + 1 }))
  else if full caps.nSubpalCap m.subpals.length then .ok (m'.fatal .capacityExceeded m'.pcur)
  else
    .ok { m' with
          subpals := m.subpals ++ [{ ord := m.k, loc := loc, colors := raws.map scaleColor }]
          k := m.k + 1 }

def execPalrec (loc : Byte) (raws : List Color) (s : State) : Answer := onImgd (palrecOp loc raws) s

/-- Reading the offsets array (R208) and the consistency check (R209). -/
def offsOp (entries : List Half) (_ : Caps) (m : Imgd) : Except Fault Imgd :=
  let tbs := entries.headD 0
  let n := tbs.toNat / 2
  let abs := (entries.take n).map (fun e => m.oas.toNat + e.toNat)
  let c := m.oas.toNat + 2 * entries.length
  let m' : Imgd := { m with tbs := tbs, n := n, abs := abs, c := c }
  if arrayMismatch abs c then .ok (m'.fatal .arrayMismatch m.oas.toNat)
  else .ok { m' with i := 0, phase := .frame }

def execOffs (entries : List Half) (s : State) : Answer := onImgd (offsOp entries) s

/-- UNKNOWN part (R213, R214). -/
def partUnknownOp (rawBytes : List Byte) (caps : Caps) (m : Imgd) : Except Fault Imgd :=
  let m' : Imgd := { m with cw := 0, s := m.pstart + 2 + rawBytes.length }
  if full caps.nPartCap m.unkparts.length then .ok (m'.fatal .capacityExceeded m'.s)
  else .ok ({ m' with unkparts := m.unkparts ++ [{ index := m.i, rawBytes := rawBytes }] } : Imgd).nextPart

def execPartUnknown (rawBytes : List Byte) (s : State) : Answer := onImgd (partUnknownOp rawBytes) s

/-- The header registers of an image part (R215), both kinds, with the data cursor at the first data byte. -/
def Imgd.setHeader (comp : Bool) (width : BitVec 15) (height poff : Byte) (m : Imgd) : Imgd :=
  { m with
    cw := partWord comp width
    comp := comp
    width := width
    height := height
    poff := poff
    s := m.pstart + 4 }

/-- What R215 does after the header registers: the pixel array of R217 with every entry `None`, and the first
row. An array that passes `PIX_CAP` is not made (R317), so the registers `rows` would write keep their values.
`y` and `x` are 0 even where no row follows (DESIGN CHOICE, log 33). -/
def Imgd.openPart (caps : Caps) (rows : Imgd → Imgd) (m : Imgd) : Imgd :=
  if exceeds caps.pixCap (m.width.toNat * m.height.toNat) then m.fatal .capacityExceeded m.s
  else rows { m with y := 0, x := 0, pixels := List.replicate (m.width.toNat * m.height.toNat) none }

/-- PART_RAW: R215, then the length check of R221 and R222, then the row loop. -/
def partRawOp (width : BitVec 15) (height poff : Byte) (caps : Caps) (m : Imgd) : Except Fault Imgd :=
  .ok ((m.setHeader false width height poff).openPart caps fun m' =>
    let m'' : Imgd := { m' with bpl := bplOf width }
    if m.pend < m.pstart + 4 + height.toNat * bplOf width then m''.partError caps .truncated
    else { m'' with phase := .rows })

def execPartRaw (width : BitVec 15) (height poff : Byte) (s : State) : Answer :=
  onImgd (partRawOp width height poff) s

/-- PART_RLE: R215, then the run loop of R223, the first row's `line_remain` as R224 says. -/
def partRleOp (width : BitVec 15) (height poff : Byte) (caps : Caps) (m : Imgd) : Except Fault Imgd :=
  .ok ((m.setHeader true width height poff).openPart caps fun m' =>
    { m' with lineRemain := lineQuantum width, phase := .runs })

def execPartRle (width : BitVec 15) (height poff : Byte) (s : State) : Answer :=
  onImgd (partRleOp width height poff) s

/-- After each run, `line_remain <- line_remain − 2 · count` (R223). -/
def Imgd.afterRun (count : Nat) (m : Imgd) : Imgd := { m with lineRemain := m.lineRemain - 2 * count }

/-- RLE_REPEAT (R225). -/
def repOp (c : BitVec 7) (v : Byte) (_ : Caps) (m : Imgd) : Except Fault Imgd :=
  .ok ((Imgd.emitPairs (List.replicate (repCount c) v)
    { m with cmd := repCmd c, count := repCount c, v := v, s := m.s + 2 }).afterRun (repCount c))

def execRep (c : BitVec 7) (v : Byte) (s : State) : Answer := onImgd (repOp c v) s

/-- RLE_LITERAL (R226). -/
def litrOp (vs : List Byte) (_ : Caps) (m : Imgd) : Except Fault Imgd :=
  .ok ((Imgd.emitPairs vs
    { m with cmd := litrCmd vs, count := vs.length, v := vs.getLastD m.v, s := m.s + 1 + vs.length }).afterRun
    vs.length)

def execLitr (vs : List Byte) (s : State) : Answer := onImgd (litrOp vs) s

/-- One byte of a packed row (R221): `EmitPair` (R217). R221 takes the byte by its index; the model reads it
through `s` and keeps it in `v` (DESIGN CHOICE, log 33). -/
def pairOp (v : Byte) (_ : Caps) (m : Imgd) : Except Fault Imgd :=
  .ok (Imgd.emitPair v { m with v := v, s := m.s + 1 })

def execPair (v : Byte) (s : State) : Answer := onImgd (pairOp v) s

end Sys2Proof.Machine
end

