-- ==== Sys2Proof/Machine/Palc.lean ====
section
/-! DEFINITION. The palette composer (spec/41_image_decoder.md R232 to R234). -/

namespace Sys2Proof.Machine

/-- One slot of the composed palette (R232). -/
def composeSlot (sp : SubPalette) (dflt : Color) (j : Nat) : Color :=
  if slotRange sp then dflt
  else if sp.loc.toNat ≤ j then sp.colors.getD (j - sp.loc.toNat) dflt
  else dflt

/-- COMPOSE: the 256 slots and `PALERR` (R232, R233). -/
def composed (sp : SubPalette) (dflt : Color) : Palc :=
  { palette := ⟨((List.range 256).map (composeSlot sp dflt)).toArray, by simp⟩
    palerr := slotRange sp }

def execCompose (sp : SubPalette) (dflt : Color) (s : State) : Answer :=
  .next (s.setPalc (composed sp dflt))

end Sys2Proof.Machine
end

