-- ==== Sys2Proof/Machine/Txtp.lean ====
section
/-! DEFINITION. The meanings of TXTP's instructions (spec/42_text_parser.md). One expansion (R271) is
several instructions: TINSTR opens it at the leftmost trigger, each PARAM reads one parameter, and the
control step `closeExpansion` of Fetch.lean puts the placeholder in place (log 8). -/

namespace Sys2Proof.Machine

/-- Reading the index (R261). -/
def tidxOp (entries : List Half) (_ : Caps) (x : Txtp) : Except Fault Txtp :=
  let ibs := entries.headD 0
  let n := ibs.toNat / 2
  .ok { x with
        ibs := ibs, n := n, addr := entries.take n, c := 2 * entries.length, i := 0, phase := .frame }

def execTidx (entries : List Half) (s : State) : Answer := onTxtp (tidxOp entries) s

/-- One decoded character: to `rawText`, moving the payload cursor (R267), or, in the final decode, to
`textWithInstructions` (R280). -/
def Txtp.putChar (ch : Char) (x : Txtp) : Txtp :=
  if x.phase = .final then { x with outText := x.outText ++ [ch] }
  else { x with rawText := x.rawText ++ [ch], c := x.c + 1 }

/-- A character byte: `CharDecode(b)` (R266). -/
def charOp (b : Byte) (_ : Caps) (x : Txtp) : Except Fault Txtp :=
  .ok (x.putChar (charDecode x.charset b))

/-- NL_FE (R266): the newline character. -/
def execNlFe (s : State) : Answer := onTxtp (charOp 0xFE) s

/-- NL_0D (R266): the newline character. -/
def execNl0d (s : State) : Answer := onTxtp (charOp 0x0D) s

/-- CHAR_OVERRIDE (R266): the character `CHARSET[b]`. -/
def execCharOverride (b : Byte) (s : State) : Answer := onTxtp (charOp b) s

/-- CHAR_DIRECT (R266): the character `chr(b)`. -/
def execCharDirect (b : Byte) (s : State) : Answer := onTxtp (charOp b) s

/-- TINSTR: the expansion of R271 opens at the leftmost raw trigger byte (R269, R270). With no such byte
the loop of R269 goes on to the next entry. -/
def tinstrOp (t : Byte) (_ : Caps) (x : Txtp) : Except Fault Txtp :=
  match findByte t x.w with
  | some p => .ok { x with t := t, p := p, q := p + 1, vals := [], prm := 0, phase := .params }
  | none => .ok { x with t := t, entry := x.entry + 1, phase := .scan }

def execTinstr (t : Byte) (s : State) : Answer := onTxtp (tinstrOp t) s

/-- One parameter value read: it joins `vals`, and the loop of R271 goes on. -/
def Txtp.putVal (val : List Item) (x : Txtp) : Txtp := { x with vals := x.vals ++ [val], prm := x.prm + 1 }

/-- PARAM Read8 (R272). -/
def paramRead8Op (v : Byte) (_ : Caps) (x : Txtp) : Except Fault Txtp :=
  .ok (Txtp.putVal (numericValue (v.setWidth 16)) { x with q := x.q + 1 })

def execParamRead8 (v : Byte) (s : State) : Answer := onTxtp (paramRead8Op v) s

/-- PARAM Read16 (R273). -/
def paramRead16Op (v : Half) (_ : Caps) (x : Txtp) : Except Fault Txtp :=
  .ok (Txtp.putVal (numericValue v) { x with q := x.q + 2 })

def execParamRead16 (v : Half) (s : State) : Answer := onTxtp (paramRead16Op v) s

/-- PARAM ReadUntil (R274): the captured items as they are; the terminator is consumed and dropped. -/
def paramReadUntilOp (captured : List Item) (_t : Byte) (_ : Caps) (x : Txtp) : Except Fault Txtp :=
  .ok (Txtp.putVal captured { x with r := x.q + captured.length, q := x.q + captured.length + 1 })

def execParamReadUntil (captured : List Item) (t : Byte) (s : State) : Answer :=
  onTxtp (paramReadUntilOp captured t) s

end Sys2Proof.Machine
end

