-- ==== Sys2Proof/Machine/Dispatch.lean ====
section
/-! DEFINITION. One arm per constructor of Instr, each one direct call of its meaning. -/

namespace Sys2Proof.Machine

def exec (i : Instr) (s : State) : Host.Outcome State Fault Refusal :=
  match i with
  | .hdr h0 h1 h2 h3 h4 h5 => Sys2Proof.Machine.execHdr h0 h1 h2 h3 h4 h5 s
  | .iw w => Sys2Proof.Machine.execIw w s
  | .lit b => Sys2Proof.Machine.execLit b s
  | .m0 b1 b2 d => Sys2Proof.Machine.execM0 b1 b2 d s
  | .m1 raw => Sys2Proof.Machine.execM1 raw s
  | .m1x raw e => Sys2Proof.Machine.execM1x raw e s
  | .endMark raw => Sys2Proof.Machine.execEnd raw s
  | .oas v => Sys2Proof.Machine.execOas v s
  | .palterm => Sys2Proof.Machine.execPalterm s
  | .palrec loc raws => Sys2Proof.Machine.execPalrec loc raws s
  | .offs entries => Sys2Proof.Machine.execOffs entries s
  | .partUnknown rawBytes => Sys2Proof.Machine.execPartUnknown rawBytes s
  | .partRaw width height poff => Sys2Proof.Machine.execPartRaw width height poff s
  | .partRle width height poff => Sys2Proof.Machine.execPartRle width height poff s
  | .rep c v => Sys2Proof.Machine.execRep c v s
  | .litr vs => Sys2Proof.Machine.execLitr vs s
  | .pair v => Sys2Proof.Machine.execPair v s
  | .compose sp dflt => Sys2Proof.Machine.execCompose sp dflt s
  | .tidx entries => Sys2Proof.Machine.execTidx entries s
  | .nlFe => Sys2Proof.Machine.execNlFe s
  | .nl0d => Sys2Proof.Machine.execNl0d s
  | .charOverride b => Sys2Proof.Machine.execCharOverride b s
  | .charDirect b => Sys2Proof.Machine.execCharDirect b s
  | .tinstr t => Sys2Proof.Machine.execTinstr t s
  | .paramRead8 v => Sys2Proof.Machine.execParamRead8 v s
  | .paramRead16 v => Sys2Proof.Machine.execParamRead16 v s
  | .paramReadUntil captured t => Sys2Proof.Machine.execParamReadUntil captured t s
  | .reset => Sys2Proof.Machine.execReset s
  | .launch req => Sys2Proof.Machine.execLaunch req s

end Sys2Proof.Machine
end

