-- ==== Sys2Proof/Machine/Fetch.lean ====
section
/-! DEFINITION. What a RUNNING engine does next: the instruction its decoder reads at its cursor, or a
control step, that is, a line of the loops of the pseudocode that decodes no instruction (log 8). An
overrun of the cursor raises the exception of the context (spec/00_scope.md R12). -/

namespace Sys2Proof.Machine

/-- What comes next in an engine whose state type is `σ`. -/
inductive Fetch (σ : Type) where
  /-- Run the instruction on the state `e`. -/
  | instr (i : Instr) (e : σ)
  /-- No instruction: the engine goes to the state `e`. -/
  | control (e : σ)
  /-- The model has no value to go on with. -/
  | fault (r : Fault)
deriving DecidableEq, Repr

/-- Go on with the bytes of a window, or stop. -/
def Fetch.withBytes {σ : Type} (bytes : Except Fault (List Byte)) (f : List Byte → Fetch σ) : Fetch σ :=
  match bytes with
  | .ok bs => f bs
  | .error r => .fault r

/-! ## HSQD -/

/-- `GetBit` (R145) as often as Decode (R146) asks for a bit and one is left: `n` bits are left in `bb`,
`p` holds the prefix bits consumed so far. -/
def takePrefix : Nat → Half → List Bool → List Bool × Half × Nat
  | 0, bb, p => (p, bb, 0)
  | n + 1, bb, p =>
    if (classify p).isSome then (p, bb, n + 1)
    else takePrefix n (bb >>> 1) (p ++ [bb.getLsbD 0])

/-- What an instruction has written before an operand byte turns out to be missing: `kind` by R144 and, where
R148 to R150 assign them first, `len` and `raw`. -/
def Hsqd.begun : Ctx → List Byte → Hsqd → Hsqd
  | .operands .copyByte, _, h => { h with kind := .copyByte }
  | .operands (.method0 b1 b2), _, h => { h with kind := .method0, len := BitVec.ofNat 16 (m0Len b1 b2) }
  | .operands .method1, l :: u :: _, h => { h with kind := .method1, raw := le16 l u }
  | .operands .method1, _, h => { h with kind := .method1 }
  | _, _, h => h

/-- A read past the end (R311): `k` bytes of the same instruction were read before the failing read. The
instruction is abandoned. -/
def Hsqd.overrun (k : Nat) (h : Hsqd) : Hsqd :=
  { h with pos := h.pos + k, pfx := none }.fatal .unexpectedEnd (h.pos + k)

/-- The end of input at an instruction boundary (R144). -/
def Hsqd.endInput (h : Hsqd) : Hsqd := { h with stop := .endInput, st := h.st.finish }

/-- Decode the bytes at the cursor in a context, for the state `h`. -/
def Hsqd.fetchIn (ctx : Ctx) (h : Hsqd) : Fetch Hsqd :=
  .withBytes (window .ibuf h.ibuf h.pos h.inLen) fun bs =>
    match decode ctx bs with
    | .ok (i, _) => .instr i h
    | .error (.short k) => .control ((h.begun ctx bs).overrun k)
    | .error _ => .control (h.overrun 0)

/-- Decode (R146) with `p` already consumed: consume bits until the prefix is complete, and read the
operands, or read an instruction word because the buffer is empty (R104, R145; log 7). -/
def Hsqd.fetchCode (p : List Bool) (h : Hsqd) : Fetch Hsqd :=
  let (p', bb, n) := takePrefix h.bitcnt h.bitbuf p
  let h' : Hsqd := { h with bitbuf := bb, bitcnt := n }
  match classify p' with
  | some k => ({ h' with pfx := none } : Hsqd).fetchIn (.operands k)
  | none => ({ h' with pfx := some p' } : Hsqd).fetchIn .iw

/-- A step of HSQD (R140): the header step, or a body step (R144). The end of input is tested at an
instruction boundary only. -/
def fetchHsqd (h : Hsqd) : Fetch Hsqd :=
  match h.phase with
  | .header => h.fetchIn .hdr
  | .body =>
    match h.pfx with
    | some p => h.fetchCode p
    | none => if h.pos = h.inLen then .control h.endInput else h.fetchCode []

/-! ## IMGD -/

/-- A read past the end of a table (R312), `k` bytes after its start. The cursor alone records the entries read
before it; `tbs`, `n` and `ABS` stay as they were (U33; DESIGN CHOICE, unsafe, log 31). -/
def Imgd.overrun (start k : Nat) (m : Imgd) : Imgd :=
  { m with c := start + k }.fatal .unexpectedEnd (start + k)

/-- The pointer phase (R201). -/
def Imgd.fetchPointer (m : Imgd) : Fetch Imgd :=
  .withBytes (window .pbufImgd m.pbuf 0 m.plen) fun bs =>
    match decode .oas bs with
    | .ok (i, _) => .instr i m
    | .error _ => .control (m.overrun 0 0)

/-- The palette area ends with no terminator (R205). -/
def Imgd.palEnd (m : Imgd) : Imgd := { m with palNoterm := true, phase := .offsets }

/-- A record longer than the palette area (R206): the loop ends. -/
def Imgd.palOverrun (caps : Caps) (loc cnt : Byte) (m : Imgd) : Imgd :=
  { m with loc := loc, cnt := cnt, pcur := m.pcur + 2 }.unitError caps
    ⟨.subPalette, m.k, .paletteOverrun, m.pcur⟩ (m.pcur + 2) (fun u => { u with phase := .offsets })

/-- One pass of the palette loop (R202): its cursor's limit is `oas`. -/
def Imgd.fetchPalette (caps : Caps) (m : Imgd) : Fetch Imgd :=
  .withBytes (window .pbufImgd m.pbuf m.pcur m.oas.toNat) fun bs =>
    match decode .pal bs, bs with
    | .ok (i, _), _ => .instr i m
    | .error _, loc :: cnt :: _ => .control (m.palOverrun caps loc cnt)
    | .error _, _ => .control m.palEnd

/-- The offsets array (R208). -/
def Imgd.fetchOffsets (m : Imgd) : Fetch Imgd :=
  .withBytes (window .pbufImgd m.pbuf m.oas.toNat m.plen) fun bs =>
    match decode .offs bs with
    | .ok (i, _) => .instr i m
    | .error (.short k) => .control (m.overrun m.oas.toNat k)
    | .error _ => .control (m.overrun m.oas.toNat 0)

/-- The address pair of part `i` (R210) and the first check of R211. The cursor `s` stands at the start of the
range (DESIGN CHOICE, log 33). -/
def Imgd.framePart (caps : Caps) (start stop : Nat) (m : Imgd) : Imgd :=
  let m' : Imgd := { m with pstart := start, pend := stop, s := start }
  if badRange start stop m.plen then m'.partError caps .badRange else { m' with phase := .header }

/-- The part loop (R211, R212): the next part's framing, or the end of the run (R230). -/
def Imgd.fetchFrame (caps : Caps) (m : Imgd) : Fetch Imgd :=
  if m.i < m.n then
    match m.abs[m.i]?, (if m.i + 1 < m.n then m.abs[m.i + 1]? else some m.plen) with
    | some start, some stop => .control (m.framePart caps start stop)
    | some _, none => .fault (.missingEntry .imgd (m.i + 1))
    | none, _ => .fault (.missingEntry .imgd m.i)
  else .control { m with st := m.st.finish }

/-- The part's header (R213, R215): a range too short for it is `Truncated` (R313), and `cw` is written if its
two bytes are there (R213). -/
def Imgd.fetchHeader (caps : Caps) (m : Imgd) : Fetch Imgd :=
  .withBytes (window .pbufImgd m.pbuf m.pstart m.pend) fun bs =>
    match decode .part bs, bs with
    | .ok (i, _), _ => .instr i m
    | .error _, l :: u :: _ => .control (({ m with cw := le16 l u } : Imgd).partError caps .truncated)
    | .error _, _ => .control (m.partError caps .truncated)

/-- A record for the decoded image part (R215), `rawBytes` being all of its data (R216). -/
def Imgd.endPart (caps : Caps) (m : Imgd) : Fetch Imgd :=
  .withBytes (window .pbufImgd m.pbuf (m.pstart + 4) m.pend) fun bs =>
    if full caps.nPartCap m.imgparts.length then .control (m.fatal .capacityExceeded m.s)
    else
      .control
        ({ m with
          imgparts := m.imgparts ++
            [{ index := m.i, isCompressed := m.comp, width := m.width, height := m.height,
               paletteOffset := m.poff, rawBytes := bs, decodedPixels := m.pixels }] } : Imgd).nextPart

/-- The next data item of a row, in the part's own range (R313). Where it is cut short, the cursor `s` has
passed the command and value bytes that were read (R12, R223, R225, R226); the working registers and the pixels
of the cut run are dropped with the part (R321, U32; DESIGN CHOICE, unsafe, log 31). -/
def Imgd.fetchData (caps : Caps) (ctx : Ctx) (m : Imgd) : Fetch Imgd :=
  .withBytes (window .pbufImgd m.pbuf m.s m.pend) fun bs =>
    match decode ctx bs with
    | .ok (i, _) => .instr i m
    | .error (.short k) => .control (({ m with s := m.s + k } : Imgd).partError caps .truncated)
    | .error _ => .control (m.partError caps .truncated)

/-- The row loop of a packed part (R221): `bpl` bytes a row, two columns a byte. `x` is 0 after the last row
too (DESIGN CHOICE, log 33). -/
def Imgd.fetchRows (caps : Caps) (m : Imgd) : Fetch Imgd :=
  if m.y < m.height.toNat then
    if m.x < 2 * m.bpl then m.fetchData caps .pair
    else .control { m with y := m.y + 1, x := 0 }
  else m.endPart caps

/-- The row loop of an RLE part (R223): each row starts with a fresh `line_remain` (R224, R227), and
a fresh one is left after the last row too (DESIGN CHOICE, log 33). -/
def Imgd.fetchRuns (caps : Caps) (m : Imgd) : Fetch Imgd :=
  if m.y < m.height.toNat then
    if 0 < m.lineRemain then m.fetchData caps .rle
    else .control { m with y := m.y + 1, x := 0, lineRemain := lineQuantum m.width }
  else m.endPart caps

/-- A step of IMGD (R200). -/
def fetchImgd (caps : Caps) (m : Imgd) : Fetch Imgd :=
  match m.phase with
  | .pointer => m.fetchPointer
  | .palette => m.fetchPalette caps
  | .offsets => m.fetchOffsets
  | .frame => m.fetchFrame caps
  | .header => m.fetchHeader caps
  | .rows => m.fetchRows caps
  | .runs => m.fetchRuns caps

/-! ## TXTP -/

/-- The engine goes on to sentence `i + 1` (R264). -/
def Txtp.nextSentence (x : Txtp) : Txtp := { x with i := x.i + 1, phase := .frame }

/-- A unit error inside sentence `i` (R264): logged with the sentence's number and start address, and
what was computed for it is dropped (R321). -/
def Txtp.sentenceError (caps : Caps) (cause : UnitCause) (x : Txtp) : Txtp :=
  x.unitError caps ⟨.sentence, x.i, cause, x.sstart⟩ x.c
    (fun u => ({ u with w := [], vals := [], rawText := [], outText := [] } : Txtp).nextSentence)

/-- The index (R261, R263). One that does not fit moves the cursor over the entries read and leaves `ibs`, `n`
and `ADDR` as they were (U33; DESIGN CHOICE, unsafe, log 31). -/
def Txtp.fetchIndex (x : Txtp) : Fetch Txtp :=
  .withBytes (window .pbufTxtp x.pbuf 0 x.plen) fun bs =>
    match decode .tidx bs with
    | .ok (i, _) => .instr i x
    | .error (.short k) => .control ({ x with c := k }.fatal .unexpectedEnd k)
    | .error _ => .control (x.fatal .unexpectedEnd 0)

/-- The range of sentence `i` (R262) and the first check of R264. The cursor `c` stands at the start of the
range, and the texts start empty (DESIGN CHOICE, log 33). -/
def Txtp.frameSentence (caps : Caps) (start stop : Nat) (x : Txtp) : Txtp :=
  let x' : Txtp := { x with sstart := start, send := stop, c := start, rawText := [], outText := [] }
  if badRange start stop x.plen then x'.sentenceError caps .badRange else { x' with phase := .raw }

/-- The sentence loop (R264): sentences 0 to `n − 2`, then the end of the run (R282). -/
def Txtp.fetchFrame (caps : Caps) (x : Txtp) : Fetch Txtp :=
  if x.i + 1 < x.n then
    match x.addr[x.i]?, x.addr[x.i + 1]? with
    | some start, some stop => .control (x.frameSentence caps start.toNat stop.toNat)
    | some _, none => .fault (.missingEntry .txtp (x.i + 1))
    | none, _ => .fault (.missingEntry .txtp x.i)
  else .control { x with st := x.st.finish }

/-- `W = [B(b) for b in S]` (R268), then the loop over `ITAB` starts (R269). -/
def Txtp.startExpansion (caps : Caps) (bytes : List Byte) (x : Txtp) : Txtp :=
  if exceeds caps.textCap bytes.length then x.fatal .capacityExceeded x.c
  else { x with w := bytes.map Item.B, entry := 0, phase := .scan }

/-- The charset decode of the sentence's bytes (R267), byte by byte. -/
def Txtp.fetchRaw (caps : Caps) (x : Txtp) : Fetch Txtp :=
  if x.c < x.send then
    .withBytes (window .pbufTxtp x.pbuf x.c x.send) fun bs =>
      match decode (.char x.charset) bs with
      | .ok (i, _) => .instr i x
      | .error _ => .fault (.unwrittenByte .pbufTxtp x.c)
  else
    .withBytes (window .pbufTxtp x.pbuf x.sstart x.send) fun bs => .control (x.startExpansion caps bs)

/-- The loop of R269: the leftmost raw trigger byte of the entry (R270), the next entry if there is none, with
`t` written in either case, or the final decode after the last entry. -/
def Txtp.fetchScan (x : Txtp) : Fetch Txtp :=
  match x.itab[x.entry]? with
  | none => .control { x with outText := [], phase := .final }
  | some ins =>
    match findByte ins.triggerByte x.w with
    | none => .control { x with t := ins.triggerByte, entry := x.entry + 1 }
    | some p =>
      match decodeItems (.trigger ins.triggerByte) (x.w.drop p) with
      | .ok (i, _) => .instr i x
      | .error _ => .control { x with t := ins.triggerByte, entry := x.entry + 1 }

/-- `W <- W[0:p] ++ ph ++ W[q:|W|]` (R271, R278), and the scan starts again (R270). -/
def Txtp.closeExpansion (caps : Caps) (ins : TextInstruction) (x : Txtp) : Txtp :=
  let w' := x.w.take x.p ++ placeholder ins x.vals ++ x.w.drop x.q
  if exceeds caps.textCap w'.length then x.fatal .capacityExceeded x.c
  else { x with w := w', phase := .scan }

/-- The loop of R271 over the declared parameters; a parameter that cannot be read is `ParamOverrun`
(R281). -/
def Txtp.fetchParams (caps : Caps) (x : Txtp) : Fetch Txtp :=
  match x.itab[x.entry]? with
  | none => .fault (.missingEntry .txtp x.entry)
  | some ins =>
    match ins.params[x.prm]? with
    | none => .control (x.closeExpansion caps ins)
    | some prm =>
      match decodeItems (.param prm.mode) (x.w.drop x.q) with
      | .ok (i, _) => .instr i x
      | .error _ => .control (x.sentenceError caps .paramOverrun)

/-- Storing the sentence (R282). -/
def Txtp.storeSentence (caps : Caps) (x : Txtp) : Txtp :=
  let x' : Txtp := { x with dupStart := x.dupStart || startTaken x.sentences x.sstart }
  if full caps.nSentCap x.sentences.length then x'.fatal .capacityExceeded x.c
  else
    ({ x' with
      sentences := x.sentences ++
        [{ index := x.i, startAddress := x.sstart, endAddress := x.send, rawText := x.rawText,
           textWithInstructions := x.outText }] } : Txtp).nextSentence

/-- The final decode of `W`, item by item: each item gives one character (R280). -/
def Txtp.fetchFinal (caps : Caps) (x : Txtp) : Fetch Txtp :=
  match x.w[x.outText.length]? with
  | none => .control (x.storeSentence caps)
  | some (.C ch) => .control { x with outText := x.outText ++ [ch] }
  | some (.B b) => .instr (decodeChar x.charset b) x

/-- A step of TXTP (R260). -/
def fetchTxtp (caps : Caps) (x : Txtp) : Fetch Txtp :=
  match x.phase with
  | .index => x.fetchIndex
  | .frame => x.fetchFrame caps
  | .raw => x.fetchRaw caps
  | .scan => x.fetchScan
  | .params => x.fetchParams caps
  | .final => x.fetchFinal caps

end Sys2Proof.Machine
end

