-- ==== Sys2Proof/Machine/Agents.lean ====
section
/-! DEFINITION. One move of one agent (spec/00_scope.md R15): a step of an engine, or a move of the host
(spec/70_reset_and_hazards.md R350). -/

namespace Sys2Proof.Machine

/-- Run what an engine fetched: the instruction by `exec`, on the machine with the engine's state put
back by `put`. -/
def Fetch.run {σ : Type} (put : σ → State) : Fetch σ → Answer
  | .instr i e => exec i (put e)
  | .control e => .next (put e)
  | .fault r => .fault r

/-- One step of an engine. An engine that is not RUNNING takes none (R59). -/
def engineStep (e : Engine) (s : State) : Answer :=
  if (statusOf e s).status = .running then
    match e with
    | .hsqd => (fetchHsqd s.hsqd).run s.setHsqd
    | .imgd => (fetchImgd s.caps s.imgd).run s.setImgd
    | .txtp => (fetchTxtp s.caps s.txtp).run s.setTxtp
  else .next s

/-- One move of the host. COMPOSE is invoked on a stored record of a valid store (R232, R353, log 17). -/
def hostStep (m : HostMove) (s : State) : Answer :=
  match m with
  | .reset => exec .reset s
  | .launch req => exec (.launch req) s
  | .compose j dflt =>
    match readSubpal j s with
    | some sp => exec (.compose sp dflt) s
    | none => .refused .resultNotReadable
  | .run e => engineStep e s

/-- The step when the host has no move pending: the RUNNING engine's (log 4). With none, nothing happens
(log 6). -/
def freeStep (s : State) : Answer :=
  match activeEngine s with
  | some e => engineStep e s
  | none => .next s

end Sys2Proof.Machine
end

