-- ==== Sys2Proof/Machine/Step.lean ====
section
/-! DEFINITION. The step: the host's oldest pending move, else a step of an engine. -/

namespace Sys2Proof.Machine

/-- One step of the machine. -/
def step (s : State) : Host.Outcome State Fault Refusal :=
  match s.hostq with
  | m :: q => hostStep m (s.setHostq q)
  | [] => freeStep s

/-! ## Placing one instruction -/

/-- HSQD RUNNING in its body on the stream `bytes`, the cursor at `pos`, `cnt` bits left in `buf`. -/
def hsqdAt (h : Hsqd) (bytes : List Byte) (pos : Nat) (buf : Half) (cnt : Nat) : Hsqd :=
  { h with
    st := .launched, ibuf := Memory.ofBytes 0 bytes, inLen := bytes.length, pos := pos, bitbuf := buf,
    bitcnt := cnt, phase := .body, pfx := none }

/-- IMGD RUNNING in a phase, on a payload whose one part is `bytes`, at address 4. -/
def imgdAt (m : Imgd) (bytes : List Byte) (phase : ImgdPhase) : Imgd :=
  { m with
    st := .launched, pbuf := Memory.ofBytes 0 ([2, 0, 2, 0] ++ bytes), plen := 4 + bytes.length,
    phase := phase, oas := 2, n := 1, abs := [4], i := 0, pstart := 4, pend := 4 + bytes.length, s := 4 }

/-- `s` with the instruction of a table word placed where the very next step fetches it: the engine of
the word's context is RUNNING, its buffer holds the word and its cursor stands at it, and the host lets
that engine step (log 9, log 20). -/
def State.withFetchWord (s : State) (nbits w : Nat) : State :=
  let bytes := tableStream nbits w
  match tableCtx nbits w with
  | some (.operands _) =>
    (s.setHsqd (hsqdAt s.hsqd (tableBytes 8 0 ++ bytes) 8 (BitVec.ofNat 16 w) 16)).setHostq [.run .hsqd]
  | some .iw => (s.setHsqd (hsqdAt s.hsqd (tableBytes 6 0 ++ bytes) 6 0 0)).setHostq [.run .hsqd]
  | some .hdr =>
    (s.setHsqd { hsqdAt s.hsqd bytes 0 0 0 with phase := .header }).setHostq [.run .hsqd]
  | some .pal =>
    (s.setImgd
      { imgdAt s.imgd [] .palette with
        pbuf := Memory.ofBytes 0 (tableBytes 2 (2 + bytes.length) ++ bytes), plen := 2 + bytes.length,
        oas := BitVec.ofNat 16 (2 + bytes.length), pcur := 2 }).setHostq [.run .imgd]
  | some .part => (s.setImgd (imgdAt s.imgd bytes .header)).setHostq [.run .imgd]
  | some .rle =>
    (s.setImgd
      { imgdAt s.imgd bytes .runs with
        comp := true, width := 4, height := 1, y := 0, x := 0, lineRemain := 4,
        pixels := [none, none, none, none] }).setHostq [.run .imgd]
  | some (.char _) =>
    (s.setTxtp
      { s.txtp with
        st := .launched, pbuf := Memory.ofBytes 0 ([4, 0, 5, 0] ++ bytes), plen := 4 + bytes.length,
        charset := [], phase := .raw, ibs := 4, n := 2, addr := [4, 5], i := 0, sstart := 4, send := 5,
        c := 4, rawText := [] }).setHostq [.run .txtp]
  | _ => s

end Sys2Proof.Machine
end

