-- ==== Sys2Proof/Machine/Reference.lean ====
section
/-! DEFINITION. One body step of HSQD as spec/40_hsq_decompressor.md writes it: GetBit (R145), Decode
(R146) and the body step (R144) in one function, read byte by byte with the cursor primitives of
spec/00_scope.md R12. The step of the machine does not use it: it is what the small steps of Fetch.lean
are measured against. -/

namespace Sys2Proof.Machine

/-- A value read, or the state in which the fatal fault has been raised. -/
abbrev Reading (α : Type) := Except Fault (α × Hsqd ⊕ Hsqd)

/-- Go on with a value read, or stay in the raised fault. -/
def Reading.andThen {α : Type} (r : Reading α) (f : α → Hsqd → Except Fault Hsqd) : Except Fault Hsqd :=
  match r with
  | .ok (.inl (a, h)) => f a h
  | .ok (.inr h) => .ok h
  | .error e => .error e

/-- `Rd8()` on the cursor (`IBUF`, `pos`, `IN_LEN`). -/
def Hsqd.rd8 (h : Hsqd) : Reading Byte :=
  if h.inLen < h.pos + 1 then .ok (.inr (h.fatal .unexpectedEnd h.pos))
  else
    match h.ibuf.read h.pos with
    | some b => .ok (.inl (b, { h with pos := h.pos + 1 }))
    | none => .error (.unwrittenByte .ibuf h.pos)

/-- `Rd16()` on that cursor. -/
def Hsqd.rd16 (h : Hsqd) : Reading Half :=
  if h.inLen < h.pos + 2 then .ok (.inr (h.fatal .unexpectedEnd h.pos))
  else
    match h.ibuf.read h.pos, h.ibuf.read (h.pos + 1) with
    | some l, some u => .ok (.inl (le16 l u, { h with pos := h.pos + 2 }))
    | none, _ => .error (.unwrittenByte .ibuf h.pos)
    | some _, none => .error (.unwrittenByte .ibuf (h.pos + 1))

/-- Take the next bit of a buffer that holds one. -/
def Hsqd.shiftBit (h : Hsqd) : Bool × Hsqd :=
  (h.bitbuf.getLsbD 0, { h with bitbuf := h.bitbuf >>> 1, bitcnt := h.bitcnt - 1 })

/-- `GetBit()` (R145). -/
def Hsqd.getBit (h : Hsqd) : Reading Bool :=
  if h.bitcnt = 0 then
    match h.rd16 with
    | .ok (.inl (w, h')) => .ok (.inl ({ h' with bitbuf := w, bitcnt := 16 } : Hsqd).shiftBit)
    | .ok (.inr h') => .ok (.inr h')
    | .error e => .error e
  else .ok (.inl h.shiftBit)

/-- The instruction rules R147 to R151, operands read as they are written there. One register is the model's
choice and no line of those rules: `kind` is End after an end marker, where R144 and R146 give Method1 (R36, U32;
DESIGN CHOICE, unsafe, log 33). -/
def Hsqd.execute (caps : Caps) : PrefixKind → Hsqd → Except Fault Hsqd
  | .copyByte, h => Reading.andThen { h with kind := .copyByte }.rd8 fun b h => .ok (Hsqd.append caps b h)
  | .method0 b1 b2, h =>
      let len := 2 + (if b1 then 2 else 0) + (if b2 then 1 else 0)
      Reading.andThen { h with kind := .method0, len := BitVec.ofNat 16 len }.rd8 fun d h =>
        Hsqd.backCopy caps (d.toNat - 256) len { h with dist := BitVec.ofInt 16 (d.toNat - 256) }
  | .method1, h => Reading.andThen { h with kind := .method1 }.rd16 fun raw h =>
      let dist : Int := (raw.toNat / 8 : Nat) - 8192
      if raw.toNat % 8 ≠ 0 then
        Hsqd.backCopy caps dist (raw.toNat % 8 + 2)
          { h with raw := raw, len := BitVec.ofNat 16 (raw.toNat % 8 + 2), dist := BitVec.ofInt 16 dist }
      else Reading.andThen { h with raw := raw }.rd8 fun (e : Byte) h =>
        if e = 0 then .ok { h with kind := .endMarker, stop := .endMarker, st := h.st.finish }
        else
          Hsqd.backCopy caps dist (e.toNat + 2)
            { h with len := BitVec.ofNat 16 (e.toNat + 2), dist := BitVec.ofInt 16 dist }

/-- The body step (R144) with Decode (R146). -/
def Hsqd.bodyStep (caps : Caps) (h : Hsqd) : Except Fault Hsqd :=
  if h.pos = h.inLen then .ok { h with stop := .endInput, st := h.st.finish }
  else
    Reading.andThen h.getBit fun b h =>
      if b then Hsqd.execute caps .copyByte h
      else
        Reading.andThen h.getBit fun b h =>
          if b then Hsqd.execute caps .method1 h
          else
            Reading.andThen h.getBit fun b1 h =>
              Reading.andThen h.getBit fun b2 h => Hsqd.execute caps (.method0 b1 b2) h

end Sys2Proof.Machine
end

