-- ==== Sys2Proof/Safety.lean ====
section
/-! DEFINITION. The terms the statements use: which engine an instruction belongs to, what a well-kept
state is (the invariant), what a back-reference copy leaves in `OBUF`, and runs of one engine. -/

namespace Sys2Proof.Machine

/-- The engine that executes a stream instruction (the opcode table's "engine"); none for COMPOSE and the
host commands. -/
def engineOf : Instr → Option Engine
  | .hdr _ _ _ _ _ _ => some .hsqd
  | .iw _ => some .hsqd
  | .lit _ => some .hsqd
  | .m0 _ _ _ => some .hsqd
  | .m1 _ => some .hsqd
  | .m1x _ _ => some .hsqd
  | .endMark _ => some .hsqd
  | .oas _ => some .imgd
  | .palterm => some .imgd
  | .palrec _ _ => some .imgd
  | .offs _ => some .imgd
  | .partUnknown _ => some .imgd
  | .partRaw _ _ _ => some .imgd
  | .partRle _ _ _ => some .imgd
  | .rep _ _ => some .imgd
  | .litr _ => some .imgd
  | .pair _ => some .imgd
  | .compose _ _ => none
  | .tidx _ => some .txtp
  | .nlFe => some .txtp
  | .nl0d => some .txtp
  | .charOverride _ => some .txtp
  | .charDirect _ => some .txtp
  | .tinstr _ => some .txtp
  | .paramRead8 _ => some .txtp
  | .paramRead16 _ => some .txtp
  | .paramReadUntil _ _ => some .txtp
  | .reset => none
  | .launch _ => none

/-! ## What an engine reads next -/

/-- What IMGD decodes at its next step, and from which range of `PBUF` (the cursors of R201, R202, R208,
R213, R221, R223); nothing where a loop line comes next. -/
def Imgd.reads (m : Imgd) : Option (Ctx × Nat × Nat) :=
  match m.phase with
  | .pointer => some (.oas, 0, m.plen)
  | .palette => some (.pal, m.pcur, m.oas.toNat)
  | .offsets => some (.offs, m.oas.toNat, m.plen)
  | .frame => none
  | .header => some (.part, m.pstart, m.pend)
  | .rows => if m.y < m.height.toNat ∧ m.x < 2 * m.bpl then some (.pair, m.s, m.pend) else none
  | .runs => if m.y < m.height.toNat ∧ 0 < m.lineRemain then some (.rle, m.s, m.pend) else none

/-- What TXTP decodes at its next step from `PBUF` (R261, R267). -/
def Txtp.reads (x : Txtp) : Option (Ctx × Nat × Nat) :=
  match x.phase with
  | .index => some (.tidx, 0, x.plen)
  | .raw => if x.c < x.send then some (.char x.charset, x.c, x.send) else none
  | _ => none

/-- What TXTP decodes at its next step from the working sequence `W`, and from which index of it (R270,
R271). -/
def Txtp.readsItems (x : Txtp) : Option (ItemCtx × Nat) :=
  match x.phase with
  | .scan =>
    match x.itab[x.entry]? with
    | some ins => (findByte ins.triggerByte x.w).map (fun p => (.trigger ins.triggerByte, p))
    | none => none
  | .params =>
    match x.itab[x.entry]? with
    | some ins => (ins.params[x.prm]?).map (fun prm => (.param prm.mode, x.q))
    | none => none
  | _ => none

/-- The raw bytes left in a working sequence (R279). -/
def rawItems (w : List Item) : Nat :=
  w.countP (fun it => match it with | .B _ => true | .C _ => false)

/-! ## Well-kept states -/

/-- A memory that holds a byte at exactly the addresses `0 .. n − 1`, in rising order. -/
abbrev Memory.exact (m : Memory) (n : Nat) : Prop := m.map Prod.fst = List.range n

/-- A memory that has a byte at every address below `n`. -/
abbrev Memory.filled (m : Memory) (n : Nat) : Prop := ∀ a < n, (m.read a).isSome = true

/-- HSQD: the buffers hold exactly their bytes and respect the capacities (R37, R39), the cursor is in
range (R33), the bit buffer has no bit above `bitcnt` (R34), and a prefix under way is incomplete. -/
abbrev Hsqd.Inv (caps : Caps) (h : Hsqd) : Prop :=
  h.ibuf.exact h.inLen ∧ h.obuf.exact h.olen ∧ h.pos ≤ h.inLen ∧
  exceeds caps.inCap h.inLen = false ∧ exceeds caps.outCap h.olen = false ∧
  h.bitcnt ≤ 16 ∧ h.bitbuf.toNat < 2 ^ h.bitcnt ∧
  h.pfx.all (fun p => (classify p).isNone) = true

/-- Whether IMGD stands inside part `i`. -/
def ImgdPhase.inPart : ImgdPhase → Bool
  | .header => true
  | .rows => true
  | .runs => true
  | _ => false

/-- Whether IMGD stands in the rows of a part. -/
def ImgdPhase.inRows : ImgdPhase → Bool
  | .rows => true
  | .runs => true
  | _ => false

/-- IMGD: `PBUF` holds exactly its bytes (R41); the cursors of each phase are in range (R42, R44); `ABS`
has `n` entries (R43); the pixel array has its size (R217); `line_remain` keeps R224's bounds. -/
abbrev Imgd.Inv (caps : Caps) (m : Imgd) : Prop :=
  m.pbuf.exact m.plen ∧ exceeds caps.pCap m.plen = false ∧
  (m.phase = .palette → 2 ≤ m.pcur ∧ m.pcur ≤ m.oas.toNat) ∧
  (m.phase = .palette ∨ m.phase = .offsets → m.oas.toNat ≤ m.plen) ∧
  (m.phase = .frame ∨ m.phase.inPart = true → m.abs.length = m.n) ∧
  (m.phase.inPart = true → m.i < m.n ∧ m.pstart ≤ m.pend ∧ m.pend ≤ m.plen) ∧
  (m.phase.inRows = true →
    m.pstart + 4 ≤ m.s ∧ m.s ≤ m.pend ∧ m.pixels.length = m.width.toNat * m.height.toNat) ∧
  (m.phase = .runs → m.lineRemain % 2 = 0 ∧ -256 ≤ m.lineRemain ∧ m.lineRemain ≤ 32768)

/-- Whether TXTP stands inside sentence `i`. -/
def TxtpPhase.inSentence : TxtpPhase → Bool
  | .raw => true
  | .scan => true
  | .params => true
  | .final => true
  | _ => false

/-- TXTP: `PBUF` holds exactly its bytes (R52); `ADDR` has `n` entries (R55); the sentence's range is in
the payload (R264) and `rawText` has one character per byte read (R267); an expansion under way stands at its
trigger, its span ends inside `W`, and its values hold no raw byte that the span does not (R271, R279). -/
abbrev Txtp.Inv (caps : Caps) (x : Txtp) : Prop :=
  x.pbuf.exact x.plen ∧ exceeds caps.pCap x.plen = false ∧ exceeds caps.nInstrCap x.itab.length = false ∧
  (x.phase ≠ .index → x.addr.length = x.n) ∧
  (x.phase.inSentence = true →
    x.i + 1 < x.n ∧ x.sstart ≤ x.c ∧ x.c ≤ x.send ∧ x.send ≤ x.plen ∧
    x.rawText.length = x.c - x.sstart) ∧
  (x.phase = .scan ∨ x.phase = .params ∨ x.phase = .final → x.c = x.send) ∧
  (x.phase = .params →
    x.entry < x.itab.length ∧ x.p < x.q ∧ x.q ≤ x.w.length ∧ x.w[x.p]? = some (.B x.t) ∧
    (x.vals.map rawItems).sum ≤ rawItems ((x.w.take x.q).drop (x.p + 1)))

/-- At most one engine of the instance is RUNNING (R15, R328). -/
abbrev State.oneActive (s : State) : Prop :=
  (s.hsqd.st.status = .running → s.imgd.st.status ≠ .running ∧ s.txtp.st.status ≠ .running) ∧
  (s.imgd.st.status = .running → s.txtp.st.status ≠ .running)

/-- A well-kept state. -/
abbrev State.Inv (s : State) : Prop :=
  s.hsqd.Inv s.caps ∧ s.imgd.Inv s.caps ∧ s.txtp.Inv s.caps ∧ s.oneActive

/-! ## What the stores hold -/

/-- A stored channel: "a multiple of 4 in 0 to 252" (R46). -/
abbrev channelStored (v : Byte) : Prop := v.toNat % 4 = 0

/-- A subpalette record as R46 describes it. -/
abbrev subPaletteStored (sp : SubPalette) : Prop :=
  sp.colors.length ≤ 255 ∧
  ∀ c ∈ sp.colors, channelStored c.r ∧ channelStored c.g ∧ channelStored c.b

/-- A decoded pixel: `None`, or a value from 1 to 15 (R47). -/
def pixelStored : Option Byte → Bool
  | none => true
  | some v => decide (1 ≤ v.toNat) && decide (v.toNat ≤ 15)

/-- An image-part record as R47 describes it. -/
abbrev ImagePart.stored (p : ImagePart) : Prop :=
  p.decodedPixels.length = p.width.toNat * p.height.toNat ∧ ∀ v ∈ p.decodedPixels, pixelStored v = true

/-- A sentence record as R56 and R267 describe it: one character of `rawText` per byte of the range. -/
abbrev Sentence.stored (r : Sentence) : Prop :=
  r.startAddress ≤ r.endAddress ∧ r.rawText.length = r.endAddress - r.startAddress

/-- A skip log in order of occurrence: palette entries before part entries, and the entries of one kind in
increasing number (R50, R57, R230). -/
abbrev logOrdered (l : List LogEntry) : Prop :=
  l.Pairwise fun a b => (a.unit = .part → b.unit = .part) ∧ (a.unit = b.unit → a.id < b.id)

/-- The numbers of the parts that are over: stored, or skipped and logged (R212). -/
def Imgd.partIds (m : Imgd) : List Nat :=
  m.imgparts.map ImagePart.index ++ m.unkparts.map UnknownPart.index ++
    (m.skiplog.filter fun e => e.unit = .part).map LogEntry.id

/-- The numbering of IMGD. The stores and the log are in increasing number (R46, R47, R48, R230). In the palette
phase the records stored and those skipped are together exactly those below `k` (R42, R204); in the part phase
the parts stored and those skipped are together exactly those below `i`, each once (R212). -/
abbrev Imgd.numbered (m : Imgd) : Prop :=
  (m.subpals.map SubPalette.ord).Pairwise (· < ·) ∧ (m.imgparts.map ImagePart.index).Pairwise (· < ·) ∧
  (m.unkparts.map UnknownPart.index).Pairwise (· < ·) ∧ logOrdered m.skiplog ∧
  (∀ e ∈ m.skiplog, e.unit ≠ .sentence) ∧
  (m.phase = .pointer → m.subpals = [] ∧ m.skiplog = []) ∧
  (m.phase = .palette → (m.subpals.map SubPalette.ord ++ m.skiplog.map LogEntry.id).Perm (List.range m.k)) ∧
  (m.phase = .pointer ∨ m.phase = .palette ∨ m.phase = .offsets → m.partIds = []) ∧
  (m.phase = .frame ∨ m.phase.inPart = true → m.partIds.Perm (List.range m.i))

/-- The numbering of TXTP: stored and skipped sentences are together exactly those below `i`, each once, and
each list is in increasing number (R56, R57, R283). -/
abbrev Txtp.numbered (x : Txtp) : Prop :=
  (x.sentences.map Sentence.index).Pairwise (· < ·) ∧ logOrdered x.skiplog ∧
  (∀ e ∈ x.skiplog, e.unit = .sentence) ∧
  (x.phase = .index → x.sentences = [] ∧ x.skiplog = []) ∧
  (x.phase ≠ .index →
    (x.sentences.map Sentence.index ++ x.skiplog.map LogEntry.id).Perm (List.range x.i))

/-- Every record of every store is as the spec describes it, and so are the pixels being decoded; and the stores
are numbered as it says. -/
abbrev State.StoresInv (s : State) : Prop :=
  (∀ sp ∈ s.imgd.subpals, subPaletteStored sp) ∧ (∀ p ∈ s.imgd.imgparts, p.stored) ∧
  (∀ v ∈ s.imgd.pixels, pixelStored v = true) ∧ (∀ r ∈ s.txtp.sentences, r.stored) ∧
  s.imgd.numbered ∧ s.txtp.numbered

/-! ## Back-reference copies -/

/-- What a completed `BackCopy(len, −back)` leaves in `OBUF` (R153): byte `j` of the copy equals byte
`j mod back` of the last `back` bytes, and every other byte reads as before. -/
def CopyResult (h : Hsqd) (len back : Nat) (m : Memory) : Prop :=
  (∀ j < len, m.read (h.olen + j) = h.obuf.read (h.olen - back + j % back)) ∧
  (∀ a, a < h.olen ∨ h.olen + len ≤ a → m.read a = h.obuf.read a)

/-! ## Pixels -/

/-- The nibbles of pixel-pair bytes in the order they are emitted, low nibble first (R116, R217). -/
def nibbles (vs : List Byte) : List Byte := (vs.map (fun v => [loNib v, hiNib v])).flatten

/-- What emitting the nibbles `ns` from column `x` of row `y` leaves (R217): a column of that row below
`width` that is reached by a non-zero nibble holds it, every other entry is as before. -/
def EmitResult (m : Imgd) (ns : List Byte) (pixels : List (Option Byte)) : Prop :=
  pixels.length = m.pixels.length ∧
  ∀ j < m.pixels.length, pixels[j]? =
    (if m.y * m.width.toNat + m.x ≤ j ∧ j < m.y * m.width.toNat + m.width.toNat then
      match ns[j - (m.y * m.width.toNat + m.x)]? with
      | some nib => if nib = 0 then m.pixels[j]? else some (some nib)
      | none => m.pixels[j]?
    else m.pixels[j]?)

/-! ## Runs -/

/-- `n` steps of one engine. -/
def runEngine (e : Engine) : Nat → State → Answer
  | 0, s => .next s
  | n + 1, s =>
    match engineStep e s with
    | .next t => runEngine e n t
    | .fault r => .fault r
    | .refused r => .refused r

/-- `n` instruction bits of a buffer, first consumed first. -/
def bufferBits (bb : Half) (n : Nat) : List Bool := (List.range n).map (fun k => bb.getLsbD k)

end Sys2Proof.Machine
end

