-- ==== Sys2Proof/Certificates/Slice0/Obligations.lean ====
section
/-! DEFINITION. The statements for the provers, in the order of OBLIGATIONS.json. Each docstring names the
rule or the sentence of the spec that the statement formalises, and the log entry of every choice of the
model's own that it rests on. Where a statement says `s.hostq = .run e :: q`, the host lets engine `e`
take its next step (log 3); FreeStepPicksRunningEngine says which engine steps when no move is pending. -/

section

open Sys2Proof Sys2Proof.Machine

/-! ## Encodings -/

/-- Decoding undoes encoding, for every well-formed instruction with every operand, in every context that
can hold it (R101, R103, R105 to R108, R110 to R116, R120 to R122). An unknown part takes its whole range
(R113), so nothing follows it. -/
def Obligations.DecodeUndoesEncode : Prop :=
  ∀ i : Instr, i.wf = true →
    (∀ (ctx : Ctx) (rest : List Byte), ctx.admits i = true →
      (∀ raw, i = .partUnknown raw → rest = []) → decode ctx (i.encode ++ rest) = .ok (i, rest)) ∧
    (∀ (ctx : ItemCtx) (rest : List Item), ctx.admits i = true →
      decodeItems ctx (i.encodeItems ++ rest) = .ok (i, rest))

/-- Whatever a decoder answers is a well-formed instruction of its context, and the bytes it consumed are
that instruction's encoding: no byte is dropped, and no byte string means two things in one context. -/
def Obligations.EncodeUndoesDecode : Prop :=
  (∀ (ctx : Ctx) (bs rest : List Byte) (i : Instr), decode ctx bs = .ok (i, rest) →
    i.wf = true ∧ ctx.admits i = true ∧ i.encode ++ rest = bs) ∧
  (∀ (ctx : ItemCtx) (its rest : List Item) (i : Instr), decodeItems ctx its = .ok (i, rest) →
    i.wf = true ∧ ctx.admits i = true ∧ i.encodeItems ++ rest = its)

/-- R105: the table of prefix codes with the operand bytes that follow, and "The code is complete and
prefix-free: every bit sequence selects exactly one row, so no bit pattern is illegal." -/
def Obligations.PrefixCodeIsComplete : Prop :=
  (∀ (bits : List Bool) (k : PrefixKind), classify bits = some k ↔ ∃ more, bits = k.bits ++ more) ∧
  (∀ bits : List Bool, 4 ≤ bits.length → (classify bits).isSome = true) ∧
  (∀ b b1 b2 d raw e, (Instr.lit b).prefixBits = [true] ∧
    (Instr.m0 b1 b2 d).prefixBits = [false, false, b1, b2] ∧ (Instr.m1 raw).prefixBits = [false, true] ∧
    (Instr.m1x raw e).prefixBits = [false, true] ∧ (Instr.endMark raw).prefixBits = [false, true]) ∧
  (∀ (b : Byte) rest, decode (.operands .copyByte) (b :: rest) = .ok (.lit b, rest)) ∧
  (∀ b1 b2 (d : Byte) rest, decode (.operands (.method0 b1 b2)) (d :: rest) = .ok (.m0 b1 b2 d, rest)) ∧
  (∀ (l u : Byte) rest, (le16 l u).toNat % 8 ≠ 0 →
    decode (.operands .method1) (l :: u :: rest) = .ok (.m1 (le16 l u), rest)) ∧
  (∀ (l u e : Byte) rest, (le16 l u).toNat % 8 = 0 → e ≠ 0 →
    decode (.operands .method1) (l :: u :: e :: rest) = .ok (.m1x (le16 l u) e, rest)) ∧
  (∀ (l u : Byte) rest, (le16 l u).toNat % 8 = 0 →
    decode (.operands .method1) (l :: u :: 0 :: rest) = .ok (.endMark (le16 l u), rest))

/-- Words and bytes written out from the spec's examples decode to the instructions they stand for: the
header of R141, the bits of R151's word `0x0005`, the operands of R149, R150 and R151, the part header of
R215, the record of R203, the runs of R225 and R226, the characters of R266 and the parameters of R273 and
R274. -/
def Obligations.SpecExamplesDecode : Prop :=
  decode .hdr [0x08, 0x00, 0x00, 0x08, 0x00, 0x9B] = .ok (.hdr 0x08 0 0 0x08 0 0x9B, []) ∧
  bufferBits 0x0005 3 = [true, false, true] ∧
  decode (.operands .method1) [0xE9, 0xFF] = .ok (.m1 0xFFE9, []) ∧
  decode (.operands .method1) [0xF8, 0xFF, 0x0A] = .ok (.m1x 0xFFF8 0x0A, []) ∧
  decode (.operands .method1) [0x00, 0x00, 0x00, 0xDE, 0xAD] = .ok (.endMark 0, [0xDE, 0xAD]) ∧
  decode (.operands (.method0 false false)) [0xFE] = .ok (.m0 false false 0xFE, []) ∧
  decode .pal [0x10, 0x02, 0x3F, 0x00, 0x01, 0x10, 0x20, 0x30] =
    .ok (.palrec 0x10 [⟨0x3F, 0x00, 0x01⟩, ⟨0x10, 0x20, 0x30⟩], []) ∧
  decode .pal [0xFF, 0xFF] = .ok (.palterm, []) ∧
  decode .part [0x05, 0x80, 0x02, 0x10] = .ok (.partRle 5 2 16, []) ∧
  decode .part [0x00, 0x00, 0xAA, 0xBB] = .ok (.partUnknown [0xAA, 0xBB], []) ∧
  decode .rle [0xFF, 0x34] = .ok (.rep 0x7F 0x34, []) ∧
  decode .rle [0x01, 0x50, 0x06] = .ok (.litr [0x50, 0x06], []) ∧
  decode (.char [(0x82, 'é')]) [0x82] = .ok (.charOverride 0x82, []) ∧
  decode (.char [(0x82, 'é')]) [0x41] = .ok (.charDirect 0x41, []) ∧
  decode (.char [(0x82, 'é')]) [0x0D] = .ok (.nl0d, []) ∧
  decodeItems (.param .read16) [.B 0x34, .B 0x12] = .ok (.paramRead16 4660, []) ∧
  decodeItems (.param (.readUntil 0x08)) [.B 0x48, .B 0x69, .B 0x08] =
    .ok (.paramReadUntil [.B 0x48, .B 0x69] 0x08, [])

/-- R107: the fields of Method0. The length table, and the distance as the sign-extended value of R107,
which equals `d − 256`. -/
def Obligations.Method0Fields : Prop :=
  (∀ (d : Byte) (more : List Bool) (rest : List Byte) (b1 b2 : Bool),
    classify (false :: false :: b1 :: b2 :: more) = some (.method0 b1 b2) ∧
    decode (.operands (.method0 b1 b2)) (d :: rest) = .ok (.m0 b1 b2 d, rest)) ∧
  (∀ b1 b2, m0Len b1 b2 = 2 + (if b1 then 2 else 0) + (if b2 then 1 else 0)) ∧
  m0Len false false = 2 ∧ m0Len false true = 3 ∧ m0Len true false = 4 ∧ m0Len true true = 5 ∧
  (∀ d : Byte, m0Dist d = (0xFF00#16 ||| d.setWidth 16).toInt ∧ m0Dist d = (d.toNat : Int) - 256 ∧
    -256 ≤ m0Dist d ∧ m0Dist d ≤ -1) ∧
  m0Dist 0x00 = -256 ∧ m0Dist 0xFF = -1

/-- R152: the distance of Method1, for every `raw`, which the 16-bit register holds; and both readings of the
document's conditional give it: `raw` unsigned and shifted, and `raw` signed and shifted arithmetically. -/
def Obligations.Method1DistanceFold : Prop :=
  ∀ raw : Half,
    m1Dist raw = ((raw >>> 3).toNat : Int) - 8192 ∧ -8192 ≤ m1Dist raw ∧ m1Dist raw ≤ -1 ∧
    (BitVec.ofInt 16 (m1Dist raw)).toInt = m1Dist raw ∧
    m1Dist raw = (if 0 ≤ ((raw >>> 3).toNat : Int) then ((raw >>> 3).toNat : Int) - 8192
      else ((raw >>> 3).toNat : Int)) ∧
    m1Dist raw = (if 0 ≤ (raw.sshiftRight 3).toInt then (raw.sshiftRight 3).toInt - 8192
      else (raw.sshiftRight 3).toInt)

/-! ## HSQD -/

/-- R102: the checksum relation, the one value of byte 5 that satisfies it, and that changing any single
byte of a valid header makes it invalid. -/
def Obligations.ChecksumRelation : Prop :=
  (∀ h0 h1 h2 h3 h4 h5 : Byte, checksumOk h0 h1 h2 h3 h4 h5 = true ↔
    (h0.toNat + h1.toNat + h2.toNat + h3.toNat + h4.toNat + h5.toNat) % 256 = 0xAB) ∧
  (∀ h0 h1 h2 h3 h4 h5 : Byte, checksumOk h0 h1 h2 h3 h4 h5 = true ↔
    (h5.toNat : Int) = (0xAB - (h0.toNat + h1.toNat + h2.toNat + h3.toNat + h4.toNat : Int)) % 256) ∧
  (∀ h0 h1 h2 h3 h4 h5 v : Byte, checksumOk h0 h1 h2 h3 h4 h5 = true →
    (v ≠ h0 → checksumOk v h1 h2 h3 h4 h5 = false) ∧ (v ≠ h1 → checksumOk h0 v h2 h3 h4 h5 = false) ∧
    (v ≠ h2 → checksumOk h0 h1 v h3 h4 h5 = false) ∧ (v ≠ h3 → checksumOk h0 h1 h2 v h4 h5 = false) ∧
    (v ≠ h4 → checksumOk h0 h1 h2 h3 v h5 = false) ∧ (v ≠ h5 → checksumOk h0 h1 h2 h3 h4 v = false))

/-- R142: with `VERIFY = 1` a header whose sum is not `0xAB` faults BadChecksum with `FAULT_POS` 6, and the
header registers keep their values; every other header passes, and the phase becomes BODY; a short input is
reported as UnexpectedEnd, never as BadChecksum. The register values are those of R101 and R141. -/
def Obligations.HeaderStepChecksSum : Prop :=
  (∀ (h0 h1 h2 h3 h4 h5 : Byte) (s : State),
    (s.hsqd.verify = false ∨
        (h0.toNat + h1.toNat + h2.toNat + h3.toNat + h4.toNat + h5.toNat) % 256 = 0xAB →
      exec (.hdr h0 h1 h2 h3 h4 h5) s = .next (s.setHsqd
        { s.hsqd with
          pos := s.hsqd.pos + 6
          usize := BitVec.ofNat 32 (h0.toNat + 256 * h1.toNat)
          csize := BitVec.ofNat 16 (h3.toNat + 256 * h4.toNat)
          cksum := h5
          phase := .body })) ∧
    (s.hsqd.verify = true →
        (h0.toNat + h1.toNat + h2.toNat + h3.toNat + h4.toNat + h5.toNat) % 256 ≠ 0xAB →
      exec (.hdr h0 h1 h2 h3 h4 h5) s = .next (s.setHsqd
        { s.hsqd with
          pos := s.hsqd.pos + 6
          usize := BitVec.ofNat 32 (h0.toNat + 256 * h1.toNat)
          csize := BitVec.ofNat 16 (h3.toNat + 256 * h4.toNat)
          cksum := h5
          st := ⟨.fault, .badChecksum, 6⟩ }))) ∧
  (∀ (s : State) (q : List HostMove) (bs : List Byte), s.hostq = .run .hsqd :: q →
    s.hsqd.st.status = .running → s.hsqd.phase = .header →
    window .ibuf s.hsqd.ibuf s.hsqd.pos s.hsqd.inLen = .ok bs → bs.length < 6 →
    ∃ t, step s = .next t ∧ t.hsqd.st.status = .fault ∧ t.hsqd.st.cause = .unexpectedEnd)

/-- A step of HSQD in its body runs the decoded instruction (R144, R146): when the prefix bits consumed so
far and the bits left in the buffer begin with an instruction's prefix code, and the bytes at the cursor
with its operand bytes, the step is `exec` of it, with the prefix bits consumed (R145) and the cursor at
the operand bytes. `pfx` is the model's own (log 7). In the header phase the step runs HDR. -/
def Obligations.HsqdStepRunsDecoded : Prop :=
  (∀ (s : State) (q : List HostMove) (i : Instr) (more : List Bool) (rest : List Byte),
    s.hostq = .run .hsqd :: q → s.hsqd.st.status = .running → s.hsqd.phase = .body → i.wf = true →
    (s.hsqd.pfx.getD []).length < i.prefixBits.length →
    s.hsqd.pfx.getD [] ++ bufferBits s.hsqd.bitbuf s.hsqd.bitcnt = i.prefixBits ++ more →
    window .ibuf s.hsqd.ibuf s.hsqd.pos s.hsqd.inLen = .ok (i.encode ++ rest) →
    step s = exec i ((s.setHostq q).setHsqd
      { s.hsqd with
        bitbuf := s.hsqd.bitbuf >>> (i.prefixBits.length - (s.hsqd.pfx.getD []).length)
        bitcnt := more.length
        pfx := none })) ∧
  (∀ (s : State) (q : List HostMove) (h0 h1 h2 h3 h4 h5 : Byte) (rest : List Byte),
    s.hostq = .run .hsqd :: q → s.hsqd.st.status = .running → s.hsqd.phase = .header →
    window .ibuf s.hsqd.ibuf s.hsqd.pos s.hsqd.inLen = .ok (h0 :: h1 :: h2 :: h3 :: h4 :: h5 :: rest) →
    step s = exec (.hdr h0 h1 h2 h3 h4 h5) (s.setHostq q))

/-- The reload of R145 as a step of its own. When the bits left do not complete a prefix code, the step reads the
instruction word at the cursor and nothing else, and `pfx` keeps the bits already consumed: that is the model's
choice (log 7, DESIGN CHOICE), since GetBit of R145 reloads inside the body step; SmallStepsRefineBodyStep
compares the two. That a word is read only when a bit is requested and none is left is the spec's decision D11
(log 23). -/
def Obligations.InstructionWordReload : Prop :=
  (∀ (w : Half) (s : State), exec (.iw w) s = .next (s.setHsqd
    { s.hsqd with pos := s.hsqd.pos + 2, bitbuf := w, bitcnt := 16 })) ∧
  (∀ (s : State) (q : List HostMove) (l u : Byte) (rest : List Byte),
    s.hostq = .run .hsqd :: q → s.hsqd.st.status = .running → s.hsqd.phase = .body →
    classify (s.hsqd.pfx.getD [] ++ bufferBits s.hsqd.bitbuf s.hsqd.bitcnt) = none →
    window .ibuf s.hsqd.ibuf s.hsqd.pos s.hsqd.inLen = .ok (l :: u :: rest) →
    step s = .next ((s.setHostq q).setHsqd
      { s.hsqd with
        pos := s.hsqd.pos + 2
        bitbuf := le16 l u
        bitcnt := 16
        pfx := some (s.hsqd.pfx.getD [] ++ bufferBits s.hsqd.bitbuf s.hsqd.bitcnt) }))

/-- R147 with R155: CopyByte appends its byte, or faults CapacityExceeded when the output buffer is full;
no other byte of `OBUF` changes. -/
def Obligations.CopyByteAppends : Prop :=
  ∀ (b : Byte) (s : State),
    (full s.caps.outCap s.hsqd.olen = false →
      exec (.lit b) s = .next (s.setHsqd
        { s.hsqd with
          pos := s.hsqd.pos + 1, kind := .copyByte, obuf := s.hsqd.obuf.write s.hsqd.olen b,
          olen := s.hsqd.olen + 1 }) ∧
      (s.hsqd.obuf.write s.hsqd.olen b).read s.hsqd.olen = some b ∧
      ∀ a, a ≠ s.hsqd.olen → (s.hsqd.obuf.write s.hsqd.olen b).read a = s.hsqd.obuf.read a) ∧
    (full s.caps.outCap s.hsqd.olen = true →
      exec (.lit b) s = .next (s.setHsqd
        { s.hsqd with
          pos := s.hsqd.pos + 1, kind := .copyByte,
          st := ⟨.fault, .capacityExceeded, s.hsqd.pos + 1⟩ }))

/-- R148, R149 and R150: each back-reference, with enough output to copy from and room for the copy,
appends `len` bytes as R153 says, and leaves every other byte of `OBUF` and every other register as it was.
That the extended length is `e + 2` is the spec's decision D15 (log 23). -/
def Obligations.BackReferencesCopy : Prop :=
  ∀ s : State, s.hsqd.obuf.filled s.hsqd.olen →
    (∀ (b1 b2 : Bool) (d : Byte), 256 - d.toNat ≤ s.hsqd.olen →
      exceeds s.caps.outCap (s.hsqd.olen + (2 + 2 * b1.toNat + b2.toNat)) = false →
      ∃ m, CopyResult s.hsqd (2 + 2 * b1.toNat + b2.toNat) (256 - d.toNat) m ∧
        exec (.m0 b1 b2 d) s = .next (s.setHsqd
          { s.hsqd with
            pos := s.hsqd.pos + 1, kind := .method0,
            len := BitVec.ofNat 16 (2 + 2 * b1.toNat + b2.toNat),
            dist := BitVec.ofInt 16 ((d.toNat : Int) - 256), obuf := m,
            olen := s.hsqd.olen + (2 + 2 * b1.toNat + b2.toNat) })) ∧
    (∀ raw : Half, raw.toNat % 8 ≠ 0 → 8192 - raw.toNat / 8 ≤ s.hsqd.olen →
      exceeds s.caps.outCap (s.hsqd.olen + (raw.toNat % 8 + 2)) = false →
      ∃ m, CopyResult s.hsqd (raw.toNat % 8 + 2) (8192 - raw.toNat / 8) m ∧
        exec (.m1 raw) s = .next (s.setHsqd
          { s.hsqd with
            pos := s.hsqd.pos + 2, kind := .method1, raw := raw,
            len := BitVec.ofNat 16 (raw.toNat % 8 + 2),
            dist := BitVec.ofInt 16 ((raw.toNat / 8 : Nat) - 8192), obuf := m,
            olen := s.hsqd.olen + (raw.toNat % 8 + 2) })) ∧
    (∀ (raw : Half) (e : Byte), raw.toNat % 8 = 0 → e ≠ 0 → 8192 - raw.toNat / 8 ≤ s.hsqd.olen →
      exceeds s.caps.outCap (s.hsqd.olen + (e.toNat + 2)) = false →
      ∃ m, CopyResult s.hsqd (e.toNat + 2) (8192 - raw.toNat / 8) m ∧
        exec (.m1x raw e) s = .next (s.setHsqd
          { s.hsqd with
            pos := s.hsqd.pos + 3, kind := .method1, raw := raw,
            len := BitVec.ofNat 16 (e.toNat + 2),
            dist := BitVec.ofInt 16 ((raw.toNat / 8 : Nat) - 8192), obuf := m,
            olen := s.hsqd.olen + (e.toNat + 2) }))

/-- R154: a back-reference that starts before the output raises BackRefUnderflow at `pos` after its operand
bytes and appends nothing; one that does not never raises it, since the source index only grows. -/
def Obligations.BackReferenceUnderflow : Prop :=
  (∀ (s : State) (b1 b2 : Bool) (d : Byte), s.hsqd.olen < 256 - d.toNat →
    exec (.m0 b1 b2 d) s = .next (s.setHsqd
      { s.hsqd with
        pos := s.hsqd.pos + 1, kind := .method0,
        len := BitVec.ofNat 16 (2 + 2 * b1.toNat + b2.toNat),
        dist := BitVec.ofInt 16 ((d.toNat : Int) - 256),
        st := ⟨.fault, .backRefUnderflow, s.hsqd.pos + 1⟩ })) ∧
  (∀ (s : State) (raw : Half), s.hsqd.olen < 8192 - raw.toNat / 8 →
    exec (.m1 raw) s = .next (s.setHsqd
      { s.hsqd with
        pos := s.hsqd.pos + 2, kind := .method1, raw := raw,
        len := BitVec.ofNat 16 (raw.toNat % 8 + 2),
        dist := BitVec.ofInt 16 ((raw.toNat / 8 : Nat) - 8192),
        st := ⟨.fault, .backRefUnderflow, s.hsqd.pos + 2⟩ })) ∧
  (∀ (s : State) (raw : Half) (e : Byte), s.hsqd.olen < 8192 - raw.toNat / 8 →
    exec (.m1x raw e) s = .next (s.setHsqd
      { s.hsqd with
        pos := s.hsqd.pos + 3, kind := .method1, raw := raw,
        len := BitVec.ofNat 16 (e.toNat + 2),
        dist := BitVec.ofInt 16 ((raw.toNat / 8 : Nat) - 8192),
        st := ⟨.fault, .backRefUnderflow, s.hsqd.pos + 3⟩ })) ∧
  (∀ (caps : Caps) (h : Hsqd) (dist : Int) (len : Nat), h.obuf.filled h.olen → dist < 0 →
    0 ≤ (h.olen : Int) + dist →
    ∃ h', Hsqd.backCopy caps dist len h = .ok h' ∧
      (h'.st = h.st ∨ h'.st = ⟨.fault, .capacityExceeded, h.pos⟩))

/-- R153: the byte-serial loop. Each byte appended is the byte `back = −dist` before it, those just appended
included; equivalently byte `j` is byte `j mod back` of the last `back` bytes. Nothing else changes. A copy
that would start before the output raises BackRefUnderflow instead. -/
def Obligations.SerialCopyIsCyclic : Prop :=
  ∀ (caps : Caps) (h : Hsqd) (len back : Nat), 2 ≤ len → 1 ≤ back → h.obuf.filled h.olen →
    (back ≤ h.olen → exceeds caps.outCap (h.olen + len) = false →
      ∃ m, Hsqd.backCopy caps (-(back : Int)) len h = .ok { h with obuf := m, olen := h.olen + len } ∧
        (∀ j < len, m.read (h.olen + j) = m.read (h.olen + j - back)) ∧
        (∀ j < len, m.read (h.olen + j) = h.obuf.read (h.olen - back + j % back)) ∧
        (∀ a, a < h.olen ∨ h.olen + len ≤ a → m.read a = h.obuf.read a)) ∧
    (h.olen < back → Hsqd.backCopy caps (-(back : Int)) len h =
      .ok { h with st := ⟨.fault, .backRefUnderflow, h.pos⟩ })

/-- R144 and R151: the two ways a run of HSQD ends. The end marker consumes its three operand bytes and
appends nothing, whatever `raw[15:3]` is; the end of input is tested at an instruction boundary, by `pos`
alone. Nothing steps after either. That `kind` is End after an end marker is the model's choice (log 33, DESIGN
CHOICE): R36 lists that value, R146 returns Method1, and U32 leaves the register free. -/
def Obligations.HsqdRunEndsTwoWays : Prop :=
  (∀ (raw : Half) (s : State), exec (.endMark raw) s = .next (s.setHsqd
    { s.hsqd with
      pos := s.hsqd.pos + 3, kind := .endMarker, raw := raw, stop := .endMarker,
      st := ⟨.done, s.hsqd.st.cause, s.hsqd.st.faultPos⟩ })) ∧
  (∀ (s : State) (q : List HostMove), s.hostq = .run .hsqd :: q → s.hsqd.st.status = .running →
    s.hsqd.phase = .body → s.hsqd.pfx = none → s.hsqd.pos = s.hsqd.inLen →
    step s = .next ((s.setHostq q).setHsqd
      { s.hsqd with
        stop := .endInput, st := ⟨.done, s.hsqd.st.cause, s.hsqd.st.faultPos⟩ })) ∧
  (∀ s : State, s.hsqd.st.status = .done → engineStep .hsqd s = .next s)

/-- R311 with R141: a header byte, an instruction word or an operand byte that would lie past `IN_LEN`
raises UnexpectedEnd at the cursor of the failing read, and nothing is appended. The header is
all-or-nothing by the spec's decision D4 (R141). The working registers are as R144 and R148 to R150 have written
them by then. -/
def Obligations.HsqdReadPastEndFaults : Prop :=
  (∀ (s : State) (q : List HostMove) (bs : List Byte), s.hostq = .run .hsqd :: q →
    s.hsqd.st.status = .running → s.hsqd.phase = .header →
    window .ibuf s.hsqd.ibuf s.hsqd.pos s.hsqd.inLen = .ok bs → bs.length < 6 →
    step s = .next ((s.setHostq q).setHsqd
      { s.hsqd with pfx := none, st := ⟨.fault, .unexpectedEnd, s.hsqd.pos⟩ })) ∧
  (∀ (s : State) (q : List HostMove) (bs : List Byte), s.hostq = .run .hsqd :: q →
    s.hsqd.st.status = .running → s.hsqd.phase = .body →
    (s.hsqd.pfx = none → s.hsqd.pos ≠ s.hsqd.inLen) →
    classify (s.hsqd.pfx.getD [] ++ bufferBits s.hsqd.bitbuf s.hsqd.bitcnt) = none →
    window .ibuf s.hsqd.ibuf s.hsqd.pos s.hsqd.inLen = .ok bs → bs.length < 2 →
    step s = .next ((s.setHostq q).setHsqd
      { s.hsqd with
        bitbuf := s.hsqd.bitbuf >>> s.hsqd.bitcnt, bitcnt := 0, pfx := none,
        st := ⟨.fault, .unexpectedEnd, s.hsqd.pos⟩ })) ∧
  (∀ (s : State) (q : List HostMove) (k : PrefixKind) (more : List Bool) (bs : List Byte),
    s.hostq = .run .hsqd :: q → s.hsqd.st.status = .running → s.hsqd.phase = .body →
    (s.hsqd.pfx = none → s.hsqd.pos ≠ s.hsqd.inLen) →
    (s.hsqd.pfx.getD []).length < k.bits.length →
    s.hsqd.pfx.getD [] ++ bufferBits s.hsqd.bitbuf s.hsqd.bitcnt = k.bits ++ more →
    window .ibuf s.hsqd.ibuf s.hsqd.pos s.hsqd.inLen = .ok bs →
    (k = .copyByte → bs = [] → step s = .next ((s.setHostq q).setHsqd
      { s.hsqd with
        bitbuf := s.hsqd.bitbuf >>> (1 - (s.hsqd.pfx.getD []).length), bitcnt := more.length, pfx := none,
        kind := .copyByte, st := ⟨.fault, .unexpectedEnd, s.hsqd.pos⟩ })) ∧
    (∀ b1 b2, k = .method0 b1 b2 → bs = [] → step s = .next ((s.setHostq q).setHsqd
      { s.hsqd with
        bitbuf := s.hsqd.bitbuf >>> (4 - (s.hsqd.pfx.getD []).length), bitcnt := more.length, pfx := none,
        kind := .method0, len := BitVec.ofNat 16 (2 + 2 * b1.toNat + b2.toNat),
        st := ⟨.fault, .unexpectedEnd, s.hsqd.pos⟩ })) ∧
    (k = .method1 → bs.length < 2 → step s = .next ((s.setHostq q).setHsqd
      { s.hsqd with
        bitbuf := s.hsqd.bitbuf >>> (2 - (s.hsqd.pfx.getD []).length), bitcnt := more.length, pfx := none,
        kind := .method1, st := ⟨.fault, .unexpectedEnd, s.hsqd.pos⟩ })) ∧
    (∀ l u, k = .method1 → bs = [l, u] → (le16 l u).toNat % 8 = 0 →
      step s = .next ((s.setHostq q).setHsqd
        { s.hsqd with
          bitbuf := s.hsqd.bitbuf >>> (2 - (s.hsqd.pfx.getD []).length), bitcnt := more.length, pfx := none,
          pos := s.hsqd.pos + 2, kind := .method1, raw := le16 l u,
          st := ⟨.fault, .unexpectedEnd, s.hsqd.pos + 2⟩ })))

/-- The small steps of the model do exactly what one body step of R144 does with GetBit (R145) and Decode
(R146) as they are written there (Machine/Reference.lean): from an instruction boundary, one or two steps of
HSQD reach the very state the body step gives (log 7). One register of that state is the model's choice on both
sides, and no line of the spec's body step: `kind` is End after an end marker (log 33, DESIGN CHOICE), where R144
and R146 give Method1 and U32 leaves it free. -/
def Obligations.SmallStepsRefineBodyStep : Prop :=
  ∀ s : State, s.Inv → s.hsqd.st.status = .running → s.hsqd.phase = .body → s.hsqd.pfx = none →
    ∃ (h : Hsqd) (n : Nat), Hsqd.bodyStep s.caps s.hsqd = .ok h ∧ 1 ≤ n ∧ n ≤ 2 ∧
      runEngine .hsqd n s = .next (s.setHsqd h)

/-- R360: every run of HSQD ends, in DONE or in FAULT, after at most one step more than there are bytes
left. -/
def Obligations.HsqdRunEnds : Prop :=
  ∀ s : State, s.Inv → s.hsqd.st.status = .running →
    ∃ (n : Nat) (t : State), n ≤ s.hsqd.inLen - s.hsqd.pos + 1 ∧ runEngine .hsqd n s = .next t ∧
      (t.hsqd.st.status = .done ∨ t.hsqd.st.status = .fault)

/-! ## IMGD -/

/-- A step of IMGD that reads an instruction runs it: when the bytes of the range its phase reads (R201,
R202, R208, R213, R221, R223) begin with the encoding of a well-formed instruction the phase can hold, the
step is `exec` of it. An unknown part takes its whole range. The phases are the model's own (log 8). -/
def Obligations.ImgdStepRunsDecoded : Prop :=
  ∀ (s : State) (q : List HostMove) (i : Instr) (ctx : Ctx) (a lim : Nat) (rest : List Byte),
    s.hostq = .run .imgd :: q → s.imgd.st.status = .running → s.imgd.reads = some (ctx, a, lim) →
    ctx.admits i = true → i.wf = true → (∀ raw, i = .partUnknown raw → rest = []) →
    window .pbufImgd s.imgd.pbuf a lim = .ok (i.encode ++ rest) → step s = exec i (s.setHostq q)

/-- R201, R208 and R209: the two tables the decode hangs on, and their fatal faults. The faults of R201 are
the spec's decision D18; R209's condition is what R209 derives, `tbs` even and at least 2. That a table cut
short leaves its other registers as they were is the model's choice (log 31, DESIGN CHOICE). -/
def Obligations.ImageTablesAreChecked : Prop :=
  (∀ (v : Half) (s : State),
    (2 ≤ v.toNat ∧ v.toNat ≤ s.imgd.plen → exec (.oas v) s = .next (s.setImgd
      { s.imgd with oas := v, pcur := 2, k := 0, phase := .palette })) ∧
    (v.toNat < 2 ∨ s.imgd.plen < v.toNat → exec (.oas v) s = .next (s.setImgd
      { s.imgd with oas := v, st := ⟨.fault, .badOffsetsStart, 0⟩ }))) ∧
  (∀ (e0 : Half) (es : List Half) (s : State), es.length + 1 = max (e0.toNat / 2) 1 →
    (e0.toNat % 2 = 0 ∧ 2 ≤ e0.toNat → exec (.offs (e0 :: es)) s = .next (s.setImgd
      { s.imgd with
        tbs := e0, n := e0.toNat / 2, abs := (e0 :: es).map (fun e => s.imgd.oas.toNat + e.toNat),
        c := s.imgd.oas.toNat + 2 * (e0.toNat / 2), i := 0, phase := .frame })) ∧
    (e0.toNat % 2 = 1 ∨ e0.toNat < 2 → ∃ m, exec (.offs (e0 :: es)) s = .next (s.setImgd m) ∧
      m.st = ⟨.fault, .arrayMismatch, s.imgd.oas.toNat⟩ ∧ m.phase = s.imgd.phase)) ∧
  (∀ (s : State) (q : List HostMove) (bs : List Byte), s.hostq = .run .imgd :: q →
    s.imgd.st.status = .running →
    (s.imgd.phase = .pointer → window .pbufImgd s.imgd.pbuf 0 s.imgd.plen = .ok bs → bs.length < 2 →
      step s = .next ((s.setHostq q).setImgd
        { s.imgd with c := 0, st := ⟨.fault, .unexpectedEnd, 0⟩ })) ∧
    (s.imgd.phase = .offsets → window .pbufImgd s.imgd.pbuf s.imgd.oas.toNat s.imgd.plen = .ok bs →
      bs.length < 2 ∨
        bs.length < 2 * (((bs.getD 0 0).toNat + 256 * (bs.getD 1 0).toNat) / 2) →
      step s = .next ((s.setHostq q).setImgd
        { s.imgd with
          c := s.imgd.oas.toNat + 2 * (bs.length / 2),
          st := ⟨.fault, .unexpectedEnd, s.imgd.oas.toNat + 2 * (bs.length / 2)⟩ })))

/-- R202 to R206: one record of the palette loop and the three ways the loop ends. A record whose channels
are all below 64 is stored with each channel times 4; one with a channel of 64 or more is logged and the
loop goes on with the next record (the spec's decision D21); a record longer than the area is logged and
ends the loop (D20). The order red, green, blue is D19 (log 23). A full `SUBPALS` raises CapacityExceeded
(R317); that the cursor position it records is `pcur` after the record is the model's reading of R317 (log 13,
DEDUCED). -/
def Obligations.PaletteLoop : Prop :=
  (∀ (loc : Byte) (raws : List Color) (s : State),
    ((∀ c ∈ raws, c.r.toNat < 64 ∧ c.g.toNat < 64 ∧ c.b.toNat < 64) →
      (full s.caps.nSubpalCap s.imgd.subpals.length = false →
        exec (.palrec loc raws) s = .next (s.setImgd
          { s.imgd with
            loc := loc, cnt := BitVec.ofNat 8 raws.length, pcur := s.imgd.pcur + 2 + 3 * raws.length,
            subpals := s.imgd.subpals ++
              [⟨s.imgd.k, loc, raws.map (fun c => ⟨BitVec.ofNat 8 (4 * c.r.toNat),
                BitVec.ofNat 8 (4 * c.g.toNat), BitVec.ofNat 8 (4 * c.b.toNat)⟩)⟩],
            k := s.imgd.k + 1 })) ∧
      (full s.caps.nSubpalCap s.imgd.subpals.length = true →
        exec (.palrec loc raws) s = .next (s.setImgd
          { s.imgd with
            loc := loc, cnt := BitVec.ofNat 8 raws.length, pcur := s.imgd.pcur + 2 + 3 * raws.length,
            st := ⟨.fault, .capacityExceeded, s.imgd.pcur + 2 + 3 * raws.length⟩ }))) ∧
    ((∃ c ∈ raws, 64 ≤ c.r.toNat ∨ 64 ≤ c.g.toNat ∨ 64 ≤ c.b.toNat) →
      full s.caps.logCap s.imgd.skiplog.length = false →
      exec (.palrec loc raws) s = .next (s.setImgd
        { s.imgd with
          loc := loc, cnt := BitVec.ofNat 8 raws.length, pcur := s.imgd.pcur + 2 + 3 * raws.length,
          skiplog := s.imgd.skiplog ++ [⟨.subPalette, s.imgd.k, .channelRange, s.imgd.pcur⟩],
          k := s.imgd.k + 1 }))) ∧
  (∀ s : State, exec .palterm s = .next (s.setImgd { s.imgd with phase := .offsets })) ∧
  (∀ (s : State) (q : List HostMove), s.hostq = .run .imgd :: q → s.imgd.st.status = .running →
    s.imgd.phase = .palette →
    (∀ bs, window .pbufImgd s.imgd.pbuf s.imgd.pcur s.imgd.oas.toNat = .ok bs → bs.length < 2 →
      step s = .next ((s.setHostq q).setImgd { s.imgd with palNoterm := true, phase := .offsets })) ∧
    (∀ (loc cnt : Byte) (rest : List Byte),
      window .pbufImgd s.imgd.pbuf s.imgd.pcur s.imgd.oas.toNat = .ok (loc :: cnt :: rest) →
      ¬ (loc = 0xFF ∧ cnt = 0xFF) → rest.length < 3 * cnt.toNat →
      full s.caps.logCap s.imgd.skiplog.length = false →
      step s = .next ((s.setHostq q).setImgd
        { s.imgd with
          loc := loc, cnt := cnt, pcur := s.imgd.pcur + 2,
          skiplog := s.imgd.skiplog ++ [⟨.subPalette, s.imgd.k, .paletteOverrun, s.imgd.pcur⟩],
          phase := .offsets })))

/-- R210 to R212 and R230: the address pair of part `i`, its first check, and the end of the run after the
last part. That the cursor `s` is put at the start of the range, and that `i` is left past the last part, is the
model's choice (log 33, DESIGN CHOICE). -/
def Obligations.PartFraming : Prop :=
  ∀ (s : State) (q : List HostMove), s.hostq = .run .imgd :: q → s.imgd.st.status = .running →
    s.imgd.phase = .frame →
    (∀ start stop : Nat, s.imgd.i < s.imgd.n → s.imgd.abs[s.imgd.i]? = some start →
      (s.imgd.i + 1 < s.imgd.n ∧ s.imgd.abs[s.imgd.i + 1]? = some stop ∨
        s.imgd.n = s.imgd.i + 1 ∧ stop = s.imgd.plen) →
      (start ≤ stop ∧ stop ≤ s.imgd.plen →
        step s = .next ((s.setHostq q).setImgd
          { s.imgd with pstart := start, pend := stop, s := start, phase := .header })) ∧
      (stop < start ∨ s.imgd.plen < stop → full s.caps.logCap s.imgd.skiplog.length = false →
        step s = .next ((s.setHostq q).setImgd
          { s.imgd with
            pstart := start, pend := stop, s := start,
            skiplog := s.imgd.skiplog ++ [⟨.part, s.imgd.i, .badRange, start⟩], pixels := [],
            i := s.imgd.i + 1 }))) ∧
    (s.imgd.n ≤ s.imgd.i →
      step s = .next ((s.setHostq q).setImgd
        { s.imgd with st := ⟨.done, s.imgd.st.cause, s.imgd.st.faultPos⟩ }))

/-- R213: the dispatch on `cw`: a range of fewer than 2 bytes is Truncated, `cw = 0` is an UNKNOWN part, any
other `cw` an IMAGE part (R215 splits it by bit 15, and needs 4 bytes). -/
def Obligations.PartHeaderDispatch : Prop :=
  ∀ (s : State) (q : List HostMove) (bs : List Byte), s.hostq = .run .imgd :: q →
    s.imgd.st.status = .running → s.imgd.phase = .header →
    window .pbufImgd s.imgd.pbuf s.imgd.pstart s.imgd.pend = .ok bs →
    (bs.length < 2 → full s.caps.logCap s.imgd.skiplog.length = false →
      step s = .next ((s.setHostq q).setImgd
        { s.imgd with
          skiplog := s.imgd.skiplog ++ [⟨.part, s.imgd.i, .truncated, s.imgd.pstart⟩], pixels := [],
          i := s.imgd.i + 1, phase := .frame })) ∧
    (∀ rest, bs = 0 :: 0 :: rest → step s = exec (.partUnknown rest) (s.setHostq q)) ∧
    (∀ (l u h p : Byte) (d : List Byte), bs = l :: u :: h :: p :: d → (l ≠ 0 ∨ u ≠ 0) →
      step s =
        exec (if 0x7FFF < l.toNat + 256 * u.toNat
          then .partRle (BitVec.ofNat 15 (l.toNat + 256 * u.toNat)) h p
          else .partRaw (BitVec.ofNat 15 (l.toNat + 256 * u.toNat)) h p) (s.setHostq q)) ∧
    (∀ (l u : Byte) (d : List Byte), bs = l :: u :: d → (l ≠ 0 ∨ u ≠ 0) → d.length < 2 →
      full s.caps.logCap s.imgd.skiplog.length = false →
      step s = .next ((s.setHostq q).setImgd
        { s.imgd with
          cw := BitVec.ofNat 16 (l.toNat + 256 * u.toNat),
          skiplog := s.imgd.skiplog ++ [⟨.part, s.imgd.i, .truncated, s.imgd.pstart⟩], pixels := [],
          i := s.imgd.i + 1, phase := .frame }))

/-- R214: an UNKNOWN part is stored with every byte of its range after the zero field, opaque, and the
engine goes on to the next part (R211). The hypothesis is R317's: the store has room. That the cursor `s` is put at
the end of the range is the model's choice (log 33, DESIGN CHOICE): R214 takes the range by index. -/
def Obligations.UnknownPartStored : Prop :=
  (∀ (raw : List Byte) (s : State), full s.caps.nPartCap s.imgd.unkparts.length = false →
    exec (.partUnknown raw) s = .next (s.setImgd
      { s.imgd with
        cw := 0, s := s.imgd.pstart + 2 + raw.length,
        unkparts := s.imgd.unkparts ++ [⟨s.imgd.i, raw⟩], i := s.imgd.i + 1, phase := .frame })) ∧
  (∀ (s : State) (q : List HostMove) (raw : List Byte), s.hostq = .run .imgd :: q →
    s.imgd.st.status = .running → s.imgd.phase = .header →
    window .pbufImgd s.imgd.pbuf s.imgd.pstart s.imgd.pend = .ok (0 :: 0 :: raw) →
    full s.caps.nPartCap s.imgd.unkparts.length = false →
    ∃ t, step s = .next t ∧ t.imgd.unkparts = s.imgd.unkparts ++ [⟨s.imgd.i, raw⟩] ∧
      t.imgd.skiplog = s.imgd.skiplog ∧ t.imgd.imgparts = s.imgd.imgparts)

/-- R215, R220, R221 and R223: what the header of an image part sets up, for both kinds, and its two
exceptions. `bpl` is the spec's decision D26 (log 23); the row loops come after (log 8). A pixel array larger
than `PIX_CAP` raises CapacityExceeded (R215, R317); that the cursor position it records is `pstart + 4` is the
model's reading of R317 (log 13, DEDUCED). That the header sets `s`, `y`, `x` and `line_remain` for the first row
also where no row follows is the model's choice (log 33, DESIGN CHOICE). -/
def Obligations.ImagePartOpens : Prop :=
  ∀ (width : BitVec 15) (height poff : Byte) (s : State),
    (exceeds s.caps.pixCap (width.toNat * height.toNat) = false →
      (s.imgd.pstart + 4 + height.toNat * (2 * ((width.toNat + 3) / 4)) ≤ s.imgd.pend →
        exec (.partRaw width height poff) s = .next (s.setImgd
          { s.imgd with
            cw := BitVec.ofNat 16 width.toNat, comp := false, width := width, height := height,
            poff := poff, s := s.imgd.pstart + 4, y := 0, x := 0, bpl := 2 * ((width.toNat + 3) / 4),
            pixels := List.replicate (width.toNat * height.toNat) none, phase := .rows })) ∧
      (s.imgd.pend < s.imgd.pstart + 4 + height.toNat * (2 * ((width.toNat + 3) / 4)) →
        full s.caps.logCap s.imgd.skiplog.length = false →
        exec (.partRaw width height poff) s = .next (s.setImgd
          { s.imgd with
            cw := BitVec.ofNat 16 width.toNat, comp := false, width := width, height := height,
            poff := poff, s := s.imgd.pstart + 4, y := 0, x := 0, bpl := 2 * ((width.toNat + 3) / 4),
            skiplog := s.imgd.skiplog ++ [⟨.part, s.imgd.i, .truncated, s.imgd.pstart⟩], pixels := [],
            i := s.imgd.i + 1, phase := .frame })) ∧
      exec (.partRle width height poff) s = .next (s.setImgd
        { s.imgd with
          cw := BitVec.ofNat 16 (0x8000 + width.toNat), comp := true, width := width, height := height,
          poff := poff, s := s.imgd.pstart + 4, y := 0, x := 0,
          lineRemain := 4 * ((width.toNat + 3) / 4 : Nat),
          pixels := List.replicate (width.toNat * height.toNat) none, phase := .runs })) ∧
    (exceeds s.caps.pixCap (width.toNat * height.toNat) = true →
      exec (.partRaw width height poff) s = .next (s.setImgd
        { s.imgd with
          cw := BitVec.ofNat 16 width.toNat, comp := false, width := width, height := height,
          poff := poff, s := s.imgd.pstart + 4, st := ⟨.fault, .capacityExceeded, s.imgd.pstart + 4⟩ }) ∧
      exec (.partRle width height poff) s = .next (s.setImgd
        { s.imgd with
          cw := BitVec.ofNat 16 (0x8000 + width.toNat), comp := true, width := width, height := height,
          poff := poff, s := s.imgd.pstart + 4, st := ⟨.fault, .capacityExceeded, s.imgd.pstart + 4⟩ }))

/-- R217, R221, R225 and R226: a run or a byte of a packed row emits its nibbles, low nibble first, from the
current column of the current row; a zero nibble and a column at or past `width` write nothing; every other
pixel and every other register is as before. Dropping a column past `width` is the spec's decision D27
(log 23). That a byte of a packed row is read through `s` and kept in `v` is the model's choice (log 33, DESIGN
CHOICE): R221 takes it by its index. -/
def Obligations.PixelRunsEmit : Prop :=
  (∀ (c : BitVec 7) (v : Byte) (s : State),
    ∃ px, EmitResult s.imgd (nibbles (List.replicate (129 - c.toNat) v)) px ∧
      exec (.rep c v) s = .next (s.setImgd
        { s.imgd with
          cmd := BitVec.ofNat 8 (128 + c.toNat), count := 129 - c.toNat, v := v, s := s.imgd.s + 2,
          x := s.imgd.x + 2 * (129 - c.toNat), pixels := px,
          lineRemain := s.imgd.lineRemain - 2 * (129 - c.toNat : Nat) })) ∧
  (∀ (v0 : Byte) (vs : List Byte) (s : State), vs.length ≤ 127 →
    ∃ px, EmitResult s.imgd (nibbles (v0 :: vs)) px ∧
      exec (.litr (v0 :: vs)) s = .next (s.setImgd
        { s.imgd with
          cmd := BitVec.ofNat 8 vs.length, count := vs.length + 1, v := (v0 :: vs).getLastD 0,
          s := s.imgd.s + 2 + vs.length, x := s.imgd.x + 2 * (vs.length + 1), pixels := px,
          lineRemain := s.imgd.lineRemain - 2 * (vs.length + 1 : Nat) })) ∧
  (∀ (v : Byte) (s : State),
    ∃ px, EmitResult s.imgd (nibbles [v]) px ∧
      exec (.pair v) s = .next (s.setImgd
        { s.imgd with v := v, s := s.imgd.s + 1, x := s.imgd.x + 2, pixels := px }))

/-- R116: `v[3:0]` is the first (left) pixel and `v[7:4]` the second; a nibble 0 is transparent (the entry
stays as it was), a nibble 1 to 15 is a pixel value. -/
def Obligations.PixelPairNibbles : Prop :=
  ∀ v : Byte, (nibbles [v]).map BitVec.toNat = [v.toNat % 16, v.toNat / 16] ∧
    ∀ s : State, s.imgd.x + 1 < s.imgd.width.toNat →
      s.imgd.y * s.imgd.width.toNat + s.imgd.x + 1 < s.imgd.pixels.length →
      ∃ m, exec (.pair v) s = .next (s.setImgd m) ∧
        m.pixels[s.imgd.y * s.imgd.width.toNat + s.imgd.x]? =
          (if v.toNat % 16 = 0 then s.imgd.pixels[s.imgd.y * s.imgd.width.toNat + s.imgd.x]?
          else some (some (BitVec.ofNat 8 (v.toNat % 16)))) ∧
        m.pixels[s.imgd.y * s.imgd.width.toNat + s.imgd.x + 1]? =
          (if v.toNat / 16 = 0 then s.imgd.pixels[s.imgd.y * s.imgd.width.toNat + s.imgd.x + 1]?
          else some (some (BitVec.ofNat 8 (v.toNat / 16))))

/-- R224: `line_remain` starts each row at `4 · ceil(width / 4)`, a run of `count` pairs lowers it by
`2 · count`, it is always even and at most 32768, and after the last run of a row it is at least −256. That the
end of the last row, too, leaves `x` and `line_remain` as a row starts, and that the header gives `line_remain`
also where the height is 0, is the model's choice (log 33, DESIGN CHOICE). -/
def Obligations.LineRemainRule : Prop :=
  (∀ width : BitVec 15, lineQuantum width = 4 * ((width.toNat + 3) / 4) ∧ lineQuantum width % 2 = 0 ∧
    width.toNat ≤ lineQuantum width ∧ lineQuantum width ≤ 32768) ∧
  (∀ (width : BitVec 15) (height poff : Byte) (s : State),
    exceeds s.caps.pixCap (width.toNat * height.toNat) = false →
    ∃ m, exec (.partRle width height poff) s = .next (s.setImgd m) ∧ m.lineRemain = lineQuantum width) ∧
  (∀ (s : State) (q : List HostMove), s.hostq = .run .imgd :: q → s.imgd.st.status = .running →
    s.imgd.phase = .runs → s.imgd.y < s.imgd.height.toNat → s.imgd.lineRemain ≤ 0 →
    step s = .next ((s.setHostq q).setImgd
      { s.imgd with y := s.imgd.y + 1, x := 0, lineRemain := lineQuantum s.imgd.width })) ∧
  (∀ (i : Instr) (count : Nat) (s : State), i.wf = true →
    (∃ c v, i = .rep c v ∧ count = 129 - c.toNat) ∨ (∃ vs, i = .litr vs ∧ count = vs.length) →
    ∃ m, exec i s = .next (s.setImgd m) ∧ m.lineRemain = s.imgd.lineRemain - 2 * count ∧
      (0 < s.imgd.lineRemain → s.imgd.lineRemain % 2 = 0 → s.imgd.lineRemain ≤ 32768 →
        m.lineRemain % 2 = 0 ∧ -256 ≤ m.lineRemain ∧ m.lineRemain ≤ 32768))

/-- R221, R223, R215, R216, R228 and R313: a packed row ends after its `bpl` bytes; after the last row the
record is stored with all of the part's data bytes; data missing inside a row drops the part as Truncated
(the spec's decision D22 for the limit), with the cursor `s` past every data byte that was read (R12, R225,
R226), so at the part's end; with a full skip log that is what `FAULT_POS` records (R317, log 13). A full
`IMGPARTS` raises CapacityExceeded (R317): that it records `s`, and that `N_PART_CAP` bounds `IMGPARTS` by
itself, are the model's reading (log 13 and log 14, DEDUCED). That a cut run leaves `cmd`, `count`, `v`, `x` and
`line_remain` as they were is the model's choice (log 31, DESIGN CHOICE), and so is `x = 0` after the last row
(log 33, DESIGN CHOICE). -/
def Obligations.RowLoopsEnd : Prop :=
  ∀ (s : State) (q : List HostMove), s.hostq = .run .imgd :: q → s.imgd.st.status = .running →
    (s.imgd.phase = .rows → s.imgd.y < s.imgd.height.toNat → 2 * s.imgd.bpl ≤ s.imgd.x →
      step s = .next ((s.setHostq q).setImgd { s.imgd with y := s.imgd.y + 1, x := 0 })) ∧
    (∀ d, s.imgd.phase = .rows ∨ s.imgd.phase = .runs → s.imgd.height.toNat ≤ s.imgd.y →
      window .pbufImgd s.imgd.pbuf (s.imgd.pstart + 4) s.imgd.pend = .ok d →
      (full s.caps.nPartCap s.imgd.imgparts.length = false →
        step s = .next ((s.setHostq q).setImgd
          { s.imgd with
            imgparts := s.imgd.imgparts ++
              [{ index := s.imgd.i, isCompressed := s.imgd.comp, width := s.imgd.width,
                 height := s.imgd.height, paletteOffset := s.imgd.poff, rawBytes := d,
                 decodedPixels := s.imgd.pixels }],
            i := s.imgd.i + 1, phase := .frame })) ∧
      (full s.caps.nPartCap s.imgd.imgparts.length = true →
        step s = .next ((s.setHostq q).setImgd
          { s.imgd with st := ⟨.fault, .capacityExceeded, s.imgd.s⟩ }))) ∧
    (∀ (d : List Byte) (ctx : Ctx), s.imgd.reads = some (ctx, s.imgd.s, s.imgd.pend) →
      s.imgd.phase = .rows ∨ s.imgd.phase = .runs →
      window .pbufImgd s.imgd.pbuf s.imgd.s s.imgd.pend = .ok d →
      (d = [] ∨ ctx = .rle ∧ ∃ cmd rest, d = cmd :: rest ∧
        rest.length < (if cmd.toNat < 128 then cmd.toNat + 1 else 1)) →
      (full s.caps.logCap s.imgd.skiplog.length = false →
        step s = .next ((s.setHostq q).setImgd
          { s.imgd with
            s := s.imgd.s + d.length,
            skiplog := s.imgd.skiplog ++ [⟨.part, s.imgd.i, .truncated, s.imgd.pstart⟩], pixels := [],
            i := s.imgd.i + 1, phase := .frame })) ∧
      (full s.caps.logCap s.imgd.skiplog.length = true →
        step s = .next ((s.setHostq q).setImgd
          { s.imgd with
            s := s.imgd.s + d.length, st := ⟨.fault, .capacityExceeded, s.imgd.s + d.length⟩ })))

/-! ## PALC -/

/-- R232 and R233: COMPOSE gives a total palette of 256 entries: the subpalette's colours at its slots and
the default everywhere else, or, when they do not fit (the spec's decision D29), the default everywhere and
`PALERR`. Nothing else changes. The host's move applies it to a stored record of a valid store (R353); that the
move is refused when IMGD is not DONE or stores no record `j` is the model's choice (log 17 and log 21, DEDUCED
from R353 and U42). -/
def Obligations.ComposeFillsPalette : Prop :=
  (∀ (sp : SubPalette) (dflt : Color) (s : State),
    ∃ p, exec (.compose sp dflt) s = .next (s.setPalc p) ∧
      (p.palerr = true ↔ 256 < sp.loc.toNat + sp.colors.length) ∧
      (∀ j < sp.colors.length, sp.loc.toNat + sp.colors.length ≤ 256 →
        p.palette[sp.loc.toNat + j]? = sp.colors[j]?) ∧
      (∀ j < 256, 256 < sp.loc.toNat + sp.colors.length ∨ j < sp.loc.toNat ∨
        sp.loc.toNat + sp.colors.length ≤ j → p.palette[j]? = some dflt)) ∧
  (∀ (s : State) (q : List HostMove) (j : Nat) (dflt : Color), s.hostq = .compose j dflt :: q →
    (∀ sp, s.imgd.st.status = .done → s.imgd.subpals[j]? = some sp →
      step s = exec (.compose sp dflt) (s.setHostq q)) ∧
    (s.imgd.st.status ≠ .done ∨ s.imgd.subpals.length ≤ j → step s = .refused .resultNotReadable))

/-! ## TXTP -/

/-- A step of TXTP that reads an instruction runs it: of the payload, when the bytes of the range its phase
reads (R261, R267) begin with the encoding of an instruction the phase can hold; of the working sequence,
when its items begin with the instruction's (R270, R271); and a raw byte of the final decode runs the
character of its class (R280, R121). The phases are the model's own (log 8). -/
def Obligations.TxtpStepRunsDecoded : Prop :=
  (∀ (s : State) (q : List HostMove) (i : Instr) (ctx : Ctx) (a lim : Nat) (rest : List Byte),
    s.hostq = .run .txtp :: q → s.txtp.st.status = .running → s.txtp.reads = some (ctx, a, lim) →
    ctx.admits i = true → i.wf = true →
    window .pbufTxtp s.txtp.pbuf a lim = .ok (i.encode ++ rest) → step s = exec i (s.setHostq q)) ∧
  (∀ (s : State) (q : List HostMove) (i : Instr) (ctx : ItemCtx) (a : Nat) (rest : List Item),
    s.hostq = .run .txtp :: q → s.txtp.st.status = .running → s.txtp.readsItems = some (ctx, a) →
    ctx.admits i = true → i.wf = true → s.txtp.w.drop a = i.encodeItems ++ rest →
    step s = exec i (s.setHostq q)) ∧
  (∀ (s : State) (q : List HostMove) (i : Instr) (b : Byte), s.hostq = .run .txtp :: q →
    s.txtp.st.status = .running → s.txtp.phase = .final →
    s.txtp.w[s.txtp.outText.length]? = some (Item.B b) → i.wf = true →
    (Ctx.char s.txtp.charset).admits i = true → i.encode = [b] → step s = exec i (s.setHostq q))

/-- R261 to R263: the index gives `n = ibs div 2` boundary addresses with no base added and no check on the
first; with no entry the store is empty (log 18). An index that does not fit raises UnexpectedEnd at the
failing read (the spec's decision D30) and leaves the other registers as they were, which is the model's choice
(log 31, DESIGN CHOICE). -/
def Obligations.SentenceIndexRead : Prop :=
  (∀ (e0 : Half) (es : List Half) (s : State), es.length + 1 = max (e0.toNat / 2) 1 →
    exec (.tidx (e0 :: es)) s = .next (s.setTxtp
      { s.txtp with
        ibs := e0, n := e0.toNat / 2, addr := if e0.toNat < 2 then [] else e0 :: es,
        c := 2 * (es.length + 1), i := 0, phase := .frame })) ∧
  (∀ (s : State) (q : List HostMove) (bs : List Byte), s.hostq = .run .txtp :: q →
    s.txtp.st.status = .running → s.txtp.phase = .index →
    window .pbufTxtp s.txtp.pbuf 0 s.txtp.plen = .ok bs →
    bs.length < 2 ∨
      bs.length < 2 * (((bs.getD 0 0).toNat + 256 * (bs.getD 1 0).toNat) / 2) →
    step s = .next ((s.setHostq q).setTxtp
      { s.txtp with
        c := 2 * (bs.length / 2), st := ⟨.fault, .unexpectedEnd, 2 * (bs.length / 2)⟩ }))

/-- R262 and R264: the range of sentence `i`, its first check, and the end of the run after sentence
`n − 2`. That the payload cursor `c` is put at the start of the range, that the texts start empty there, and that
`i` is left past the last sentence, is the model's choice (log 33, DESIGN CHOICE). -/
def Obligations.SentenceFraming : Prop :=
  ∀ (s : State) (q : List HostMove), s.hostq = .run .txtp :: q → s.txtp.st.status = .running →
    s.txtp.phase = .frame →
    (∀ start stop : Half, s.txtp.i + 1 < s.txtp.n → s.txtp.addr[s.txtp.i]? = some start →
      s.txtp.addr[s.txtp.i + 1]? = some stop →
      (start.toNat ≤ stop.toNat ∧ stop.toNat ≤ s.txtp.plen →
        step s = .next ((s.setHostq q).setTxtp
          { s.txtp with
            sstart := start.toNat, send := stop.toNat, c := start.toNat, rawText := [], outText := [],
            phase := .raw })) ∧
      (stop.toNat < start.toNat ∨ s.txtp.plen < stop.toNat →
        full s.caps.logCap s.txtp.skiplog.length = false →
        step s = .next ((s.setHostq q).setTxtp
          { s.txtp with
            sstart := start.toNat, send := stop.toNat, c := start.toNat,
            skiplog := s.txtp.skiplog ++ [⟨.sentence, s.txtp.i, .badRange, start.toNat⟩],
            w := [], vals := [], rawText := [], outText := [], i := s.txtp.i + 1 }))) ∧
    (s.txtp.n ≤ s.txtp.i + 1 →
      step s = .next ((s.setHostq q).setTxtp
        { s.txtp with st := ⟨.done, s.txtp.st.cause, s.txtp.st.faultPos⟩ }))

/-- R266: the character of one byte, tested in R121's order, joins `rawText` and moves the cursor, or, in
the final decode, joins `textWithInstructions`. That the newline is U+000A is the spec's decision D5
(log 19). -/
def Obligations.CharactersDecode : Prop :=
  ∀ (s : State) (i : Instr) (ch : Char),
    (i = .nlFe ∧ ch = '\n') ∨ (i = .nl0d ∧ ch = '\n') ∨
      (∃ b, i = .charOverride b ∧ b ≠ 0xFE ∧ b ≠ 0x0D ∧ Charset.get s.txtp.charset b = some ch) ∨
      (∃ b, i = .charDirect b ∧ b ≠ 0xFE ∧ b ≠ 0x0D ∧ Charset.get s.txtp.charset b = none ∧
        ch.toNat = b.toNat) →
    (s.txtp.phase ≠ .final → exec i s = .next (s.setTxtp
      { s.txtp with rawText := s.txtp.rawText ++ [ch], c := s.txtp.c + 1 })) ∧
    (s.txtp.phase = .final → exec i s = .next (s.setTxtp
      { s.txtp with outText := s.txtp.outText ++ [ch] }))

/-- R267: `rawText` is the charset decode of every byte of the sentence, trigger and parameter bytes
included, one character per byte: as many steps as the sentence has bytes compute it. The steps, and the payload
cursor `c` that counts them, are the model's choice (log 8 and log 13). -/
def Obligations.RawTextIsCharsetDecode : Prop :=
  ∀ (s : State) (bs : List Byte), s.txtp.st.status = .running → s.txtp.phase = .raw →
    s.txtp.c = s.txtp.sstart → s.txtp.rawText = [] →
    window .pbufTxtp s.txtp.pbuf s.txtp.sstart s.txtp.send = .ok bs →
    bs.length = s.txtp.send - s.txtp.sstart ∧
    runEngine .txtp bs.length s = .next (s.setTxtp
      { s.txtp with
        rawText := bs.map (charDecode s.txtp.charset), c := s.txtp.sstart + bs.length })

/-- R268 to R271: the working sequence starts as the sentence's raw bytes; the loop over `ITAB` goes entry
by entry, opens an expansion at the leftmost raw trigger byte, and goes to the next entry when there is
none, to the final decode after the last; `t` is the entry's trigger byte in either case. That only raw bytes
match and the order of the table are the spec's decisions D31 and D32 (log 23). A sentence longer than `TEXT_CAP`
raises CapacityExceeded (R317) before the sequence is made; that the cursor position it records is the payload
cursor `c` is the model's reading of R317 (log 13, DEDUCED). -/
def Obligations.ExpansionLoop : Prop :=
  (∀ (t : Byte) (p : Nat) (s : State), s.txtp.w[p]? = some (Item.B t) →
    (∀ j < p, s.txtp.w[j]? ≠ some (Item.B t)) →
    exec (.tinstr t) s = .next (s.setTxtp
      { s.txtp with t := t, p := p, q := p + 1, vals := [], prm := 0, phase := .params })) ∧
  (∀ (s : State) (q : List HostMove), s.hostq = .run .txtp :: q → s.txtp.st.status = .running →
    (∀ bs, s.txtp.phase = .raw → s.txtp.send ≤ s.txtp.c →
      window .pbufTxtp s.txtp.pbuf s.txtp.sstart s.txtp.send = .ok bs →
      (exceeds s.caps.textCap bs.length = false →
        step s = .next ((s.setHostq q).setTxtp
          { s.txtp with w := bs.map Item.B, entry := 0, phase := .scan })) ∧
      (exceeds s.caps.textCap bs.length = true →
        step s = .next ((s.setHostq q).setTxtp
          { s.txtp with st := ⟨.fault, .capacityExceeded, s.txtp.c⟩ }))) ∧
    (∀ (ins : TextInstruction) (p : Nat), s.txtp.phase = .scan →
      s.txtp.itab[s.txtp.entry]? = some ins → s.txtp.w[p]? = some (Item.B ins.triggerByte) →
      (∀ j < p, s.txtp.w[j]? ≠ some (Item.B ins.triggerByte)) →
      step s = exec (.tinstr ins.triggerByte) (s.setHostq q)) ∧
    (∀ ins : TextInstruction, s.txtp.phase = .scan → s.txtp.itab[s.txtp.entry]? = some ins →
      Item.B ins.triggerByte ∉ s.txtp.w →
      step s = .next ((s.setHostq q).setTxtp
        { s.txtp with t := ins.triggerByte, entry := s.txtp.entry + 1 })) ∧
    (s.txtp.phase = .scan → s.txtp.itab.length ≤ s.txtp.entry →
      step s = .next ((s.setHostq q).setTxtp { s.txtp with outText := [], phase := .final })))

/-- R272, R273, R277 and R281: a numeric parameter's value is the text that `RenderValue` gives its value,
whatever that text is (an open parameter, log 15); where a raw byte is missing or an inserted character
stands in its place, the sentence is dropped as ParamOverrun (the last case is the spec's D32, log 23). -/
def Obligations.NumericParameters : Prop :=
  (∀ (v : Byte) (s : State), exec (.paramRead8 v) s = .next (s.setTxtp
    { s.txtp with
      vals := s.txtp.vals ++ [(Config.renderValue (BitVec.ofNat 16 v.toNat)).map Item.C],
      prm := s.txtp.prm + 1, q := s.txtp.q + 1 })) ∧
  (∀ (v : Half) (s : State), exec (.paramRead16 v) s = .next (s.setTxtp
    { s.txtp with
      vals := s.txtp.vals ++ [(Config.renderValue v).map Item.C],
      prm := s.txtp.prm + 1, q := s.txtp.q + 2 })) ∧
  (∀ (s : State) (q : List HostMove) (ins : TextInstruction) (prm : Param),
    s.hostq = .run .txtp :: q → s.txtp.st.status = .running → s.txtp.phase = .params →
    s.txtp.itab[s.txtp.entry]? = some ins → ins.params[s.txtp.prm]? = some prm →
    full s.caps.logCap s.txtp.skiplog.length = false →
    ((prm.mode = .read8 ∧ ∀ b, s.txtp.w[s.txtp.q]? ≠ some (Item.B b)) ∨
      (prm.mode = .read16 ∧ ((∀ b, s.txtp.w[s.txtp.q]? ≠ some (Item.B b)) ∨
        ∀ b, s.txtp.w[s.txtp.q + 1]? ≠ some (Item.B b)))) →
    step s = .next ((s.setHostq q).setTxtp
      { s.txtp with
        skiplog := s.txtp.skiplog ++ [⟨.sentence, s.txtp.i, .paramOverrun, s.txtp.sstart⟩],
        w := [], vals := [], rawText := [], outText := [], i := s.txtp.i + 1, phase := .frame }))

/-- R274: `ReadUntil(t)` takes the items before the first raw byte `t` as they are, and consumes and drops
that byte; with no such byte the sentence is dropped as ParamOverrun. -/
def Obligations.ReadUntilCaptures : Prop :=
  (∀ (captured : List Item) (t : Byte) (s : State), exec (.paramReadUntil captured t) s = .next (s.setTxtp
    { s.txtp with
      vals := s.txtp.vals ++ [captured], prm := s.txtp.prm + 1, r := s.txtp.q + captured.length,
      q := s.txtp.q + captured.length + 1 })) ∧
  (∀ (s : State) (q : List HostMove) (ins : TextInstruction) (name : Text) (t : Byte),
    s.hostq = .run .txtp :: q → s.txtp.st.status = .running → s.txtp.phase = .params →
    s.txtp.itab[s.txtp.entry]? = some ins → ins.params[s.txtp.prm]? = some ⟨name, .readUntil t⟩ →
    (∀ r : Nat, s.txtp.q ≤ r → s.txtp.w[r]? = some (Item.B t) →
      (∀ j, s.txtp.q ≤ j → j < r → s.txtp.w[j]? ≠ some (Item.B t)) →
      step s = .next ((s.setHostq q).setTxtp
        { s.txtp with
          vals := s.txtp.vals ++ [(s.txtp.w.take r).drop s.txtp.q], prm := s.txtp.prm + 1, r := r,
          q := r + 1 })) ∧
    ((∀ r : Nat, s.txtp.q ≤ r → s.txtp.w[r]? ≠ some (Item.B t)) →
      full s.caps.logCap s.txtp.skiplog.length = false →
      step s = .next ((s.setHostq q).setTxtp
        { s.txtp with
          skiplog := s.txtp.skiplog ++ [⟨.sentence, s.txtp.i, .paramOverrun, s.txtp.sstart⟩],
          w := [], vals := [], rawText := [], outText := [], i := s.txtp.i + 1, phase := .frame })))

/-- R275: the element form, used exactly when the instruction has one parameter and that parameter's mode is
`ReadUntil`; the parameter's name is not used. -/
def Obligations.ElementFormPlaceholder : Prop :=
  (∀ (trigger t : Byte) (fn name : Text) (val : List Item),
    placeholder ⟨trigger, fn, [⟨name, .readUntil t⟩]⟩ [val] =
      (['<'] ++ fn ++ ['>']).map Item.C ++ val ++ (['<', '/'] ++ fn ++ ['>']).map Item.C) ∧
  (∀ prms : List Param, usesElementForm prms = true ↔ ∃ name t, prms = [⟨name, .readUntil t⟩])

/-- R276, R271 and R278: every other instruction takes the attribute form, its attributes in parameter
order (the spacing and the missing escaping are the spec's decision D34), and when every parameter is read
the placeholder takes the place of the span, the items before and after it unchanged. A working sequence longer
than `TEXT_CAP` raises CapacityExceeded (R317); that the cursor position it records is the payload cursor `c` is
the model's reading of R317 (log 13, DEDUCED). -/
def Obligations.ExpansionReplacesSpan : Prop :=
  (∀ (trigger : Byte) (fn : Text) (prms : List Param) (vals : List (List Item)),
    (¬ ∃ name t, prms = [⟨name, .readUntil t⟩]) →
    placeholder ⟨trigger, fn, prms⟩ vals =
      (['<'] ++ fn).map Item.C ++
        ((prms.zip vals).map (fun pv =>
          ([' '] ++ pv.1.name ++ ['=', '"']).map Item.C ++ pv.2 ++ ['"'].map Item.C)).flatten ++
        ['/', '>'].map Item.C) ∧
  (∀ (s : State) (q : List HostMove) (ins : TextInstruction), s.hostq = .run .txtp :: q →
    s.txtp.st.status = .running → s.txtp.phase = .params → s.txtp.itab[s.txtp.entry]? = some ins →
    ins.params.length ≤ s.txtp.prm →
    (exceeds s.caps.textCap
        (s.txtp.w.take s.txtp.p ++ placeholder ins s.txtp.vals ++ s.txtp.w.drop s.txtp.q).length = false →
      step s = .next ((s.setHostq q).setTxtp
        { s.txtp with
          w := s.txtp.w.take s.txtp.p ++ placeholder ins s.txtp.vals ++ s.txtp.w.drop s.txtp.q,
          phase := .scan })) ∧
    (exceeds s.caps.textCap
        (s.txtp.w.take s.txtp.p ++ placeholder ins s.txtp.vals ++ s.txtp.w.drop s.txtp.q).length = true →
      step s = .next ((s.setHostq q).setTxtp
        { s.txtp with st := ⟨.fault, .capacityExceeded, s.txtp.c⟩ })))

/-- R279: the number of raw bytes in the working sequence strictly falls with every expansion that is
closed, in every well-kept state. -/
def Obligations.ExpansionConsumesRawBytes : Prop :=
  ∀ (s t : State), s.Inv → s.txtp.st.status = .running → s.txtp.phase = .params →
    engineStep .txtp s = .next t → t.txtp.phase = .scan → rawItems t.txtp.w < rawItems s.txtp.w

/-- R280: the final decode gives one character per item, an inserted character as it is and a raw byte by
the charset; a sequence of raw bytes alone gives the sentence's own charset decode. -/
def Obligations.FinalDecode : Prop :=
  ∀ s : State, s.txtp.st.status = .running → s.txtp.phase = .final → s.txtp.outText = [] →
    runEngine .txtp s.txtp.w.length s = .next (s.setTxtp
      { s.txtp with
        outText := s.txtp.w.map (fun it =>
          match it with
          | .B b => charDecode s.txtp.charset b
          | .C ch => ch) }) ∧
    ∀ bs : List Byte, s.txtp.w = bs.map Item.B →
      ∃ t, runEngine .txtp bs.length s = .next t ∧
        t.txtp.outText = bs.map (charDecode s.txtp.charset)

/-- R282: the sentence is stored with its range and its two texts, `DUP_START` is set when a record with the
same start is stored already, and after sentence `n − 2` the engine is DONE. The hypothesis is R317's: the
store has room. -/
def Obligations.SentenceStored : Prop :=
  ∀ (s : State) (q : List HostMove), s.hostq = .run .txtp :: q → s.txtp.st.status = .running →
    (s.txtp.phase = .final → s.txtp.w.length ≤ s.txtp.outText.length →
      full s.caps.nSentCap s.txtp.sentences.length = false →
      ∃ t, step s = .next t ∧
        t.txtp.sentences = s.txtp.sentences ++
          [⟨s.txtp.i, s.txtp.sstart, s.txtp.send, s.txtp.rawText, s.txtp.outText⟩] ∧
        (t.txtp.dupStart = true ↔
          s.txtp.dupStart = true ∨ ∃ r ∈ s.txtp.sentences, r.startAddress = s.txtp.sstart) ∧
        t.txtp.i = s.txtp.i + 1 ∧ t.txtp.phase = .frame ∧ t.txtp.st = s.txtp.st) ∧
    (s.txtp.phase = .frame → s.txtp.n ≤ s.txtp.i + 1 →
      ∃ t, step s = .next t ∧ t.txtp.st.status = .done ∧ t.txtp.sentences = s.txtp.sentences)

/-! ## Exceptions, the host, and the whole machine -/

/-- R321: a unit error appends exactly one entry to the skip log, drops everything computed for the unit and
stores no record, and the engine goes on, RUNNING, with the unit after it, or for PaletteOverrun with the
phase after the palette. The log has room (R322 says what happens when it has none). -/
def Obligations.UnitErrorIsolatesUnit : Prop :=
  ∀ caps : Caps,
    (∀ (m : Imgd) (cause : UnitCause), full caps.logCap m.skiplog.length = false →
      m.partError caps cause =
        { m with
          skiplog := m.skiplog ++ [⟨.part, m.i, cause, m.pstart⟩], pixels := [], i := m.i + 1,
          phase := .frame }) ∧
    (∀ (m : Imgd) (loc cnt : Byte), full caps.logCap m.skiplog.length = false →
      m.palOverrun caps loc cnt =
        { m with
          loc := loc, cnt := cnt, pcur := m.pcur + 2,
          skiplog := m.skiplog ++ [⟨.subPalette, m.k, .paletteOverrun, m.pcur⟩], phase := .offsets }) ∧
    (∀ (m : Imgd) (loc : Byte) (raws : List Color), full caps.logCap m.skiplog.length = false →
      raws.any channelOut = true →
      palrecOp loc raws caps m = .ok
        { m with
          loc := loc, cnt := BitVec.ofNat 8 raws.length, pcur := m.pcur + 2 + 3 * raws.length,
          skiplog := m.skiplog ++ [⟨.subPalette, m.k, .channelRange, m.pcur⟩], k := m.k + 1 }) ∧
    (∀ (x : Txtp) (cause : UnitCause), full caps.logCap x.skiplog.length = false →
      x.sentenceError caps cause =
        { x with
          skiplog := x.skiplog ++ [⟨.sentence, x.i, cause, x.sstart⟩], w := [], vals := [],
          rawText := [], outText := [], i := x.i + 1, phase := .frame })

/-- R317, R155, R319 and R322: an append to a full store is fatal. A copy that meets the capacity of `OBUF`
has appended the bytes that fit and raises CapacityExceeded at the cursor; a unit error that overflows the
skip log raises it at the cursor of the site (log 13), and so do a full part store and a full sentence
store (log 14). -/
def Obligations.FullStoreIsFatal : Prop :=
  (∀ (caps : Caps) (h : Hsqd) (len back cap : Nat), 1 ≤ back → back ≤ h.olen →
    h.obuf.filled h.olen → caps.outCap = some cap → h.olen ≤ cap → cap < h.olen + len →
    ∃ m, CopyResult h (cap - h.olen) back m ∧
      Hsqd.backCopy caps (-(back : Int)) len h =
        .ok { h with obuf := m, olen := cap, st := ⟨.fault, .capacityExceeded, h.pos⟩ }) ∧
  (∀ (caps : Caps) (m : Imgd) (cause : UnitCause), full caps.logCap m.skiplog.length = true →
    m.partError caps cause = { m with st := ⟨.fault, .capacityExceeded, m.s⟩ }) ∧
  (∀ (caps : Caps) (m : Imgd) (loc cnt : Byte), full caps.logCap m.skiplog.length = true →
    m.palOverrun caps loc cnt =
      { m with
        loc := loc, cnt := cnt, pcur := m.pcur + 2, st := ⟨.fault, .capacityExceeded, m.pcur + 2⟩ }) ∧
  (∀ (s : State) (loc : Byte) (raws : List Color), full s.caps.logCap s.imgd.skiplog.length = true →
    (∃ c ∈ raws, 64 ≤ c.r.toNat ∨ 64 ≤ c.g.toNat ∨ 64 ≤ c.b.toNat) →
    exec (.palrec loc raws) s = .next (s.setImgd
      { s.imgd with
        loc := loc, cnt := BitVec.ofNat 8 raws.length, pcur := s.imgd.pcur + 2 + 3 * raws.length,
        st := ⟨.fault, .capacityExceeded, s.imgd.pcur + 2 + 3 * raws.length⟩ })) ∧
  (∀ (s : State) (raw : List Byte), full s.caps.nPartCap s.imgd.unkparts.length = true →
    exec (.partUnknown raw) s = .next (s.setImgd
      { s.imgd with
        cw := 0, s := s.imgd.pstart + 2 + raw.length,
        st := ⟨.fault, .capacityExceeded, s.imgd.pstart + 2 + raw.length⟩ })) ∧
  (∀ (caps : Caps) (x : Txtp) (cause : UnitCause), full caps.logCap x.skiplog.length = true →
    x.sentenceError caps cause = { x with st := ⟨.fault, .capacityExceeded, x.c⟩ }) ∧
  (∀ (caps : Caps) (x : Txtp), full caps.nSentCap x.sentences.length = true →
    (x.storeSentence caps).st = ⟨.fault, .capacityExceeded, x.c⟩ ∧
    (x.storeSentence caps).sentences = x.sentences)

/-- R351 with R61: RESET, in any state, puts every state element at its reset value: every engine IDLE,
every store empty, every flag clear, `VERIFY = 1`. The capacities are no state (R62), and the host's own
pending moves are not the block's (log 29). The registers the spec leaves unspecified return to the model's
own reset values (log 2); the palette's slots are not named (log 16). -/
def Obligations.ResetRestoresState : Prop :=
  (∀ s : State, ∃ t, exec .reset s = .next t ∧ t.hsqd = State.reset.hsqd ∧ t.imgd = State.reset.imgd ∧
    t.txtp = State.reset.txtp ∧ t.palc.palerr = false ∧ t.caps = s.caps ∧ t.hostq = s.hostq) ∧
  (∀ e, statusOf e State.reset = ⟨.idle, .none, 0⟩) ∧
  State.reset.hsqd.verify = true ∧ State.reset.hsqd.pos = 0 ∧ State.reset.hsqd.bitcnt = 0 ∧
  State.reset.hsqd.bitbuf = 0 ∧ State.reset.hsqd.usize = 0 ∧ State.reset.hsqd.csize = 0 ∧
  State.reset.hsqd.cksum = 0 ∧ State.reset.hsqd.olen = 0 ∧ State.reset.hsqd.stop = .none ∧
  State.reset.hsqd.phase = .header ∧ State.reset.hsqd.inLen = 0 ∧
  State.reset.imgd.plen = 0 ∧ State.reset.imgd.oas = 0 ∧ State.reset.imgd.pcur = 0 ∧
  State.reset.imgd.k = 0 ∧ State.reset.imgd.n = 0 ∧ State.reset.imgd.abs = [] ∧
  State.reset.imgd.palNoterm = false ∧ State.reset.imgd.subpals = [] ∧ State.reset.imgd.imgparts = [] ∧
  State.reset.imgd.unkparts = [] ∧ State.reset.imgd.skiplog = [] ∧
  State.reset.txtp.plen = 0 ∧ State.reset.txtp.n = 0 ∧ State.reset.txtp.addr = [] ∧
  State.reset.txtp.dupStart = false ∧ State.reset.txtp.sentences = [] ∧ State.reset.txtp.skiplog = [] ∧
  State.reset.txtp.w = [] ∧ State.reset.txtp.charset = [] ∧ State.reset.txtp.itab = []

/-- R352: a launch under its preconditions, no engine RUNNING (R15, R328, log 5), makes the engine RUNNING on the
given inputs and leaves nothing of its previous run (every other field as after reset, log 10); bound to `OBUF`
the payload is the bytes `OBUF[0:olen]` of a DONE HSQD (R85). The other engines are untouched. A launch of IMGD
also clears `PALERR` (R59), and that it takes the outputs of PALC back to their reset values is the model's
reading (log 16, DEDUCED). -/
def Obligations.LaunchStartsEngine : Prop :=
  (∀ (s : State) (bytes : List Byte) (verify : Bool), (∀ e, (statusOf e s).status ≠ .running) →
    exceeds s.caps.inCap bytes.length = false →
    exec (.launch (.hsqd bytes verify)) s = .next (s.setHsqd
      { Hsqd.reset with
        st := ⟨.running, .none, 0⟩, verify := verify, ibuf := Memory.ofBytes 0 bytes,
        inLen := bytes.length }) ∧
    window .ibuf (Memory.ofBytes 0 bytes) 0 bytes.length = .ok bytes) ∧
  (∀ (s : State) (p : Payload) (bytes : List Byte) (bound : Bool),
    (∀ e, (statusOf e s).status ≠ .running) → (p = .bytes bytes ∧ bound = false) ∨
      (p = .obuf ∧ bound = true ∧ s.hsqd.st.status = .done ∧
        window .obuf s.hsqd.obuf 0 s.hsqd.olen = .ok bytes) →
    exceeds s.caps.pCap bytes.length = false →
    exec (.launch (.imgd p)) s = .next ((s.setImgd
        { Imgd.reset with
          st := ⟨.running, .none, 0⟩, bound := bound, pbuf := Memory.ofBytes 0 bytes,
          plen := bytes.length }).setPalc ⟨State.reset.palc.palette, false⟩) ∧
    (∀ (charset : Charset) (itab : List TextInstruction),
      exceeds s.caps.nInstrCap itab.length = false →
      exec (.launch (.txtp p charset itab)) s = .next (s.setTxtp
        { Txtp.reset with
          st := ⟨.running, .none, 0⟩, bound := bound, pbuf := Memory.ofBytes 0 bytes,
          plen := bytes.length, charset := charset, itab := itab })))

/-- U40, U41, R15, R328, R85, R357 and R317: the launches the host may not make are refused by name: of an engine
that is RUNNING, of HSQD under a bound RUNNING interpreter, of any engine while another one is RUNNING, and on
`OBUF` of an HSQD that is not DONE (log 5, log 21, DEDUCED). One whose inputs pass a capacity faults
CapacityExceeded with nothing loaded and `FAULT_POS` 0 (log 12, DESIGN CHOICE). That such a launch of IMGD, too,
clears `PALERR` (R59) and takes the outputs of PALC back to their reset values is the model's reading (log 16,
DEDUCED). -/
def Obligations.LaunchPreconditions : Prop :=
  (∀ (s : State) (bytes : List Byte) (verify : Bool),
    (s.hsqd.st.status = .running →
      exec (.launch (.hsqd bytes verify)) s = .refused (.launchWhileRunning .hsqd)) ∧
    (s.hsqd.st.status ≠ .running → boundRunning s = true →
      exec (.launch (.hsqd bytes verify)) s = .refused .relaunchUnderBound) ∧
    (s.hsqd.st.status ≠ .running → boundRunning s = false →
      s.imgd.st.status = .running ∨ s.txtp.st.status = .running →
      ∃ active, (statusOf active s).status = .running ∧
        exec (.launch (.hsqd bytes verify)) s = .refused (.otherRunning active)) ∧
    ((∀ e, (statusOf e s).status ≠ .running) → exceeds s.caps.inCap bytes.length = true →
      ∃ h, exec (.launch (.hsqd bytes verify)) s = .next (s.setHsqd h) ∧
        h.st = ⟨.fault, .capacityExceeded, 0⟩ ∧ h.inLen = 0)) ∧
  (∀ (s : State) (p : Payload),
    (s.imgd.st.status = .running → exec (.launch (.imgd p)) s = .refused (.launchWhileRunning .imgd)) ∧
    (s.imgd.st.status ≠ .running → s.hsqd.st.status = .running ∨ s.txtp.st.status = .running →
      ∃ active, (statusOf active s).status = .running ∧
        exec (.launch (.imgd p)) s = .refused (.otherRunning active))) ∧
  (∀ (s : State) (p : Payload) (charset : Charset) (itab : List TextInstruction),
    (s.txtp.st.status = .running →
      exec (.launch (.txtp p charset itab)) s = .refused (.launchWhileRunning .txtp)) ∧
    (s.txtp.st.status ≠ .running → s.hsqd.st.status = .running ∨ s.imgd.st.status = .running →
      ∃ active, (statusOf active s).status = .running ∧
        exec (.launch (.txtp p charset itab)) s = .refused (.otherRunning active))) ∧
  (∀ (s : State) (charset : Charset) (itab : List TextInstruction),
    (∀ e, (statusOf e s).status ≠ .running) → s.hsqd.st.status ≠ .done →
    exec (.launch (.imgd .obuf)) s = .refused .bindWhileNotDone ∧
    exec (.launch (.txtp .obuf charset itab)) s = .refused .bindWhileNotDone) ∧
  (∀ (s : State) (p : Payload) (bytes : List Byte) (charset : Charset) (itab : List TextInstruction),
    (∀ e, (statusOf e s).status ≠ .running) → p = .bytes bytes ∨
      (p = .obuf ∧ s.hsqd.st.status = .done ∧ window .obuf s.hsqd.obuf 0 s.hsqd.olen = .ok bytes) →
    (exceeds s.caps.pCap bytes.length = true →
      ∃ m, exec (.launch (.imgd p)) s =
          .next ((s.setImgd m).setPalc ⟨State.reset.palc.palette, false⟩) ∧
        m.st = ⟨.fault, .capacityExceeded, 0⟩ ∧ m.plen = 0) ∧
    (exceeds s.caps.pCap bytes.length = true ∨ exceeds s.caps.nInstrCap itab.length = true →
      ∃ x, exec (.launch (.txtp p charset itab)) s = .next (s.setTxtp x) ∧
        x.st = ⟨.fault, .capacityExceeded, 0⟩ ∧ x.plen = 0))

/-- R353 with R35: results are readable when the engine is DONE and only then; `CAUSE` and `FAULT_POS` when
it is in FAULT; `HDR` when HSQD is DONE, or in a FAULT other than UnexpectedEnd at 0. -/
def Obligations.ResultReadsAreGated : Prop :=
  ∀ s : State,
    (s.hsqd.st.status ≠ .done → readHsqd s = none) ∧ (s.imgd.st.status ≠ .done → readImgd s = none) ∧
    (s.txtp.st.status ≠ .done → readTxtp s = none) ∧
    (∀ bs, s.hsqd.st.status = .done → window .obuf s.hsqd.obuf 0 s.hsqd.olen = .ok bs →
      readHsqd s = some ⟨⟨s.hsqd.usize, s.hsqd.csize, s.hsqd.cksum⟩, bs, s.hsqd.stop⟩) ∧
    (s.imgd.st.status = .done → readImgd s =
      some ⟨s.imgd.subpals, s.imgd.imgparts, s.imgd.unkparts, s.imgd.skiplog, s.imgd.palNoterm⟩) ∧
    (s.txtp.st.status = .done → readTxtp s = some ⟨s.txtp.sentences, s.txtp.skiplog, s.txtp.dupStart⟩) ∧
    (∀ e, (statusOf e s).status = .fault →
      readFault e s = some ((statusOf e s).cause, (statusOf e s).faultPos)) ∧
    (∀ e, (statusOf e s).status ≠ .fault → readFault e s = none) ∧
    (readHeader s = some ⟨s.hsqd.usize, s.hsqd.csize, s.hsqd.cksum⟩ ∨ readHeader s = none) ∧
    ((readHeader s).isSome = true ↔ s.hsqd.st.status = .done ∨ (s.hsqd.st.status = .fault ∧
      ¬ (s.hsqd.st.cause = .unexpectedEnd ∧ s.hsqd.st.faultPos = 0)))

/-- R320, R322 and R353: a run that is over stays over. No step changes anything of an engine that is DONE
or in FAULT, but a launch of that engine or RESET. -/
def Obligations.EndedRunsAreSticky : Prop :=
  ∀ (s t : State), step s = .next t → (∀ q, s.hostq ≠ .reset :: q) →
    (s.hsqd.st.status = .done ∨ s.hsqd.st.status = .fault →
      (∀ bytes verify q, s.hostq ≠ .launch (.hsqd bytes verify) :: q) → t.hsqd = s.hsqd) ∧
    (s.imgd.st.status = .done ∨ s.imgd.st.status = .fault →
      (∀ p q, s.hostq ≠ .launch (.imgd p) :: q) → t.imgd = s.imgd) ∧
    (s.txtp.st.status = .done ∨ s.txtp.st.status = .fault →
      (∀ p charset itab q, s.hostq ≠ .launch (.txtp p charset itab) :: q) → t.txtp = s.txtp)

/-- R30: the engines share no mutable state. An instruction of one engine changes nothing of another, of
the palette composer, of the capacities or of the host's queue, and neither does a step of that engine. -/
def Obligations.EnginesShareNoState : Prop :=
  (∀ (i : Instr) (s t : State), exec i s = .next t →
    (engineOf i = some .hsqd → t = s.setHsqd t.hsqd) ∧ (engineOf i = some .imgd → t = s.setImgd t.imgd) ∧
    (engineOf i = some .txtp → t = s.setTxtp t.txtp)) ∧
  (∀ s t : State, (engineStep .hsqd s = .next t → t = s.setHsqd t.hsqd) ∧
    (engineStep .imgd s = .next t → t = s.setImgd t.imgd) ∧
    (engineStep .txtp s = .next t → t = s.setTxtp t.txtp))

/-- R71, R73, R84 and R62: no step writes an engine's inputs or the capacities, but a launch of that engine
or RESET. That a step takes one host move off the queue `hostq` is the model's choice (log 3, DESIGN CHOICE). -/
def Obligations.InputsAreNeverWritten : Prop :=
  ∀ (s t : State), step s = .next t →
    t.caps = s.caps ∧ t.hostq = s.hostq.tail ∧
    ((∀ q, s.hostq ≠ .reset :: q) →
      ((∀ bytes verify q, s.hostq ≠ .launch (.hsqd bytes verify) :: q) →
        t.hsqd.ibuf = s.hsqd.ibuf ∧ t.hsqd.inLen = s.hsqd.inLen ∧ t.hsqd.verify = s.hsqd.verify) ∧
      ((∀ p q, s.hostq ≠ .launch (.imgd p) :: q) →
        t.imgd.pbuf = s.imgd.pbuf ∧ t.imgd.plen = s.imgd.plen) ∧
      ((∀ p charset itab q, s.hostq ≠ .launch (.txtp p charset itab) :: q) →
        t.txtp.pbuf = s.txtp.pbuf ∧ t.txtp.plen = s.txtp.plen ∧ t.txtp.charset = s.txtp.charset ∧
        t.txtp.itab = s.txtp.itab))

/-- R72 and R74: an engine only appends. No step of an engine changes a byte of `OBUF` below `olen` or
takes anything out of a result store. -/
def Obligations.StoresOnlyGrow : Prop :=
  ∀ (e : Engine) (s t : State), engineStep e s = .next t →
    s.hsqd.olen ≤ t.hsqd.olen ∧ (∀ a < s.hsqd.olen, t.hsqd.obuf.read a = s.hsqd.obuf.read a) ∧
    s.imgd.subpals <+: t.imgd.subpals ∧ s.imgd.imgparts <+: t.imgd.imgparts ∧
    s.imgd.unkparts <+: t.imgd.unkparts ∧ s.imgd.skiplog <+: t.imgd.skiplog ∧
    s.txtp.sentences <+: t.txtp.sentences ∧ s.txtp.skiplog <+: t.txtp.skiplog

/-- R16, R157 (a), R235 and R286: the result of a launch is a function of its inputs alone. A launch leaves
the same engine state whatever the machine held before, and the steps of an engine depend on that engine's
own state and the capacities alone: two machines that agree on them stay in agreement, whatever the rest of
them holds. -/
def Obligations.RunsArePure : Prop :=
  (∀ (s s' t t' : State) (bytes : List Byte) (verify : Bool), s.caps = s'.caps →
    exec (.launch (.hsqd bytes verify)) s = .next t →
    exec (.launch (.hsqd bytes verify)) s' = .next t' → t.hsqd = t'.hsqd) ∧
  (∀ (s s' t t' : State) (bytes : List Byte), s.caps = s'.caps →
    exec (.launch (.imgd (.bytes bytes))) s = .next t →
    exec (.launch (.imgd (.bytes bytes))) s' = .next t' → t.imgd = t'.imgd) ∧
  (∀ (s s' t t' : State) (bytes : List Byte) (charset : Charset) (itab : List TextInstruction),
    s.caps = s'.caps → exec (.launch (.txtp (.bytes bytes) charset itab)) s = .next t →
    exec (.launch (.txtp (.bytes bytes) charset itab)) s' = .next t' → t.txtp = t'.txtp) ∧
  (∀ (n : Nat) (s s' t : State), s.caps = s'.caps →
    (s.hsqd = s'.hsqd → runEngine .hsqd n s = .next t →
      ∃ t', runEngine .hsqd n s' = .next t' ∧ t'.hsqd = t.hsqd) ∧
    (s.imgd = s'.imgd → runEngine .imgd n s = .next t →
      ∃ t', runEngine .imgd n s' = .next t' ∧ t'.imgd = t.imgd) ∧
    (s.txtp = s'.txtp → runEngine .txtp n s = .next t →
      ∃ t', runEngine .txtp n s' = .next t' ∧ t'.txtp = t.txtp))

/-- Which engine steps when the host has no move pending: the RUNNING one, and none where none runs (log 6). In a
state with several RUNNING, which no run reaches (R15, StepKeepsInvariant), it is the first of HSQD, IMGD, TXTP
(the model's choice, log 4). -/
def Obligations.FreeStepPicksRunningEngine : Prop :=
  ∀ s : State, s.hostq = [] →
    (s.hsqd.st.status = .running → step s = step (s.setHostq [.run .hsqd])) ∧
    (s.hsqd.st.status ≠ .running → s.imgd.st.status = .running →
      step s = step (s.setHostq [.run .imgd])) ∧
    (s.hsqd.st.status ≠ .running → s.imgd.st.status ≠ .running → s.txtp.st.status = .running →
      step s = step (s.setHostq [.run .txtp])) ∧
    (s.hsqd.st.status ≠ .running → s.imgd.st.status ≠ .running → s.txtp.st.status ≠ .running →
      step s = .next s)

/-- R360: every run of IMGD and of TXTP ends, in DONE or in FAULT, from every well-kept state. -/
def Obligations.InterpreterRunsEnd : Prop :=
  ∀ s : State, s.Inv →
    (s.imgd.st.status = .running → ∃ (n : Nat) (t : State), runEngine .imgd n s = .next t ∧
      (t.imgd.st.status = .done ∨ t.imgd.st.status = .fault)) ∧
    (s.txtp.st.status = .running → ∃ (n : Nat) (t : State), runEngine .txtp n s = .next t ∧
      (t.txtp.st.status = .done ∨ t.txtp.st.status = .fault))

/-- The state right after reset is well kept, and so are its stores. -/
def Obligations.ResetIsWellKept : Prop :=
  State.reset.Inv ∧ State.reset.StoresInv

/-- Every step keeps the invariant: each buffer holds exactly its bytes in canonical form and respects its
capacity (R37, R39, R41, R52), every cursor is in its range (R33, R42, R44), the bit buffer is clean above
`bitcnt` (R34), `line_remain` keeps R224's bounds, an expansion stands at its trigger (R271, R279), and at most
one engine is RUNNING (R15, R328; log 5 says what the model does with a launch beside a RUNNING engine). -/
def Obligations.StepKeepsInvariant : Prop :=
  ∀ s t : State, s.Inv → step s = .next t → t.Inv

/-- No step of a well-kept state stops with a fault: every read is of a byte that was written (R11, R61: "no
rule ever reads an unspecified value"), so the only stops are the refused moves of the host. -/
def Obligations.WellKeptStepsNeverFault : Prop :=
  ∀ (s : State) (r : Fault), s.Inv → step s ≠ .fault r

/-- Every step keeps the stores as the spec describes their records: channels that are multiples of 4 (R46),
`width × height` pixels that are None or 1 to 15 (R47), and texts with one character per byte of the range
(R56, R267). The stores and the logs are in increasing number (R46, R47, R48, R56, R230), the palette entries of
a log before its part entries, and every unit up to the one the engine stands at has its number in exactly one of
them, a skipped one included (R212, R283, the spec's decision D23). That pixels stay nibble values is its decision
D39 (log 23). -/
def Obligations.StepKeepsStores : Prop :=
  ∀ s t : State, s.Inv → s.StoresInv → step s = .next t → t.StoresInv

end
end

