-- ==== Sys2Proof/Laws/Decode.lean ====
section
/-! SUPPORT. What the parts of the decoder do to what the encoder wrote, said once: byte order, and
counted runs of entries, triples and bytes. -/

namespace Sys2Proof

/-- R75: the byte at the lower address is bits 7 to 0. -/
theorem le16_toNat (lo hi : Byte) : (le16 lo hi).toNat = lo.toNat + 256 * hi.toNat := by
  show (hi ++ lo).toNat = _
  rw [BitVec.toNat_append, ← Nat.shiftLeft_add_eq_or_of_lt lo.isLt, Nat.shiftLeft_eq]
  omega

theorem len3_toNat (raw : Half) : (len3 raw).toNat = raw.toNat % 8 := by simp [len3]

/-- The test of R108 as a test of the low three bits. -/
theorem len3_eq_zero (raw : Half) : len3 raw = 0 ↔ raw.toNat % 8 = 0 := by
  rw [← len3_toNat]
  exact ⟨fun h => by rw [h]; rfl, fun h => BitVec.eq_of_toNat_eq (by simpa using h)⟩

@[simp] theorem le16_halfBytes (v : Half) : le16 (loByte v) (hiByte v) = v := by
  apply BitVec.eq_of_toNat_eq
  have := v.isLt
  simp only [le16, loByte, hiByte, BitVec.toNat_append, BitVec.toNat_setWidth, BitVec.toNat_ushiftRight,
    Nat.shiftRight_eq_div_pow]
  rw [← Nat.shiftLeft_add_eq_or_of_lt (by omega), Nat.shiftLeft_eq]
  omega

@[simp] theorem loByte_le16 (lo hi : Byte) : loByte (le16 lo hi) = lo := by
  apply BitVec.eq_of_toNat_eq
  have h1 := lo.isLt
  simp only [le16, loByte, BitVec.toNat_append, BitVec.toNat_setWidth]
  rw [← Nat.shiftLeft_add_eq_or_of_lt h1, Nat.shiftLeft_eq]
  omega

@[simp] theorem hiByte_le16 (lo hi : Byte) : hiByte (le16 lo hi) = hi := by
  apply BitVec.eq_of_toNat_eq
  have h1 := lo.isLt
  have h2 := hi.isLt
  simp only [le16, hiByte, BitVec.toNat_append, BitVec.toNat_setWidth, BitVec.toNat_ushiftRight,
    Nat.shiftRight_eq_div_pow]
  rw [← Nat.shiftLeft_add_eq_or_of_lt h1, Nat.shiftLeft_eq]
  omega

/-- `cw` (R113): `comp` in bit 15, `width` below it. -/
theorem partWord_toNat (comp : Bool) (width : BitVec 15) :
    (partWord comp width).toNat = 32768 * comp.toNat + width.toNat := by
  show (BitVec.ofBool comp ++ width).toNat = _
  rw [BitVec.toNat_append, ← Nat.shiftLeft_add_eq_or_of_lt width.isLt, Nat.shiftLeft_eq]
  cases comp <;> simp

theorem partWord_msb (comp : Bool) (width : BitVec 15) : (partWord comp width).msb = comp := by
  have := width.isLt
  rw [BitVec.msb_eq_decide, partWord_toNat]
  cases comp <;> simp; omega

theorem partWord_width (comp : Bool) (width : BitVec 15) : (partWord comp width).setWidth 15 = width := by
  apply BitVec.eq_of_toNat_eq
  have := width.isLt
  rw [BitVec.toNat_setWidth, partWord_toNat]
  cases comp <;> simp <;> omega

/-- The command byte of a repeat run (R115): bit 7 set, `c` below it. -/
theorem repByte_toNat (c : BitVec 7) : (1#1 ++ c : BitVec 8).toNat = 128 + c.toNat := by
  show (1#1 ++ c).toNat = _
  rw [BitVec.toNat_append, ← Nat.shiftLeft_add_eq_or_of_lt c.isLt, Nat.shiftLeft_eq]
  simp

theorem repByte_msb (c : BitVec 7) : (1#1 ++ c : BitVec 8).msb = true := by
  rw [BitVec.msb_eq_decide, repByte_toNat]; simp

theorem repByte_low (c : BitVec 7) : (1#1 ++ c : BitVec 8).setWidth 7 = c := by
  apply BitVec.eq_of_toNat_eq
  have := c.isLt
  rw [BitVec.toNat_setWidth, repByte_toNat]; omega

theorem takeHalves_encode (es : List Half) (rest : List Byte) :
    takeHalves es.length ((es.map halfBytes).flatten ++ rest) = .ok (es, rest) := by
  induction es with
  | nil => rfl
  | cons e es ih =>
    simp only [List.length_cons, List.map_cons, List.flatten_cons, halfBytes, List.cons_append, takeHalves,
      List.nil_append, ih, le16_halfBytes]

theorem takeColors_encode (cs : List Color) (rest : List Byte) :
    takeColors cs.length ((cs.map Color.bytes).flatten ++ rest) = some (cs, rest) := by
  induction cs with
  | nil => rfl
  | cons c cs ih =>
    simp only [List.length_cons, List.map_cons, List.flatten_cons, Color.bytes, List.cons_append, takeColors,
      List.nil_append, ih]

theorem takeBytes_append (vs rest : List Byte) :
    takeBytes vs.length (vs ++ rest) = some (vs, rest) := by
  induction vs with
  | nil => rfl
  | cons v vs ih => simp only [List.length_cons, List.cons_append, takeBytes, ih]

/-- A run cut short has read every byte that is left (R225, R226). -/
theorem decodeRle_short {bs : List Byte} {k : Nat} (h : decodeRle bs = .error (.short k)) :
    k = bs.length := by
  rcases bs with _ | ⟨cmd, rest⟩
  · cases h; rfl
  · simp only [decodeRle] at h
    split at h
    · cases rest <;> cases h
      rfl
    · split at h <;> cases h
      simp [Nat.add_comm]

/-- A data item of a part cut short has read every byte that is left. -/
theorem decode_data_short {ctx : Ctx} {bs : List Byte} {k : Nat} (hc : ctx = .pair ∨ ctx = .rle)
    (h : decode ctx bs = .error (.short k)) : k = bs.length := by
  rcases hc with rfl | rfl
  · cases bs <;> cases h
    rfl
  · exact decodeRle_short h

/-- The table of R112 and R120 reads back what the encoder wrote. -/
theorem decodeEntries_encode (mk : List Half → Instr) {entries : List Half} (h : entriesWf entries = true)
    (rest : List Byte) :
    decodeEntries mk ((entries.map halfBytes).flatten ++ rest) = .ok (mk entries, rest) := by
  cases entries with
  | nil => cases h
  | cons e es =>
    have hlen : max (e.toNat / 2) 1 - 1 = es.length := by simp [entriesWf] at h; omega
    simp only [List.map_cons, List.flatten_cons, halfBytes, List.cons_append, List.nil_append, decodeEntries,
      le16_halfBytes, hlen, takeHalves_encode]

end Sys2Proof
end

