-- ==== Sys2Proof/Laws/Memory.lean ====
section
/-! SUPPORT. The laws of memory: read after write, the canonical form is kept by every operation, and
what a buffer holding exactly its bytes answers. -/

namespace Sys2Proof.Machine

theorem Memory.read_write_same (m : Memory) (a : Nat) (v : Byte) : (m.write a v).read a = some v := by
  induction m with
  | nil => simp [Memory.write, Memory.read]
  | cons c m ih =>
    obtain ⟨x, b⟩ := c
    simp only [Memory.write]
    split
    · simp [Memory.read]
    · split
      · simp [Memory.read]
      · rename_i hx; simp [Memory.read, hx, ih]

theorem Memory.read_write_ne (m : Memory) {a y : Nat} (v : Byte) (h : y ≠ a) :
    (m.write a v).read y = m.read y := by
  induction m with
  | nil => simp [Memory.write, Memory.read, h]
  | cons c m ih =>
    obtain ⟨x, b⟩ := c
    simp only [Memory.write]
    split
    · simp [Memory.read, h]
    · split
      · rename_i hx; subst hx; simp [Memory.read, h]
      · simp [Memory.read, ih]

/-- A write keeps the addresses strictly rising. -/
theorem Memory.wf_write {m : Memory} (h : m.wf = true) (a : Nat) (v : Byte) : (m.write a v).wf = true := by
  induction m with
  | nil => simp [Memory.write, Memory.wf]
  | cons c m ih =>
    obtain ⟨x, b⟩ := c
    simp only [Memory.write]
    split
    · rename_i hlt; simp [Memory.wf] at h ⊢; exact ⟨hlt, h⟩
    · split
      · rename_i hx; subst hx; simpa [Memory.wf] using h
      · rename_i hlt hne
        have hm : Memory.wf m = true := by
          unfold Memory.wf at h
          simp at h; exact h.2
        have := ih hm
        cases m with
        | nil => simp [Memory.write, Memory.wf]; omega
        | cons c' m' =>
          obtain ⟨x', b'⟩ := c'
          have hx : x < x' := by simp [Memory.wf] at h; exact h.1
          simp only [Memory.write] at this ⊢
          split
          · rename_i h1; simp only [h1, if_true] at this
            simp only [Memory.wf] at this ⊢; simp at this ⊢; exact ⟨by omega, this⟩
          · rename_i h1
            split
            · rename_i h2; subst h2; simp only [h1, if_false, if_true] at this
              simp only [Memory.wf] at this ⊢; simp at this ⊢; exact ⟨hx, this⟩
            · rename_i h2; simp only [h1, h2, if_false] at this
              unfold Memory.wf; simp [hx, this]

theorem Memory.map_fst_ofBytes (a : Nat) (bs : List Byte) :
    (Memory.ofBytes a bs).map Prod.fst = List.range' a bs.length := by
  induction bs generalizing a with
  | nil => rfl
  | cons b bs ih => simp [Memory.ofBytes, ih, List.range'_succ]

/-- The bytes a launch loads fill exactly their range. -/
theorem Memory.exact_ofBytes (bs : List Byte) : (Memory.ofBytes 0 bs).exact bs.length := by
  simp [Memory.exact, Memory.map_fst_ofBytes, List.range_eq_range']

theorem Memory.read_ofBytes (a x : Nat) (bs : List Byte) :
    (Memory.ofBytes a bs).read x = if x < a then none else bs[x - a]? := by
  induction bs generalizing a with
  | nil => simp [Memory.ofBytes, Memory.read]
  | cons b bs ih =>
    simp only [Memory.ofBytes, Memory.read, ih]
    by_cases hx : x = a
    · simp [hx]
    · by_cases hlt : x < a
      · simp [hx, hlt, Nat.lt_succ_of_lt hlt]
      · have : ¬ x < a + 1 := by omega
        simp only [hx, hlt, this, if_false]
        rw [show x - a = (x - (a + 1)) + 1 by omega]; simp

theorem Memory.read_isSome_iff (m : Memory) (x : Nat) :
    (m.read x).isSome = true ↔ x ∈ m.map Prod.fst := by
  induction m with
  | nil => simp [Memory.read]
  | cons c m ih =>
    obtain ⟨a, b⟩ := c
    by_cases hx : x = a
    · simp [Memory.read, hx]
    · simp [Memory.read, hx, ih]

/-- A buffer that holds exactly its bytes has a byte below its length and none above. -/
theorem Memory.exact.isSome_iff {m : Memory} {n : Nat} (h : m.exact n) (x : Nat) :
    (m.read x).isSome = true ↔ x < n := by
  rw [Memory.read_isSome_iff, h, List.mem_range]

theorem Memory.exact.filled {m : Memory} {n : Nat} (h : m.exact n) : m.filled n :=
  fun a ha => (h.isSome_iff a).mpr ha

/-- An append keeps a buffer exact. -/
theorem Memory.exact.write {m : Memory} {n : Nat} (h : m.exact n) (v : Byte) :
    (Memory.write m n v).exact (n + 1) := by
  have key : ∀ (m : Memory) (k : Nat), m.map Prod.fst = List.range' k (n - k) → k ≤ n →
      (Memory.write m n v).map Prod.fst = List.range' k (n + 1 - k) := by
    intro m
    induction m with
    | nil =>
      intro k hk hle
      have : n - k = 0 := by simpa using (congrArg List.length hk).symm
      have : k = n := by omega
      subst this; simp [Memory.write]
    | cons c m ih =>
      obtain ⟨x, b⟩ := c
      intro k hk hle
      rcases Nat.eq_or_lt_of_le hle with rfl | hlt
      · simp at hk
      · rw [show n - k = (n - (k + 1)) + 1 by omega, List.range'_succ] at hk
        simp only [List.map_cons, List.cons.injEq] at hk
        obtain ⟨rfl, hk⟩ := hk
        have := ih (x + 1) hk (by omega)
        simp only [Memory.write, show ¬ n < x by omega, show ¬ n = x by omega, if_false, List.map_cons, this]
        rw [show n + 1 - x = (n + 1 - (x + 1)) + 1 by omega, List.range'_succ]
  have := key m 0 (by simpa [Memory.exact, List.range_eq_range'] using h) (Nat.zero_le _)
  simpa [Memory.exact, List.range_eq_range'] using this

theorem Memory.wf_of_range (m : Memory) (k n : Nat) (h : m.map Prod.fst = List.range' k n) :
    m.wf = true := by
  induction m generalizing k n with
  | nil => rfl
  | cons c m ih =>
    obtain ⟨x, b⟩ := c
    cases n with
    | zero => simp at h
    | succ n =>
      rw [List.range'_succ] at h
      simp only [List.map_cons, List.cons.injEq] at h
      obtain ⟨rfl, h⟩ := h
      have := ih (x + 1) n h
      unfold Memory.wf
      cases m with
      | nil => simp [Memory.wf]
      | cons c' m' =>
        obtain ⟨x', b'⟩ := c'
        cases n with
        | zero => simp at h
        | succ n =>
          rw [List.range'_succ] at h
          simp only [List.map_cons, List.cons.injEq] at h
          obtain ⟨rfl, -⟩ := h
          simp [this]

/-- An exact buffer is in canonical form; so are, then, the buffers of every well-kept state. -/
theorem Memory.exact.wf {m : Memory} {n : Nat} (h : m.exact n) : m.wf = true :=
  Memory.wf_of_range m 0 n (by simpa [Memory.exact, List.range_eq_range'] using h)

/-- What a launch loads is in canonical form. -/
theorem Memory.wf_ofBytes (a : Nat) (bs : List Byte) : (Memory.ofBytes a bs).wf = true :=
  Memory.wf_of_range _ a bs.length (Memory.map_fst_ofBytes a bs)

/-- Reset memory is in canonical form. -/
theorem reset_memory_wf :
    State.reset.hsqd.ibuf.wf = true ∧ State.reset.hsqd.obuf.wf = true ∧
    State.reset.imgd.pbuf.wf = true ∧ State.reset.txtp.pbuf.wf = true := by decide

theorem Memory.slice_length {m : Memory} {a n : Nat} {bs : List Byte} (h : m.slice a n = some bs) :
    bs.length = n := by
  induction n generalizing a bs with
  | zero => simp [Memory.slice] at h; simp [← h]
  | succ n ih =>
    unfold Memory.slice at h
    split at h
    · rename_i h2; cases h; simp [ih h2]
    · cases h

theorem Memory.slice_isSome {m : Memory} {a n : Nat}
    (h : ∀ x, a ≤ x → x < a + n → (m.read x).isSome = true) : (m.slice a n).isSome = true := by
  induction n generalizing a with
  | zero => rfl
  | succ n ih =>
    obtain ⟨b, hb⟩ := Option.isSome_iff_exists.mp (h a (Nat.le_refl _) (by omega))
    obtain ⟨bs, hbs⟩ := Option.isSome_iff_exists.mp
      (ih (a := a + 1) (fun x h1 h2 => h x (by omega) (by omega)))
    simp [Memory.slice, hb, hbs]

theorem Memory.slice_getElem? {m : Memory} {a n : Nat} {bs : List Byte} (h : m.slice a n = some bs)
    {j : Nat} (hj : j < n) : bs[j]? = m.read (a + j) := by
  induction n generalizing a bs j with
  | zero => omega
  | succ n ih =>
    unfold Memory.slice at h
    split at h
    · rename_i b bs' h1 h2
      cases h
      cases j with
      | zero => simp [h1]
      | succ j => simpa [Nat.add_assoc, Nat.add_comm 1 j] using ih h2 (j := j) (by omega)
    · cases h

/-- A window of a filled buffer is its bytes: it never stops, and it is as long as the range. -/
theorem window_ok {sp : Space} {m : Memory} {n a lim : Nat} (h : m.filled n) (hl : lim ≤ n) :
    ∃ bs, window sp m a lim = .ok bs ∧ bs.length = lim - a ∧
      ∀ j, j < lim - a → bs[j]? = m.read (a + j) := by
  obtain ⟨bs, hbs⟩ := Option.isSome_iff_exists.mp
    (Memory.slice_isSome (m := m) (a := a) (n := lim - a)
      (fun x h1 h2 => h x (by omega)))
  exact ⟨bs, by simp [window, hbs], Memory.slice_length hbs, fun j hj => Memory.slice_getElem? hbs hj⟩

theorem window_length {sp : Space} {m : Memory} {a lim : Nat} {bs : List Byte}
    (h : window sp m a lim = .ok bs) : bs.length = lim - a := by
  unfold window at h
  split at h
  · rename_i hs; cases h; exact Memory.slice_length hs
  · cases h

/-- Reading back what a launch loaded gives the loaded bytes. -/
theorem window_ofBytes (sp : Space) (bs : List Byte) :
    window sp (Memory.ofBytes 0 bs) 0 bs.length = .ok bs := by
  obtain ⟨cs, hcs, hlen, hget⟩ :=
    window_ok (sp := sp) (a := 0) (Memory.exact_ofBytes bs).filled (Nat.le_refl _)
  rw [hcs]; congr 1
  apply List.ext_getElem?
  intro j
  by_cases hj : j < bs.length
  · rw [hget j (by simpa using hj), Memory.read_ofBytes]; simp
  · rw [List.getElem?_eq_none (by omega), List.getElem?_eq_none (by omega)]

end Sys2Proof.Machine
end

