-- ==== Sys2Proof/Laws/State.lean ====
section
/-! SUPPORT. The field lemmas of the state updates, and what the liftings of an engine's operation can
answer, said once. -/

namespace Sys2Proof.Machine

@[simp] theorem State.setHsqd_hsqd (s : State) (h : Hsqd) : (s.setHsqd h).hsqd = h := rfl
@[simp] theorem State.setHsqd_imgd (s : State) (h : Hsqd) : (s.setHsqd h).imgd = s.imgd := rfl
@[simp] theorem State.setHsqd_palc (s : State) (h : Hsqd) : (s.setHsqd h).palc = s.palc := rfl
@[simp] theorem State.setHsqd_txtp (s : State) (h : Hsqd) : (s.setHsqd h).txtp = s.txtp := rfl
@[simp] theorem State.setHsqd_caps (s : State) (h : Hsqd) : (s.setHsqd h).caps = s.caps := rfl
@[simp] theorem State.setHsqd_hostq (s : State) (h : Hsqd) : (s.setHsqd h).hostq = s.hostq := rfl

@[simp] theorem State.setImgd_hsqd (s : State) (m : Imgd) : (s.setImgd m).hsqd = s.hsqd := rfl
@[simp] theorem State.setImgd_imgd (s : State) (m : Imgd) : (s.setImgd m).imgd = m := rfl
@[simp] theorem State.setImgd_palc (s : State) (m : Imgd) : (s.setImgd m).palc = s.palc := rfl
@[simp] theorem State.setImgd_txtp (s : State) (m : Imgd) : (s.setImgd m).txtp = s.txtp := rfl
@[simp] theorem State.setImgd_caps (s : State) (m : Imgd) : (s.setImgd m).caps = s.caps := rfl
@[simp] theorem State.setImgd_hostq (s : State) (m : Imgd) : (s.setImgd m).hostq = s.hostq := rfl

@[simp] theorem State.setTxtp_hsqd (s : State) (x : Txtp) : (s.setTxtp x).hsqd = s.hsqd := rfl
@[simp] theorem State.setTxtp_imgd (s : State) (x : Txtp) : (s.setTxtp x).imgd = s.imgd := rfl
@[simp] theorem State.setTxtp_palc (s : State) (x : Txtp) : (s.setTxtp x).palc = s.palc := rfl
@[simp] theorem State.setTxtp_txtp (s : State) (x : Txtp) : (s.setTxtp x).txtp = x := rfl
@[simp] theorem State.setTxtp_caps (s : State) (x : Txtp) : (s.setTxtp x).caps = s.caps := rfl
@[simp] theorem State.setTxtp_hostq (s : State) (x : Txtp) : (s.setTxtp x).hostq = s.hostq := rfl

@[simp] theorem State.setPalc_hsqd (s : State) (p : Palc) : (s.setPalc p).hsqd = s.hsqd := rfl
@[simp] theorem State.setPalc_imgd (s : State) (p : Palc) : (s.setPalc p).imgd = s.imgd := rfl
@[simp] theorem State.setPalc_palc (s : State) (p : Palc) : (s.setPalc p).palc = p := rfl
@[simp] theorem State.setPalc_txtp (s : State) (p : Palc) : (s.setPalc p).txtp = s.txtp := rfl
@[simp] theorem State.setPalc_caps (s : State) (p : Palc) : (s.setPalc p).caps = s.caps := rfl
@[simp] theorem State.setPalc_hostq (s : State) (p : Palc) : (s.setPalc p).hostq = s.hostq := rfl

@[simp] theorem State.setHostq_hsqd (s : State) (q : List HostMove) : (s.setHostq q).hsqd = s.hsqd := rfl
@[simp] theorem State.setHostq_imgd (s : State) (q : List HostMove) : (s.setHostq q).imgd = s.imgd := rfl
@[simp] theorem State.setHostq_palc (s : State) (q : List HostMove) : (s.setHostq q).palc = s.palc := rfl
@[simp] theorem State.setHostq_txtp (s : State) (q : List HostMove) : (s.setHostq q).txtp = s.txtp := rfl
@[simp] theorem State.setHostq_caps (s : State) (q : List HostMove) : (s.setHostq q).caps = s.caps := rfl
@[simp] theorem State.setHostq_hostq (s : State) (q : List HostMove) : (s.setHostq q).hostq = q := rfl

@[simp] theorem State.setHsqd_setHsqd (s : State) (h h' : Hsqd) :
    (s.setHsqd h).setHsqd h' = s.setHsqd h' := rfl
@[simp] theorem State.setImgd_setImgd (s : State) (m m' : Imgd) :
    (s.setImgd m).setImgd m' = s.setImgd m' := rfl
@[simp] theorem State.setTxtp_setTxtp (s : State) (x x' : Txtp) :
    (s.setTxtp x).setTxtp x' = s.setTxtp x' := rfl
@[simp] theorem State.setHsqd_self (s : State) : s.setHsqd s.hsqd = s := rfl
@[simp] theorem State.setImgd_self (s : State) : s.setImgd s.imgd = s := rfl
@[simp] theorem State.setTxtp_self (s : State) : s.setTxtp s.txtp = s := rfl

/-- The lifting of an HSQD operation answers a next state exactly as the operation does. -/
theorem onHsqd_next {f : Caps → Hsqd → Except Fault Hsqd} {s t : State} :
    onHsqd f s = .next t ↔ ∃ h, f s.caps s.hsqd = .ok h ∧ t = s.setHsqd h := by
  unfold onHsqd
  split <;> rename_i hf <;> simp [hf, eq_comm]

/-- The lifting of an IMGD operation answers a next state exactly as the operation does. -/
theorem onImgd_next {f : Caps → Imgd → Except Fault Imgd} {s t : State} :
    onImgd f s = .next t ↔ ∃ m, f s.caps s.imgd = .ok m ∧ t = s.setImgd m := by
  unfold onImgd
  split <;> rename_i hf <;> simp [hf, eq_comm]

/-- The lifting of a TXTP operation answers a next state exactly as the operation does. -/
theorem onTxtp_next {f : Caps → Txtp → Except Fault Txtp} {s t : State} :
    onTxtp f s = .next t ↔ ∃ x, f s.caps s.txtp = .ok x ∧ t = s.setTxtp x := by
  unfold onTxtp
  split <;> rename_i hf <;> simp [hf, eq_comm]

theorem onHsqd_ok {f : Caps → Hsqd → Except Fault Hsqd} {s : State} {h : Hsqd}
    (hf : f s.caps s.hsqd = .ok h) : onHsqd f s = .next (s.setHsqd h) := by
  simp [onHsqd, hf]

theorem onImgd_ok {f : Caps → Imgd → Except Fault Imgd} {s : State} {m : Imgd}
    (hf : f s.caps s.imgd = .ok m) : onImgd f s = .next (s.setImgd m) := by
  simp [onImgd, hf]

theorem onTxtp_ok {f : Caps → Txtp → Except Fault Txtp} {s : State} {x : Txtp}
    (hf : f s.caps s.txtp = .ok x) : onTxtp f s = .next (s.setTxtp x) := by
  simp [onTxtp, hf]

end Sys2Proof.Machine
end

