-- ==== Sys2Proof/Laws/Fetch.lean ====
section
/-! SUPPORT. What fetching does, said once: the prefix code of R105 and the consumption of its bits
(R145, R146), and the dispatch of a step to an engine. -/

namespace Sys2Proof

/-- R105: a kind is selected by its code and by nothing else. -/
theorem classify_eq_some {bits : List Bool} {k : PrefixKind} :
    classify bits = some k ↔ ∃ more, bits = k.bits ++ more := by
  rcases bits with _ | ⟨a, _ | ⟨b, _ | ⟨c, _ | ⟨d, r⟩⟩⟩⟩ <;> cases k <;> try cases a <;> try cases b
  all_goals simp [classify, PrefixKind.bits, eq_comm, and_comm]

/-- A proper beginning of a code selects nothing yet. -/
theorem classify_proper {p more : List Bool} {k : PrefixKind} (h : p ++ more = k.bits)
    (hl : p.length < k.bits.length) : classify p = none := by
  cases hc : classify p with
  | none => rfl
  | some k' =>
    exfalso
    obtain ⟨more', rfl⟩ := classify_eq_some.mp hc
    rw [List.append_assoc] at h
    have h1 := classify_eq_some.mpr ⟨more' ++ more, h.symm⟩
    have h2 := classify_eq_some.mpr ⟨[], (List.append_nil k.bits).symm⟩
    rw [h1] at h2
    injection h2 with h2
    subst h2
    simp at hl

end Sys2Proof

namespace Sys2Proof.Machine

theorem bufferBits_succ (bb : Half) (n : Nat) :
    bufferBits bb (n + 1) = bb.getLsbD 0 :: bufferBits (bb >>> 1) n := by
  simp [bufferBits, List.range_succ_eq_map, Nat.add_comm]

theorem bufferBits_length (bb : Half) (n : Nat) : (bufferBits bb n).length = n := by simp [bufferBits]

/-- Taking bits stops as soon as a code is complete. -/
theorem takePrefix_of_classify {n : Nat} {bb : Half} {p : List Bool} (h : (classify p).isSome = true) :
    takePrefix n bb p = (p, bb, n) := by
  cases n with
  | zero => rfl
  | succ n => simp [takePrefix, h]

/-- Bits that do not complete a code are all consumed. -/
theorem takePrefix_none {n : Nat} {bb : Half} {p : List Bool}
    (h : classify (p ++ bufferBits bb n) = none) :
    takePrefix n bb p = (p ++ bufferBits bb n, bb >>> n, 0) := by
  induction n generalizing bb p with
  | zero => simp [takePrefix, bufferBits]
  | succ n ih =>
    have hp : (classify p).isSome = false := by
      cases hc : classify p with
      | none => rfl
      | some k =>
        obtain ⟨more, rfl⟩ := classify_eq_some.mp hc
        rw [List.append_assoc, classify_eq_some.mpr ⟨_, rfl⟩] at h
        cases h
    rw [bufferBits_succ] at h ⊢
    have := ih (bb := bb >>> 1) (p := p ++ [bb.getLsbD 0]) (by simpa using h)
    simp only [takePrefix, hp, Bool.false_eq_true, if_false, this, List.append_assoc, List.cons_append,
      List.nil_append, Nat.add_comm n 1, BitVec.shiftRight_add]

/-- Decode (R146) consumes exactly the code, and leaves the bits after it. -/
theorem takePrefix_some {k : PrefixKind} {n : Nat} {bb : Half} {p more : List Bool}
    (hl : p.length < k.bits.length) (h : p ++ bufferBits bb n = k.bits ++ more) :
    takePrefix n bb p = (k.bits, bb >>> (k.bits.length - p.length), more.length) := by
  induction n generalizing bb p with
  | zero =>
    have := congrArg List.length h
    simp [bufferBits] at this
    omega
  | succ n ih =>
    have hpre : p ++ k.bits.drop p.length = k.bits := by
      have := congrArg (List.take p.length) h
      rw [List.take_left, List.take_append_of_le_length (by omega)] at this
      conv_lhs => rw [this, List.length_take, Nat.min_eq_left (by omega)]
      exact List.take_append_drop _ _
    have hp := classify_proper hpre hl
    rw [bufferBits_succ] at h
    have hstep : takePrefix (n + 1) bb p = takePrefix n (bb >>> 1) (p ++ [bb.getLsbD 0]) := by
      simp [takePrefix, hp]
    rw [hstep]
    by_cases hlast : p.length + 1 < k.bits.length
    · rw [ih (by simpa using hlast) (by simpa using h)]
      simp only [List.length_append, List.length_cons, List.length_nil]
      rw [← BitVec.shiftRight_add, show 1 + (k.bits.length - (p.length + (0 + 1))) = k.bits.length - p.length by omega]
    · have hk : p ++ [bb.getLsbD 0] = k.bits := by
        have := congrArg (List.take (p.length + 1)) h
        rw [List.take_append_of_le_length (l₁ := k.bits) (by omega),
          List.take_of_length_le (l := k.bits) (by omega)] at this
        rw [← this, List.take_append]
        simp
      have hm : n = more.length := by
        have := congrArg List.length h
        simp [bufferBits_length] at this
        omega
      rw [hk, takePrefix_of_classify (by rw [classify_eq_some.mpr ⟨[], (List.append_nil _).symm⟩]; rfl)]
      rw [show k.bits.length - p.length = 1 by omega, hm]

/-- An instruction that is begun writes `kind`, `len` and `raw`, and nothing else. -/
theorem begun_eq (ctx : Ctx) (bs : List Byte) (h : Hsqd) :
    h.begun ctx bs =
      { h with kind := (h.begun ctx bs).kind, len := (h.begun ctx bs).len, raw := (h.begun ctx bs).raw } := by
  unfold Hsqd.begun
  split <;> rfl

/-- A step in which the host lets engine `e` move is that engine's step. -/
theorem step_run {s : State} {e : Engine} {q : List HostMove} (h : s.hostq = .run e :: q) :
    step s = engineStep e (s.setHostq q) := by
  simp [step, h, hostStep]

theorem engineStep_hsqd {s : State} (h : s.hsqd.st.status = .running) :
    engineStep .hsqd s = (fetchHsqd s.hsqd).run s.setHsqd := by simp [engineStep, statusOf, h]

theorem engineStep_imgd {s : State} (h : s.imgd.st.status = .running) :
    engineStep .imgd s = (fetchImgd s.caps s.imgd).run s.setImgd := by simp [engineStep, statusOf, h]

theorem engineStep_txtp {s : State} (h : s.txtp.st.status = .running) :
    engineStep .txtp s = (fetchTxtp s.caps s.txtp).run s.setTxtp := by simp [engineStep, statusOf, h]

end Sys2Proof.Machine
end

