-- ==== Sys2Proof/Laws/Host.lean ====
section
/-! SUPPORT. What a launch can answer, said once: when it is refused, and where it goes otherwise (R15, R85,
R328, R352). -/

namespace Sys2Proof.Machine

/-- No engine is active exactly when none is RUNNING. -/
theorem activeEngine_eq_none {s : State} :
    activeEngine s = none ↔ ∀ e, (statusOf e s).status ≠ .running := by
  constructor
  · intro h e
    unfold activeEngine at h
    split at h <;> [cases h; split at h] <;> [cases h; split at h] <;> [cases h; cases e <;> assumption]
  · intro h
    have h1 := h .hsqd
    have h2 := h .imgd
    have h3 := h .txtp
    simp_all [activeEngine, statusOf]

/-- The active engine is RUNNING. -/
theorem activeEngine_running {s : State} {e : Engine} (h : activeEngine s = some e) :
    (statusOf e s).status = .running := by
  unfold activeEngine at h
  split at h <;> [skip; split at h] <;> [skip; skip; split at h] <;> cases h <;> assumption

/-- With an engine RUNNING there is an active one. -/
theorem activeEngine_of_running {s : State} {e : Engine} (h : (statusOf e s).status = .running) :
    ∃ active, activeEngine s = some active := by
  cases ha : activeEngine s with
  | some active => exact ⟨active, rfl⟩
  | none => exact absurd h (activeEngine_eq_none.mp ha e)

/-- A launch is not refused for its engine exactly when no engine is RUNNING. -/
theorem launchRefusal_eq_none {e : Engine} {s : State} :
    launchRefusal e s = none ↔ ∀ e', (statusOf e' s).status ≠ .running := by
  rw [← activeEngine_eq_none]
  unfold launchRefusal
  split <;> [simp_all; skip]
  split <;> [simp_all; split] <;> simp_all

/-- A launch beside another RUNNING engine names the active one (R15, R328). -/
theorem launchRefusal_other {e active : Engine} {s : State} (h : (statusOf e s).status ≠ .running)
    (hb : ¬(e = .hsqd ∧ boundRunning s = true)) (ha : activeEngine s = some active) :
    launchRefusal e s = some (.otherRunning active) := by
  simp [launchRefusal, ha, h, hb]

/-- A launch that is not refused goes on as its request says. -/
theorem execLaunch_of_idle {req : LaunchReq} {s : State} (h : ∀ e, (statusOf e s).status ≠ .running) :
    execLaunch req s =
      match req with
      | .hsqd bytes verify => .next (s.setHsqd (launchedHsqd s.caps bytes verify))
      | .imgd p => withPayload p s s.launchImgd
      | .txtp p charset itab =>
        withPayload p s (fun bs bound => s.setTxtp (launchedTxtp s.caps bs bound charset itab)) := by
  cases req <;> simp only [execLaunch, launchRefusal_eq_none.mpr h]

@[simp] theorem launchImgd_imgd (s : State) (bytes : List Byte) (bound : Bool) :
    (s.launchImgd bytes bound).imgd = launchedImgd s.caps bytes bound := rfl

@[simp] theorem launchImgd_palc (s : State) (bytes : List Byte) (bound : Bool) :
    (s.launchImgd bytes bound).palc = .reset := rfl

@[simp] theorem launchImgd_hsqd (s : State) (bytes : List Byte) (bound : Bool) :
    (s.launchImgd bytes bound).hsqd = s.hsqd := rfl

@[simp] theorem launchImgd_txtp (s : State) (bytes : List Byte) (bound : Bool) :
    (s.launchImgd bytes bound).txtp = s.txtp := rfl

@[simp] theorem launchImgd_caps (s : State) (bytes : List Byte) (bound : Bool) :
    (s.launchImgd bytes bound).caps = s.caps := rfl

@[simp] theorem launchImgd_hostq (s : State) (bytes : List Byte) (bound : Bool) :
    (s.launchImgd bytes bound).hostq = s.hostq := rfl

end Sys2Proof.Machine
end

