-- ==== Sys2Proof/Laws/Hsqd.lean ====
section
/-! SUPPORT. What the operations of HSQD can do, said once: appending, the back-reference copy, and the
consumption of prefix bits. -/

namespace Sys2Proof.Machine

@[simp] theorem Hsqd.push_olen (h : Hsqd) (b : Byte) : (h.push b).olen = h.olen + 1 := rfl
@[simp] theorem Hsqd.push_obuf (h : Hsqd) (b : Byte) : (h.push b).obuf = h.obuf.write h.olen b := rfl
@[simp] theorem Hsqd.push_pos (h : Hsqd) (b : Byte) : (h.push b).pos = h.pos := rfl

/-- A capacity that is not exceeded after `k` more entries is not full before one of them. -/
theorem full_of_exceeds {cap : Option Nat} {n k : Nat} (h : exceeds cap (n + k) = false) (hk : 1 ≤ k) :
    full cap n = false := by
  cases cap with
  | none => rfl
  | some c => simp [exceeds, full] at *; omega

/-- A store that is not full may take one entry. -/
theorem exceeds_succ_of_full {cap : Option Nat} {n : Nat} (h : full cap n = false) :
    exceeds cap (n + 1) = false := by
  cases cap with
  | none => rfl
  | some c => simp [exceeds, full] at *; omega

/-- `Append` (R155): the fault of a full buffer, or one byte more. -/
theorem Hsqd.append_cases (caps : Caps) (b : Byte) (h : Hsqd) :
    (full caps.outCap h.olen = true ∧ h.append caps b = h.fatal .capacityExceeded h.pos) ∨
    (full caps.outCap h.olen = false ∧ h.append caps b = h.push b) := by
  unfold Hsqd.append
  cases hf : full caps.outCap h.olen <;> simp

/-- The copy loop, byte by byte: each byte appended equals the byte `back` before it in the final
buffer. -/
theorem Hsqd.backCopy_serial {caps : Caps} {back : Nat} (len : Nat) {h : Hsqd} (hb : 1 ≤ back)
    (hle : back ≤ h.olen) (hfill : h.obuf.filled h.olen)
    (hcap : exceeds caps.outCap (h.olen + len) = false) :
    ∃ m : Memory, Hsqd.backCopy caps (-(back : Int)) len h = .ok { h with obuf := m, olen := h.olen + len } ∧
      (∀ j < len, m.read (h.olen + j) = m.read (h.olen + j - back)) ∧
      (∀ a, a < h.olen ∨ h.olen + len ≤ a → m.read a = h.obuf.read a) := by
  induction len generalizing h with
  | zero => exact ⟨h.obuf, by simp [Hsqd.backCopy], by simp, by simp⟩
  | succ len ih =>
    have hsrc : ((h.olen : Int) + -(back : Int)).toNat = h.olen - back := by omega
    have hnn : ¬ ((h.olen : Int) + -(back : Int) < 0) := by omega
    obtain ⟨b, hr⟩ := Option.isSome_iff_exists.mp (hfill (h.olen - back) (by omega))
    have hfull := full_of_exceeds hcap (by omega)
    have hfill' : (h.push b).obuf.filled (h.push b).olen := by
      intro a ha
      simp only [Hsqd.push_olen, Hsqd.push_obuf] at ha ⊢
      by_cases hx : a = h.olen
      · subst hx; simp [Memory.read_write_same]
      · rw [Memory.read_write_ne _ _ hx]; exact hfill a (by omega)
    obtain ⟨m, hm, hser, hout⟩ := ih (h := h.push b) (by simp; omega) hfill'
      (by simpa [Nat.add_assoc, Nat.add_comm 1 len] using hcap)
    refine ⟨m, ?_, ?_, ?_⟩
    · unfold Hsqd.backCopy
      simp only [hnn, if_false, hsrc, hr, hfull, Bool.false_eq_true]
      rw [hm]; simp [Hsqd.push, Nat.add_assoc, Nat.add_comm 1 len]
    · intro j hj
      cases j with
      | zero =>
        rw [hout _ (by simp), hout _ (by simp)]
        simp only [Hsqd.push_obuf, Nat.add_zero, Memory.read_write_same]
        rw [Memory.read_write_ne _ _ (by omega), hr]
      | succ j =>
        have := hser j (by omega)
        simpa [Nat.add_assoc, Nat.add_comm 1 j] using this
    · intro a ha
      rw [hout a (by simp; omega)]
      simp only [Hsqd.push_obuf]
      exact Memory.read_write_ne _ _ (by omega)

/-- `BackCopy` (R153): with enough output to copy from and room for the copy, it appends `len` bytes, byte
`j` being byte `j mod back` of the last `back` bytes, and changes nothing else. -/
theorem Hsqd.backCopy_copies {caps : Caps} {back : Nat} (len : Nat) {h : Hsqd} (hb : 1 ≤ back)
    (hle : back ≤ h.olen) (hfill : h.obuf.filled h.olen)
    (hcap : exceeds caps.outCap (h.olen + len) = false) :
    ∃ m : Memory, Hsqd.backCopy caps (-(back : Int)) len h = .ok { h with obuf := m, olen := h.olen + len } ∧
      CopyResult h len back m := by
  obtain ⟨m, hm, hser, hout⟩ := Hsqd.backCopy_serial len hb hle hfill hcap
  refine ⟨m, hm, ?_, hout⟩
  intro j
  induction j using Nat.strong_induction_on with
  | _ j ih =>
    intro hj
    by_cases hlt : j < back
    · rw [hser j hj, Nat.mod_eq_of_lt hlt, hout _ (by omega)]
      congr 1; omega
    · rw [hser j hj, show h.olen + j - back = h.olen + (j - back) by omega,
        ih (j - back) (by omega) (by omega), Nat.mod_eq_sub_mod (a := j) (by omega)]

/-- Underflow (R154): the copy raises the fault and appends nothing. -/
theorem Hsqd.backCopy_underflow {caps : Caps} {dist : Int} {len : Nat} {h : Hsqd} (hlen : 1 ≤ len)
    (hneg : (h.olen : Int) + dist < 0) :
    Hsqd.backCopy caps dist len h = .ok (h.fatal .backRefUnderflow h.pos) := by
  cases len with
  | zero => omega
  | succ len => simp [Hsqd.backCopy, hneg]

/-- Whatever it answers, a copy changes `OBUF`, `olen` and the status registers alone, `OBUF` only grows,
and it stays exact and in its capacity. -/
theorem Hsqd.backCopy_frame {caps : Caps} {dist : Int} {len : Nat} {h h' : Hsqd}
    (hex : h.obuf.exact h.olen) (hcap : exceeds caps.outCap h.olen = false)
    (heq : Hsqd.backCopy caps dist len h = .ok h') :
    h' = { h with obuf := h'.obuf, olen := h'.olen, st := h'.st } ∧
    h.olen ≤ h'.olen ∧ (∀ a < h.olen, h'.obuf.read a = h.obuf.read a) ∧
    h'.obuf.exact h'.olen ∧ exceeds caps.outCap h'.olen = false ∧
    (h'.st = h.st ∨ h'.st.status = .fault) := by
  induction len generalizing h with
  | zero => cases heq; exact ⟨rfl, Nat.le_refl _, fun _ _ => rfl, hex, hcap, .inl rfl⟩
  | succ len ih =>
    unfold Hsqd.backCopy at heq
    simp only at heq
    split at heq
    · cases heq; exact ⟨rfl, Nat.le_refl _, fun _ _ => rfl, hex, hcap, .inr rfl⟩
    · split at heq
      · cases heq
      · rename_i b hr
        split at heq
        · cases heq; exact ⟨rfl, Nat.le_refl _, fun _ _ => rfl, hex, hcap, .inr rfl⟩
        · rename_i hfull
          have hfull : full caps.outCap h.olen = false := by simpa using hfull
          obtain ⟨h1, h2, h3, h4, h5, h6⟩ := ih (h := h.push b) (by simpa using hex.write b)
            (by simpa using exceeds_succ_of_full hfull) heq
          refine ⟨by rw [h1]; simp [Hsqd.push], by simp at h2; omega, ?_, h4, h5, by simpa [Hsqd.push] using h6⟩
          intro a ha
          rw [h3 a (by simp; omega)]
          simpa using Memory.read_write_ne h.obuf b (by omega)

/-- A copy never stops on a buffer that holds its bytes. -/
theorem Hsqd.backCopy_ok {caps : Caps} {dist : Int} (len : Nat) {h : Hsqd} (hd : dist < 0)
    (hex : h.obuf.exact h.olen) : ∃ h', Hsqd.backCopy caps dist len h = .ok h' := by
  induction len generalizing h with
  | zero => exact ⟨h, rfl⟩
  | succ len ih =>
    unfold Hsqd.backCopy
    simp only
    split
    · exact ⟨_, rfl⟩
    · rename_i hnn
      obtain ⟨b, hr⟩ := Option.isSome_iff_exists.mp
        ((hex.isSome_iff ((h.olen : Int) + dist).toNat).mpr (by omega))
      simp only [hr]
      split
      · exact ⟨_, rfl⟩
      · exact ih (h := h.push b) (by simpa using hex.write b)

theorem m0Dist_neg (d : Byte) : m0Dist d < 0 := by
  have := d.isLt; unfold m0Dist; omega

theorem m1Dist_neg (raw : Half) : m1Dist raw < 0 := by
  have := (dist13 raw).isLt; unfold m1Dist; omega

end Sys2Proof.Machine
end

