-- ==== Sys2Proof/Laws/Imgd.lean ====
section
/-! SUPPORT. What emitting pixels can do, said once: the pixel array and the column counter alone change,
and the array entry by entry. -/

namespace Sys2Proof.Machine

/-- Emitting a list of nibbles in turn. -/
def Imgd.emitAll : List Byte → Imgd → Imgd
  | [], m => m
  | nib :: ns, m => Imgd.emitAll ns (m.emit nib)

theorem Imgd.emitPairs_eq_emitAll (vs : List Byte) (m : Imgd) :
    Imgd.emitPairs vs m = Imgd.emitAll (nibbles vs) m := by
  induction vs generalizing m with
  | nil => rfl
  | cons v vs ih => simp [Imgd.emitPairs, Imgd.emitPair, ih, nibbles, Imgd.emitAll]

theorem nibbles_length (vs : List Byte) : (nibbles vs).length = 2 * vs.length := by
  induction vs with
  | nil => rfl
  | cons v vs ih => simp [nibbles] at ih ⊢; omega

/-- Emitting changes the pixel array and the column counter, which counts every nibble. -/
theorem Imgd.emitAll_eq (ns : List Byte) (m : Imgd) :
    Imgd.emitAll ns m = { m with pixels := (Imgd.emitAll ns m).pixels, x := m.x + ns.length } := by
  induction ns generalizing m with
  | nil => rfl
  | cons nib ns ih =>
    conv_lhs => rw [Imgd.emitAll, ih]
    simp [Imgd.emitAll, Imgd.emit, Nat.add_assoc, Nat.add_comm 1]

theorem Imgd.emit_pixels_length (nib : Byte) (m : Imgd) : (m.emit nib).pixels.length = m.pixels.length := by
  unfold Imgd.emit; dsimp only; split <;> simp

/-- R217, entry by entry. -/
theorem Imgd.emitAll_pixels (ns : List Byte) (m : Imgd) : EmitResult m ns (Imgd.emitAll ns m).pixels := by
  induction ns generalizing m with
  | nil => exact ⟨rfl, by intro j _; simp [Imgd.emitAll]⟩
  | cons nib ns ih =>
    obtain ⟨hlen, hpx⟩ := ih (m.emit nib)
    refine ⟨by rw [Imgd.emitAll, hlen, Imgd.emit_pixels_length], ?_⟩
    intro j hj
    rw [Imgd.emitAll, hpx j (by rw [Imgd.emit_pixels_length]; exact hj)]
    have hy : (m.emit nib).y = m.y := rfl
    have hw : (m.emit nib).width = m.width := rfl
    have hx : (m.emit nib).x = m.x + 1 := rfl
    rw [hy, hw, hx]
    have hset : (m.emit nib).pixels[j]? =
        if m.x < m.width.toNat ∧ nib ≠ 0 ∧ j = m.y * m.width.toNat + m.x then some (some nib)
        else m.pixels[j]? := by
      unfold Imgd.emit; dsimp only
      by_cases hc : m.x < m.width.toNat ∧ nib ≠ 0
      · rw [if_pos hc, List.getElem?_set]
        by_cases he : m.y * m.width.toNat + m.x = j
        · subst he; rw [if_pos rfl, if_pos hj, if_pos ⟨hc.1, hc.2, rfl⟩]
        · simp [he, Ne.symm he]
      · rw [if_neg hc, if_neg]; tauto
    generalize hk : m.y * m.width.toNat = k at *
    by_cases h0 : j = k + m.x
    · subst h0
      simp only [hset, show ¬ (k + (m.x + 1) ≤ k + m.x ∧ k + m.x < k + m.width.toNat) by omega, if_false,
        Nat.le_refl, Nat.sub_self, List.getElem?_cons_zero, true_and]
      by_cases hlt : m.x < m.width.toNat
      · by_cases hn : nib = 0 <;> simp [hlt, hn]
      · simp [hlt]
    · have hset' : (m.emit nib).pixels[j]? = m.pixels[j]? := by rw [hset, if_neg]; tauto
      by_cases hge : k + (m.x + 1) ≤ j
      · rw [show j - (k + m.x) = (j - (k + (m.x + 1))) + 1 by omega, List.getElem?_cons_succ, hset']
        simp [hge, show k + m.x ≤ j by omega]
      · simp [hset', show ¬ k + m.x ≤ j by omega,
          show ¬ k + (m.x + 1) ≤ j by omega]

theorem loNib_le (v : Byte) : (loNib v).toNat ≤ 15 := by
  have : (loNib v).toNat = v.toNat &&& 15 := by simp [loNib]
  rw [this]; exact Nat.and_le_right

theorem hiNib_le (v : Byte) : (hiNib v).toNat ≤ 15 := by
  have : (hiNib v).toNat = v.toNat / 16 := by simp [hiNib, Nat.shiftRight_eq_div_pow]
  have := v.isLt; omega

theorem nibbles_le {vs : List Byte} {n : Byte} (h : n ∈ nibbles vs) : n.toNat ≤ 15 := by
  simp only [nibbles, List.mem_flatten, List.mem_map] at h
  obtain ⟨l, ⟨v, _, rfl⟩, hn⟩ := h
  simp at hn
  rcases hn with rfl | rfl
  · exact loNib_le v
  · exact hiNib_le v

/-- A unit error (R321): the fatal fault of a full log, or one entry more and the engine goes on. -/
theorem Imgd.unitError_cases (caps : Caps) (e : LogEntry) (cur : Nat) (next : Imgd → Imgd) (m : Imgd) :
    (full caps.logCap m.skiplog.length = true ∧
      m.unitError caps e cur next = m.fatal .capacityExceeded cur) ∨
    (full caps.logCap m.skiplog.length = false ∧
      m.unitError caps e cur next = next { m with skiplog := m.skiplog ++ [e] }) := by
  unfold Imgd.unitError
  cases h : full caps.logCap m.skiplog.length <;> simp

end Sys2Proof.Machine
end

