-- ==== Sys2Proof/Laws/Txtp.lean ====
section
/-! SUPPORT. What the shared operations of TXTP can do, said once. -/

namespace Sys2Proof.Machine

/-- A unit error (R321): the fatal fault of a full log, or one entry more and the engine goes on. -/
theorem Txtp.unitError_cases (caps : Caps) (e : LogEntry) (cur : Nat) (next : Txtp → Txtp) (x : Txtp) :
    (full caps.logCap x.skiplog.length = true ∧
      x.unitError caps e cur next = x.fatal .capacityExceeded cur) ∨
    (full caps.logCap x.skiplog.length = false ∧
      x.unitError caps e cur next = next { x with skiplog := x.skiplog ++ [e] }) := by
  unfold Txtp.unitError
  cases h : full caps.logCap x.skiplog.length <;> simp

/-- The leftmost raw trigger (R270): it stands at the index found, and nowhere before it. -/
theorem findByte_some {t : Byte} {w : List Item} {p : Nat} (h : findByte t w = some p) :
    w[p]? = some (.B t) ∧ ∀ j < p, w[j]? ≠ some (.B t) := by
  induction w generalizing p with
  | nil => simp [findByte] at h
  | cons it w ih =>
    unfold findByte at h
    split at h
    · rename_i hit; cases h; simp [hit]
    · rename_i hit
      obtain ⟨q, hq, rfl⟩ := Option.map_eq_some_iff.mp h
      obtain ⟨h1, h2⟩ := ih hq
      refine ⟨by simpa using h1, ?_⟩
      intro j hj
      cases j with
      | zero => simpa using hit
      | succ j => simpa using h2 j (by omega)

theorem findByte_none {t : Byte} {w : List Item} (h : findByte t w = none) : Item.B t ∉ w := by
  induction w with
  | nil => simp
  | cons it w ih =>
    unfold findByte at h
    split at h
    · cases h
    · rename_i hit
      have := ih (Option.map_eq_none_iff.mp h)
      simp [this, Ne.symm hit]

/-- What is captured up to the terminator holds none of it, and the sequence is put together again. -/
theorem splitAtByte_some {t : Byte} {w captured rest : List Item}
    (h : splitAtByte t w = some (captured, rest)) :
    w = captured ++ Item.B t :: rest ∧ Item.B t ∉ captured := by
  induction w generalizing captured with
  | nil => simp [splitAtByte] at h
  | cons it w ih =>
    unfold splitAtByte at h
    split at h
    · rename_i hit; cases h; simp [hit]
    · rename_i hit
      split at h
      · rename_i c r hc
        cases h
        obtain ⟨rfl, h2⟩ := ih hc
        simp [h2, Ne.symm hit]
      · cases h

theorem splitAtByte_append {t : Byte} {captured rest : List Item} (h : Item.B t ∉ captured) :
    splitAtByte t (captured ++ Item.B t :: rest) = some (captured, rest) := by
  induction captured with
  | nil => simp [splitAtByte]
  | cons it c ih =>
    simp only [List.mem_cons, not_or] at h
    simp [splitAtByte, ih h.2, Ne.symm h.1]

/-- The text of inserted items holds no raw byte (R268). -/
theorem rawItems_textItems (t : Text) : rawItems (textItems t) = 0 := by
  simp [rawItems, textItems, List.countP_eq_zero]

theorem rawItems_append (a b : List Item) : rawItems (a ++ b) = rawItems a + rawItems b := by
  simp [rawItems]

end Sys2Proof.Machine
end

