-- ==== Sys2Proof/Laws/PerInstr.lean ====
section
/-! SUPPORT. The family RoundTrip of LAWS.json: what the encoder writes for a well-formed instruction is
read back as that instruction, with what follows it left over, one lemma per constructor. An unknown part
takes its whole range (R113), so nothing may follow it. Instructions no byte context admits (COMPOSE, the
host commands, the working sequence's own) say the same of the item decoder, where they have items. -/

namespace Sys2Proof.Laws.RoundTrip

/-- Decoding undoes encoding, in every context that admits the instruction. -/
def Statement (i : Instr) : Prop :=
  i.wf = true →
    (∀ (ctx : Ctx) (rest : List Byte), ctx.admits i = true →
      (∀ raw, i = .partUnknown raw → rest = []) → decode ctx (i.encode ++ rest) = .ok (i, rest)) ∧
    (∀ (ctx : ItemCtx) (rest : List Item), ctx.admits i = true →
      decodeItems ctx (i.encodeItems ++ rest) = .ok (i, rest))

theorem hdr (h0 h1 h2 h3 h4 h5 : Byte) : Statement (.hdr h0 h1 h2 h3 h4 h5) := by
  intro _
  refine ⟨fun ctx rest ha _ => ?_, fun ctx rest ha => ?_⟩ <;>
    cases ctx <;> simp_all [Ctx.admits, ItemCtx.admits, decode, Instr.encode, decodeHdr]

theorem iw (w : Half) : Statement (.iw w) := by
  intro _
  refine ⟨fun ctx rest ha _ => ?_, fun ctx rest ha => ?_⟩ <;>
    cases ctx <;> simp_all [Ctx.admits, ItemCtx.admits, decode, Instr.encode, decodeIw, halfBytes]

theorem lit (b : Byte) : Statement (.lit b) := by
  intro _
  refine ⟨fun ctx rest ha _ => ?_, fun ctx rest ha => ?_⟩ <;> cases ctx
  case refine_1.operands k => simp_all [Ctx.admits, decode, Instr.encode, decodeOperands]
  all_goals simp_all [Ctx.admits, ItemCtx.admits]

theorem m0 (b1 b2 : Bool) (d : Byte) : Statement (.m0 b1 b2 d) := by
  intro _
  refine ⟨fun ctx rest ha _ => ?_, fun ctx rest ha => ?_⟩ <;> cases ctx
  case refine_1.operands k => simp_all [Ctx.admits, decode, Instr.encode, decodeOperands]
  all_goals simp_all [Ctx.admits, ItemCtx.admits]

theorem m1 (raw : Half) : Statement (.m1 raw) := by
  intro hw
  refine ⟨fun ctx rest ha _ => ?_, fun ctx rest ha => ?_⟩ <;> cases ctx
  case refine_1.operands k => simp_all [Ctx.admits, decode, Instr.encode, decodeOperands, decodeMethod1, halfBytes, Instr.wf]
  all_goals simp_all [Ctx.admits, ItemCtx.admits]

theorem m1x (raw : Half) (e : Byte) : Statement (.m1x raw e) := by
  intro hw
  refine ⟨fun ctx rest ha _ => ?_, fun ctx rest ha => ?_⟩ <;> cases ctx
  case refine_1.operands k => simp_all [Ctx.admits, decode, Instr.encode, decodeOperands, decodeMethod1, halfBytes, Instr.wf]
  all_goals simp_all [Ctx.admits, ItemCtx.admits]

theorem endMark (raw : Half) : Statement (.endMark raw) := by
  intro hw
  refine ⟨fun ctx rest ha _ => ?_, fun ctx rest ha => ?_⟩ <;> cases ctx
  case refine_1.operands k => simp_all [Ctx.admits, decode, Instr.encode, decodeOperands, decodeMethod1, halfBytes, Instr.wf]
  all_goals simp_all [Ctx.admits, ItemCtx.admits]

theorem oas (v : Half) : Statement (.oas v) := by
  intro _
  refine ⟨fun ctx rest ha _ => ?_, fun ctx rest ha => ?_⟩ <;>
    cases ctx <;> simp_all [Ctx.admits, ItemCtx.admits, decode, Instr.encode, decodeOas, halfBytes]

theorem palterm : Statement .palterm := by
  intro _
  refine ⟨fun ctx rest ha _ => ?_, fun ctx rest ha => ?_⟩ <;>
    cases ctx <;> simp_all [Ctx.admits, ItemCtx.admits, decode, Instr.encode, decodePal]

theorem palrec (loc : Byte) (raws : List Color) : Statement (.palrec loc raws) := by
  intro hw
  simp only [Instr.wf, Bool.and_eq_true, decide_eq_true_eq, Bool.not_eq_true', Bool.and_eq_false_iff] at hw
  refine ⟨fun ctx rest ha _ => ?_, fun ctx rest ha => ?_⟩ <;> cases ctx
  case refine_1.pal =>
    have hn : (BitVec.ofNat 8 raws.length).toNat = raws.length := by
      simp; omega
    have hne : ¬ (loc = 0xFF ∧ BitVec.ofNat 8 raws.length = 0xFF) := by
      rintro ⟨rfl, h⟩
      have := congrArg BitVec.toNat h
      rw [hn] at this
      simp at this hw
      omega
    simp only [decode, Instr.encode, List.cons_append, decodePal, if_neg hne, hn, takeColors_encode]
  all_goals simp_all [Ctx.admits, ItemCtx.admits]

theorem offs (entries : List Half) : Statement (.offs entries) := by
  intro hw
  refine ⟨fun ctx rest ha _ => ?_, fun ctx rest ha => ?_⟩ <;> cases ctx
  case refine_1.offs => exact decodeEntries_encode _ hw rest
  all_goals simp_all [Ctx.admits, ItemCtx.admits]

theorem partUnknown (rawBytes : List Byte) : Statement (.partUnknown rawBytes) := by
  intro _
  refine ⟨fun ctx rest ha hr => ?_, fun ctx rest ha => ?_⟩ <;> cases ctx
  case refine_1.part =>
    rw [hr _ rfl]
    simp [decode, Instr.encode, decodePart, le16]
  all_goals simp_all [Ctx.admits, ItemCtx.admits]

theorem partRaw (width : BitVec 15) (height poff : Byte) : Statement (.partRaw width height poff) := by
  intro hw
  refine ⟨fun ctx rest ha _ => ?_, fun ctx rest ha => ?_⟩ <;> cases ctx
  case refine_1.part =>
    have hne : partWord false width ≠ 0 := by
      intro h
      have h2 := partWord_width false width
      rw [h] at h2
      subst h2; cases hw
    simp only [decode, Instr.encode, halfBytes, List.cons_append, List.nil_append, decodePart,
      le16_halfBytes, if_neg hne, partWord_msb, Bool.false_eq_true, if_false, partWord_width]
  all_goals simp_all [Ctx.admits, ItemCtx.admits]

theorem partRle (width : BitVec 15) (height poff : Byte) : Statement (.partRle width height poff) := by
  intro _
  refine ⟨fun ctx rest ha _ => ?_, fun ctx rest ha => ?_⟩ <;> cases ctx
  case refine_1.part =>
    have hne : partWord true width ≠ 0 := by
      intro h
      have h2 := partWord_msb true width
      rw [h] at h2; cases h2
    simp only [decode, Instr.encode, halfBytes, List.cons_append, List.nil_append, decodePart,
      le16_halfBytes, if_neg hne, partWord_msb, if_true, partWord_width]
  all_goals simp_all [Ctx.admits, ItemCtx.admits]

theorem rep (c : BitVec 7) (v : Byte) : Statement (.rep c v) := by
  intro _
  refine ⟨fun ctx rest ha _ => ?_, fun ctx rest ha => ?_⟩ <;> cases ctx
  case refine_1.rle =>
    simp only [decode, Instr.encode, List.cons_append, List.nil_append, decodeRle, repByte_msb, if_true,
      repByte_low]
  all_goals simp_all [Ctx.admits, ItemCtx.admits]

theorem litr (vs : List Byte) : Statement (.litr vs) := by
  intro hw
  simp only [Instr.wf, Bool.and_eq_true, decide_eq_true_eq] at hw
  refine ⟨fun ctx rest ha _ => ?_, fun ctx rest ha => ?_⟩ <;> cases ctx
  case refine_1.rle =>
    have hn : (BitVec.ofNat 8 (vs.length - 1)).toNat = vs.length - 1 := by simp; omega
    have hm : (BitVec.ofNat 8 (vs.length - 1)).msb = false := by
      rw [BitVec.msb_eq_decide, hn]; simp; omega
    simp only [decode, Instr.encode, List.cons_append, decodeRle, hm, Bool.false_eq_true, if_false, hn,
      Nat.sub_add_cancel hw.1, takeBytes_append]
  all_goals simp_all [Ctx.admits, ItemCtx.admits]

theorem pair (v : Byte) : Statement (.pair v) := by
  intro _
  refine ⟨fun ctx rest ha _ => ?_, fun ctx rest ha => ?_⟩ <;>
    cases ctx <;> simp_all [Ctx.admits, ItemCtx.admits, decode, Instr.encode, decodePair]

theorem compose (sp : SubPalette) (dflt : Color) : Statement (.compose sp dflt) := by
  intro _
  refine ⟨fun ctx rest ha _ => ?_, fun ctx rest ha => ?_⟩ <;>
    cases ctx <;> simp_all [Ctx.admits, ItemCtx.admits]

theorem tidx (entries : List Half) : Statement (.tidx entries) := by
  intro hw
  refine ⟨fun ctx rest ha _ => ?_, fun ctx rest ha => ?_⟩ <;> cases ctx
  case refine_1.tidx => exact decodeEntries_encode _ hw rest
  all_goals simp_all [Ctx.admits, ItemCtx.admits]

theorem nlFe : Statement .nlFe := by
  intro _
  refine ⟨fun ctx rest ha _ => ?_, fun ctx rest ha => ?_⟩ <;>
    cases ctx <;> simp_all [Ctx.admits, ItemCtx.admits, decode, Instr.encode, decodeChar]

theorem nl0d : Statement .nl0d := by
  intro _
  refine ⟨fun ctx rest ha _ => ?_, fun ctx rest ha => ?_⟩ <;>
    cases ctx <;> simp_all [Ctx.admits, ItemCtx.admits, decode, Instr.encode, decodeChar]

theorem charOverride (b : Byte) : Statement (.charOverride b) := by
  intro hw
  simp only [Instr.wf, isNewline, Bool.not_eq_true', Bool.or_eq_false_iff, beq_eq_false_iff_ne] at hw
  refine ⟨fun ctx rest ha _ => ?_, fun ctx rest ha => ?_⟩ <;> cases ctx
  case refine_1.char cs =>
    simp only [Ctx.admits] at ha
    simp only [decode, Instr.encode, List.cons_append, List.nil_append, decodeChar, if_neg hw.1, if_neg hw.2,
      ha, if_true]
  all_goals simp_all [Ctx.admits, ItemCtx.admits]

theorem charDirect (b : Byte) : Statement (.charDirect b) := by
  intro hw
  simp only [Instr.wf, isNewline, Bool.not_eq_true', Bool.or_eq_false_iff, beq_eq_false_iff_ne] at hw
  refine ⟨fun ctx rest ha _ => ?_, fun ctx rest ha => ?_⟩ <;> cases ctx
  case refine_1.char cs =>
    simp only [Ctx.admits, Option.isNone_iff_eq_none] at ha
    simp only [decode, Instr.encode, List.cons_append, List.nil_append, decodeChar, if_neg hw.1, if_neg hw.2,
      ha, Option.isSome_none, Bool.false_eq_true, if_false]
  all_goals simp_all [Ctx.admits, ItemCtx.admits]

theorem tinstr (t : Byte) : Statement (.tinstr t) := by
  intro _
  refine ⟨fun ctx rest ha _ => ?_, fun ctx rest ha => ?_⟩ <;>
    cases ctx <;> simp_all [Ctx.admits, ItemCtx.admits, decodeItems, Instr.encodeItems, decodeTrigger]

theorem paramRead8 (v : Byte) : Statement (.paramRead8 v) := by
  intro _
  refine ⟨fun ctx rest ha _ => ?_, fun ctx rest ha => ?_⟩ <;> cases ctx
  case refine_2.param mode => simp_all [ItemCtx.admits, decodeItems, Instr.encodeItems, decodeParam]
  all_goals simp_all [Ctx.admits, ItemCtx.admits]

theorem paramRead16 (v : Half) : Statement (.paramRead16 v) := by
  intro _
  refine ⟨fun ctx rest ha _ => ?_, fun ctx rest ha => ?_⟩ <;> cases ctx
  case refine_2.param mode => simp_all [ItemCtx.admits, decodeItems, Instr.encodeItems, decodeParam]
  all_goals simp_all [Ctx.admits, ItemCtx.admits]

theorem paramReadUntil (captured : List Item) (t : Byte) : Statement (.paramReadUntil captured t) := by
  intro hw
  have hnot : Item.B t ∉ captured := by simpa [Instr.wf] using hw
  refine ⟨fun ctx rest ha _ => ?_, fun ctx rest ha => ?_⟩ <;> cases ctx
  case refine_2.param mode =>
    simp only [ItemCtx.admits, beq_iff_eq] at ha
    subst ha
    simp [decodeItems, Instr.encodeItems, decodeParam, Machine.splitAtByte_append hnot]
  all_goals simp_all [Ctx.admits, ItemCtx.admits]

theorem reset : Statement .reset := by
  intro _
  refine ⟨fun ctx rest ha _ => ?_, fun ctx rest ha => ?_⟩ <;>
    cases ctx <;> simp_all [Ctx.admits, ItemCtx.admits]

theorem launch (req : LaunchReq) : Statement (.launch req) := by
  intro _
  refine ⟨fun ctx rest ha _ => ?_, fun ctx rest ha => ?_⟩ <;>
    cases ctx <;> simp_all [Ctx.admits, ItemCtx.admits]

end Sys2Proof.Laws.RoundTrip
end

