-- ==== Sys2Proof/Tests/Slice0.lean ====
section
/-! SUPPORT. The model's own tests. Expected values are those of spec/30_encoding.md and of the worked
examples and vectors of spec/95_test_vectors.md, named in the comments. The witnesses of the last part show
that the hypotheses of each statement can be met. -/

namespace Sys2Proof.Tests

open Sys2Proof Sys2Proof.Machine

/-! ## Helpers -/

/-- The state an answer goes on to. -/
def after (a : Answer) : Option State :=
  match a with
  | .next t => some t
  | .fault _ => none
  | .refused _ => none

/-- HSQD RUNNING on `bytes` in a phase, the host letting it step. -/
def hsqdOn (bytes : List Byte) (pos : Nat) (buf : Half) (cnt : Nat) (phase : HsqdPhase)
    (pfx : Option (List Bool)) : State :=
  (State.reset.setHsqd
    { hsqdAt Hsqd.reset bytes pos buf cnt with phase := phase, pfx := pfx }).setHostq [.run .hsqd]

/-- HSQD with the bytes `out` in `OBUF`. -/
def hsqdOut (out : List Byte) : State :=
  State.reset.setHsqd
    { Hsqd.reset with st := .launched, phase := .body, obuf := Memory.ofBytes 0 out, olen := out.length }

/-- IMGD as a launch on `bytes` leaves it. -/
def imgdBase (bytes : List Byte) : Imgd := launchedImgd .unbounded bytes false

/-- The machine with that IMGD, the host letting it step. -/
def imgdOn (m : Imgd) : State := (State.reset.setImgd m).setHostq [.run .imgd]

/-- IMGD inside a part whose data is `bytes`, in a row of `width` columns. -/
def imgdRow (bytes : List Byte) (phase : ImgdPhase) (width : BitVec 15) (lr : Int) : Imgd :=
  { imgdAt Imgd.reset ([0, 0, 0, 0] ++ bytes) phase with
    width := width, height := 1, bpl := bplOf width, lineRemain := lr, s := 8,
    pixels := List.replicate width.toNat none }

/-- TXTP as a launch on `bytes` leaves it. -/
def txtpBase (bytes : List Byte) (charset : Charset) (itab : List TextInstruction) : Txtp :=
  launchedTxtp .unbounded bytes false charset itab

def txtpOn (x : Txtp) : State := (State.reset.setTxtp x).setHostq [.run .txtp]

/-- TXTP inside the one sentence `bytes` of the payload `04 00 <end> 00 bytes`. -/
def txtpIn (bytes : List Byte) (charset : Charset) (itab : List TextInstruction) (phase : TxtpPhase) :
    Txtp :=
  { txtpBase ([4, 0, BitVec.ofNat 8 (4 + bytes.length), 0] ++ bytes) charset itab with
    phase := phase, ibs := 4, n := 2, addr := [4, BitVec.ofNat 16 (4 + bytes.length)], sstart := 4,
    send := 4 + bytes.length, c := 4, w := bytes.map Item.B }

/-- The `SmallText` entry of the vectors' `ITAB1`. -/
def smallText : TextInstruction :=
  ⟨0x06, ['S', 'm', 'a', 'l', 'l', 'T', 'e', 'x', 't'], [⟨['t', 'e', 'x', 't'], .readUntil 0x08⟩]⟩

/-- The `Var` entry of `ITAB1`. -/
def var : TextInstruction := ⟨0x80, ['V', 'a', 'r'], [⟨['i', 'd'], .read8⟩]⟩

/-- The `Num` entry of `ITAB1`. -/
def num : TextInstruction :=
  ⟨0x81, ['N', 'u', 'm'], [⟨['l', 'o'], .read8⟩, ⟨['v', 'a', 'l'], .read16⟩]⟩

/-- The charset `CS1` of the vectors. -/
def cs1 : Charset := [(0x41, 'Å'), (0x82, 'é'), (0x8A, 'è')]

/-- Capacities that are all zero. -/
def noRoom : Caps :=
  ⟨some 0, some 0, some 0, some 0, some 0, some 0, some 0, some 0, some 0, some 0⟩

/-- The machine with those capacities. -/
def cramped (s : State) : State := { s with caps := noRoom }

/-! ## WellFormed: a term that each check refuses -/

theorem test_wf_m1_needs_len3 : (Instr.m1 0xFFF8).wf = false := by decide
theorem test_wf_m1x_needs_no_len3 : (Instr.m1x 0xFFE9 1).wf = false := by decide
theorem test_wf_m1x_needs_e : (Instr.m1x 0xFFF8 0).wf = false := by decide
theorem test_wf_end_needs_no_len3 : (Instr.endMark 1).wf = false := by decide
theorem test_wf_palrec_at_most_255 : (Instr.palrec 0 (List.replicate 256 ⟨0, 0, 0⟩)).wf = false := by
  rw [Instr.wf, List.length_replicate]; rfl
theorem test_wf_palrec_is_no_terminator :
    (Instr.palrec 0xFF (List.replicate 255 ⟨0, 0, 0⟩)).wf = false := by
  rw [Instr.wf, List.length_replicate]; rfl
theorem test_wf_offs_not_empty : (Instr.offs []).wf = false := by decide
theorem test_wf_offs_counts_entries : (Instr.offs [6, 12]).wf = false := by decide
theorem test_wf_tidx_not_empty : (Instr.tidx []).wf = false := by decide
theorem test_wf_tidx_counts_entries : (Instr.tidx [2, 12]).wf = false := by decide
theorem test_wf_partRaw_needs_width : (Instr.partRaw 0 1 0).wf = false := by decide
theorem test_wf_litr_not_empty : (Instr.litr []).wf = false := by decide
theorem test_wf_litr_at_most_128 : (Instr.litr (List.replicate 129 0)).wf = false := by
  rw [Instr.wf, List.length_replicate]; rfl
theorem test_wf_compose_at_most_255 :
    (Instr.compose ⟨0, 0, List.replicate 256 ⟨0, 0, 0⟩⟩ ⟨0, 0, 0⟩).wf = false := by
  rw [Instr.wf, List.length_replicate]; rfl
theorem test_wf_charOverride_no_newline : (Instr.charOverride 0xFE).wf = false := by decide
theorem test_wf_charDirect_no_newline : (Instr.charDirect 0x0D).wf = false := by decide
theorem test_wf_readUntil_stops_at_terminator :
    (Instr.paramReadUntil [.B 0x48, .B 0x08] 0x08).wf = false := by decide
theorem test_wf_launch_charset_rises :
    (Instr.launch (.txtp (.bytes []) [(0x82, 'é'), (0x41, 'Å')] [])).wf = false := by decide
theorem test_wf_accepts_boundaries : (Instr.palrec 0xFF (List.replicate 254 ⟨0, 0, 0⟩)).wf = true ∧
    (Instr.litr (List.replicate 128 0)).wf = true ∧ (Instr.offs [1]).wf = true := by
  refine ⟨?_, ?_, by decide⟩ <;> rw [Instr.wf, List.length_replicate] <;> rfl

/-! ## Decoding: words written out from spec/30_encoding.md -/

-- R101 and S1: `08 00 00 08 00 9B`.
theorem test_decodes_hdr :
    decode .hdr [0x08, 0x00, 0x00, 0x08, 0x00, 0x9B] = .ok (.hdr 0x08 0 0 0x08 0 0x9B, []) := rfl
-- R103: P1's word 0x2B47, low byte first.
theorem test_decodes_iw : decode .iw [0x47, 0x2B, 0x48] = .ok (.iw 0x2B47, [0x48]) := rfl
-- R103 and R105: P1's word from bit 0: 1 1 1, 0001, 01, 1, 01, 01, two unused bits.
theorem test_word_bits_first_consumed_first : bufferBits 0x2B47 16 =
    [true, true, true, false, false, false, true, false, true, true, false, true, false, true, false,
      false] := by decide
theorem test_classifies_lit : classify [true, true] = some .copyByte := rfl
theorem test_classifies_m0 : classify [false, false, false, true, false] = some (.method0 false true) := rfl
theorem test_classifies_method1 : classify [false, true, true] = some .method1 := rfl
theorem test_classify_asks_for_more : classify [false, false, true] = none := rfl
-- P1's operand bytes.
theorem test_decodes_lit : decode (.operands .copyByte) [0x48, 0x53] = .ok (.lit 0x48, [0x53]) := rfl
theorem test_decodes_m0 :
    decode (.operands (.method0 false true)) [0xFD, 0xD2] = .ok (.m0 false true 0xFD, [0xD2]) := rfl
theorem test_decodes_m1 : decode (.operands .method1) [0xD2, 0xFF, 0x21] = .ok (.m1 0xFFD2, [0x21]) := rfl
theorem test_decodes_m1x :
    decode (.operands .method1) [0xF8, 0xFF, 0x0A, 0x00] = .ok (.m1x 0xFFF8 0x0A, [0x00]) := rfl
theorem test_decodes_end :
    decode (.operands .method1) [0x00, 0x00, 0x00, 0x99] = .ok (.endMark 0, [0x99]) := rfl
-- R107 and R108: the fields of P1's back-references, M0 3 −3, M1 4 −6, M1X 12 −1.
theorem test_fields_of_p1 : m0Len false true = 3 ∧ m0Dist 0xFD = -3 ∧ m1Len 0xFFD2 = 4 ∧ m1Dist 0xFFD2 = -6 ∧
    m1xLen 0x0A = 12 ∧ m1Dist 0xFFF8 = -1 ∧ m1Dist 0x0007 = -8192 := by decide
-- P2's bytes.
theorem test_decodes_oas : decode .oas [0x0D, 0x00, 0x10] = .ok (.oas 13, [0x10]) := rfl
theorem test_decodes_palrec : decode .pal [0x10, 0x02, 0x3F, 0x00, 0x01, 0x10, 0x20, 0x30, 0xFF] =
    .ok (.palrec 0x10 [⟨0x3F, 0x00, 0x01⟩, ⟨0x10, 0x20, 0x30⟩], [0xFF]) := rfl
theorem test_decodes_palterm : decode .pal [0xFF, 0xFF, 0xEE] = .ok (.palterm, [0xEE]) := rfl
theorem test_decodes_offs :
    decode .offs [0x06, 0x00, 0x0C, 0x00, 0x10, 0x00, 0x03] = .ok (.offs [6, 12, 16], [0x03]) := rfl
theorem test_decodes_partRaw :
    decode .part [0x03, 0x00, 0x01, 0x00, 0x21, 0x73] = .ok (.partRaw 3 1 0, [0x21, 0x73]) := rfl
theorem test_decodes_partUnknown :
    decode .part [0x00, 0x00, 0xAA, 0xBB] = .ok (.partUnknown [0xAA, 0xBB], []) := rfl
theorem test_decodes_partRle :
    decode .part [0x05, 0x80, 0x02, 0x10, 0xFF] = .ok (.partRle 5 2 16, [0xFF]) := rfl
theorem test_decodes_rep : decode .rle [0xFF, 0x34, 0x01] = .ok (.rep 0x7F 0x34, [0x01]) := rfl
theorem test_decodes_litr : decode .rle [0x01, 0x50, 0x06, 0xFE] = .ok (.litr [0x50, 0x06], [0xFE]) := rfl
theorem test_decodes_pair : decode .pair [0x21, 0x73] = .ok (.pair 0x21, [0x73]) := rfl
-- The run-count table of the vectors: 80 is 129 pairs, FE 3, FF 2; 00 is 1, 7F is 128.
theorem test_run_counts : repCount 0x00 = 129 ∧ repCount 0x7E = 3 ∧ repCount 0x7F = 2 ∧
    litrCmd [0x00] = 0x00 ∧ litrCmd (List.replicate 128 0) = 0x7F := by
  refine ⟨by decide, by decide, by decide, by decide, ?_⟩
  simp [litrCmd]
-- The row-length table of the vectors.
theorem test_row_lengths : [0, 1, 4, 5, 8, 9, 32767].map (fun w => (bplOf (BitVec.ofNat 15 w),
    lineQuantum (BitVec.ofNat 15 w))) =
    [(0, 0), (2, 4), (2, 4), (4, 8), (4, 8), (6, 12), (16384, 32768)] := by decide
-- P3's index, and T21's odd one.
theorem test_decodes_tidx :
    decode .tidx [0x05, 0x00, 0x07, 0x00, 0x41] = .ok (.tidx [5, 7], [0x41]) := rfl
-- T11's bytes under CS1.
theorem test_decodes_nlFe : decode (.char cs1) [0xFE] = .ok (.nlFe, []) := rfl
theorem test_decodes_nl0d : decode (.char cs1) [0x0D] = .ok (.nl0d, []) := rfl
theorem test_decodes_charOverride : decode (.char cs1) [0x41] = .ok (.charOverride 0x41, []) := rfl
theorem test_decodes_charDirect : decode (.char cs1) [0x42] = .ok (.charDirect 0x42, []) := rfl
-- A newline byte wins over an override (R121, R266).
theorem test_newline_before_override : decode (.char [(0x0D, 'x')]) [0x0D] = .ok (.nl0d, []) := rfl
theorem test_decodes_tinstr :
    decodeItems (.trigger 0x80) [.B 0x80, .B 0x05] = .ok (.tinstr 0x80, [.B 0x05]) := rfl
theorem test_decodes_read8 :
    decodeItems (.param .read8) [.B 0x05, .B 0x21] = .ok (.paramRead8 0x05, [.B 0x21]) := rfl
-- P3: `34 12` is 4660.
theorem test_decodes_read16 :
    decodeItems (.param .read16) [.B 0x34, .B 0x12] = .ok (.paramRead16 4660, []) := rfl
-- S8.
theorem test_decodes_readUntil : decodeItems (.param (.readUntil 0x08)) [.B 0x48, .B 0x69, .B 0x08] =
    .ok (.paramReadUntil [.B 0x48, .B 0x69] 0x08, []) := rfl
-- RESET, LAUNCH and COMPOSE are host commands without an encoding.
theorem test_commands_have_no_encoding : Instr.encode .reset = [] ∧
    Instr.encode (.launch (.imgd .obuf)) = [] ∧ Instr.encode (.compose ⟨0, 0, []⟩ ⟨0, 0, 0⟩) = [] ∧
    Instr.encodeItems .reset = [] := by decide
-- R126: the packer gives P1's bytes.
theorem test_packs_p1 : packHeader 24 0 ++ packBody [.lit 0x48, .lit 0x53, .lit 0x51, .m0 false true 0xFD,
      .m1 0xFFD2, .lit 0x21, .m1x 0xFFF8 0x0A, .endMark 0] =
    [0x18, 0x00, 0x00, 0x00, 0x00, 0x93, 0x47, 0x2B, 0x48, 0x53, 0x51, 0xFD, 0xD2, 0xFF, 0x21, 0xF8, 0xFF,
      0x0A, 0x00, 0x00, 0x00] := by decide
theorem test_table_words_decode : decodeTableWord 48 0 = some (.hdr 0 0 0 0 0 0) ∧
    decodeTableWord 16 0xFFFF = some .palterm ∧ decodeTableWord 8 0xFE = some .nlFe ∧
    decodeTableWord 8 0 = some (.m0 false false 0) ∧ decodeTableWord 8 1 = some (.lit 0) := by decide

/-! ## One step of each instruction -/

-- S9, F8 and F9: `08 00 00 08 00 9B` passes; with `9A` it faults at 6 unless `VERIFY = 0`.
theorem test_hdr_passes : ((after (step (hsqdOn [0x08, 0x00, 0x00, 0x08, 0x00, 0x9B] 0 0 0 .header none))).map
    (fun t => (t.hsqd.usize, t.hsqd.csize, t.hsqd.cksum, t.hsqd.pos, t.hsqd.phase))) =
    some (8, 8, 0x9B, 6, .body) := by decide
theorem test_hdr_bad_checksum : ((after (exec (.hdr 0x08 0 0 0x08 0 0x9A) State.reset)).map
    (fun t => (t.hsqd.st, t.hsqd.usize, t.hsqd.cksum))) =
    some (⟨.fault, .badChecksum, 6⟩, 8, 0x9A) := by decide
theorem test_iw_loads : ((after (step (hsqdOn [0x47, 0x2B] 0 0 0 .body none))).map
    (fun t => (t.hsqd.bitbuf, t.hsqd.bitcnt, t.hsqd.pos, t.hsqd.pfx))) =
    some (0x2B47, 16, 2, some []) := by decide
-- H7: the word ends inside a prefix; its first bit stays consumed.
theorem test_iw_inside_prefix : ((after (step (hsqdOn [0x04, 0x00, 0xF1] 0 0 1 .body none))).map
    (fun t => (t.hsqd.bitbuf, t.hsqd.bitcnt, t.hsqd.pfx))) = some (0x0004, 16, some [false]) := by decide
theorem test_lit_appends : ((after (step (hsqdOn [0x41] 0 0x00FF 8 .body none))).map
    (fun t => (t.hsqd.obuf, t.hsqd.olen, t.hsqd.bitbuf, t.hsqd.bitcnt))) =
    some ([(0, 0x41)], 1, 0x007F, 7) := by decide
-- F3: prefix 1 and no literal byte.
theorem test_lit_missing : ((after (step (hsqdOn [0x01, 0x00] 2 1 16 .body (some [])))).map
    (fun t => t.hsqd.st)) = some ⟨.fault, .unexpectedEnd, 2⟩ := by decide
-- S3 and H2: M0 2 −2 on 01 02 04 08.
theorem test_m0_copies : ((after (exec (.m0 false false 0xFE) (hsqdOut [1, 2, 4, 8]))).map
    (fun t => t.hsqd.obuf.slice 0 t.hsqd.olen)) = some (some [1, 2, 4, 8, 4, 8]) := by decide
-- F2: M0 2 −1 as the first instruction.
theorem test_m0_underflow : ((after (exec (.m0 false false 0xFF) (hsqdOut []))).map
    (fun t => (t.hsqd.st.cause, t.hsqd.olen))) = some (.backRefUnderflow, 0) := by decide
-- H12: M1 9 −2 on AB CD overlaps.
theorem test_m1_overlaps : ((after (exec (.m1 0xFFF7) (hsqdOut [0xAB, 0xCD]))).map
    (fun t => t.hsqd.obuf.slice 0 t.hsqd.olen)) =
    some (some [0xAB, 0xCD, 0xAB, 0xCD, 0xAB, 0xCD, 0xAB, 0xCD, 0xAB, 0xCD, 0xAB]) := by decide
-- H13: M1X 3 −3 on 01 02 03.
theorem test_m1x_copies : ((after (exec (.m1x 0xFFE8 1) (hsqdOut [1, 2, 3]))).map
    (fun t => t.hsqd.obuf.slice 0 t.hsqd.olen)) = some (some [1, 2, 3, 1, 2, 3]) := by decide
-- F6: `e` is missing, and `raw` has been read by then (R149).
theorem test_m1x_missing_e : ((after (step (hsqdOn [0xF8, 0xFF] 0 0x0002 16 .body none))).map
    (fun t => (t.hsqd.st, t.hsqd.kind, t.hsqd.raw))) =
    some (⟨.fault, .unexpectedEnd, 2⟩, .method1, 0xFFF8) := by decide
-- H6: the end marker.
theorem test_end_stops : ((after (exec (.endMark 0) (hsqdOut [0x11]))).map
    (fun t => (t.hsqd.st.status, t.hsqd.stop, t.hsqd.olen))) = some (.done, .endMarker, 1) := by decide
-- I10 and I3: pointers 1 and 2.
theorem test_oas_inside_itself : ((after (exec (.oas 1) (imgdOn (imgdBase [0x01, 0x00])))).map
    (fun t => t.imgd.st)) = some ⟨.fault, .badOffsetsStart, 0⟩ := by decide
theorem test_oas_at_two : ((after (step (imgdOn (imgdBase [0x02, 0x00, 0x02, 0x00])))).map
    (fun t => (t.imgd.oas, t.imgd.pcur, t.imgd.phase))) = some (2, 2, .palette) := by decide
-- P2: the terminator is not consumed.
theorem test_palterm_stays : ((after (exec .palterm (imgdOn { imgdBase [] with pcur := 10 }))).map
    (fun t => (t.imgd.pcur, t.imgd.palNoterm, t.imgd.phase))) = some (10, false, .offsets) := by decide
-- P2: record loc 16, raw (63,0,1) (16,32,48).
theorem test_palrec_scales : ((after (exec (.palrec 0x10 [⟨63, 0, 1⟩, ⟨16, 32, 48⟩])
    (imgdOn { imgdBase [] with pcur := 2 }))).map (fun t => (t.imgd.subpals, t.imgd.pcur))) =
    some ([⟨0, 0x10, [⟨252, 0, 4⟩, ⟨64, 128, 192⟩]⟩], 10) := by decide
-- I4: channel 40 hex.
theorem test_palrec_channel_range : ((after (exec (.palrec 0 [⟨0x40, 0, 0⟩])
    (imgdOn { imgdBase [] with pcur := 2 }))).map (fun t => (t.imgd.subpals, t.imgd.skiplog, t.imgd.k))) =
    some ([], [⟨.subPalette, 0, .channelRange, 2⟩], 1) := by decide
-- P2 and I2: ABS = [19, 25, 29]; an odd size 3 at 2.
theorem test_offs_absolute : ((after (exec (.offs [6, 12, 16]) (imgdOn { imgdBase [] with oas := 13 }))).map
    (fun t => (t.imgd.abs, t.imgd.n, t.imgd.phase))) = some ([19, 25, 29], 3, .frame) := by decide
theorem test_offs_odd_size : ((after (exec (.offs [3]) (imgdOn { imgdBase [] with oas := 2 }))).map
    (fun t => t.imgd.st)) = some ⟨.fault, .arrayMismatch, 2⟩ := by decide
-- P2 part 1.
theorem test_partUnknown_stored : ((after (exec (.partUnknown [0xAA, 0xBB])
    (imgdOn { imgdBase [] with i := 1, pstart := 25, pend := 29 }))).map
    (fun t => (t.imgd.unkparts, t.imgd.i))) = some ([⟨1, [0xAA, 0xBB]⟩], 2) := by decide
-- P2 part 0: packed, bpl 2; and the same part one byte too short.
theorem test_partRaw_opens : ((after (exec (.partRaw 3 1 0)
    (imgdOn { imgdBase [] with pstart := 19, pend := 25 }))).map
    (fun t => (t.imgd.bpl, t.imgd.s, t.imgd.pixels, t.imgd.phase))) =
    some (2, 23, [none, none, none], .rows) := by decide
theorem test_partRaw_truncated : ((after (exec (.partRaw 3 1 0)
    (imgdOn { imgdBase [] with pstart := 19, pend := 24 }))).map
    (fun t => (t.imgd.skiplog, t.imgd.i))) = some ([⟨.part, 0, .truncated, 19⟩], 1) := by decide
-- P2 part 2: `line_remain` 8.
theorem test_partRle_opens : ((after (exec (.partRle 5 2 16)
    (imgdOn { imgdBase [] with i := 2, pstart := 29, pend := 42 }))).map
    (fun t => (t.imgd.lineRemain, t.imgd.cw, t.imgd.poff, t.imgd.phase))) =
    some (8, 0x8005, 16, .runs) := by decide
-- S6: FF 34 gives 4 3 4 3; I7: FF 43 with two columns keeps 3 4.
theorem test_rep_swaps_nibbles : ((after (step (imgdOn (imgdRow [0xFF, 0x34] .runs 5 8)))).map
    (fun t => (t.imgd.pixels, t.imgd.lineRemain, t.imgd.s))) =
    some ([some 4, some 3, some 4, some 3, none], 4, 10) := by decide
theorem test_rep_drops_overshoot : ((after (exec (.rep 0x7F 0x43) (imgdOn (imgdRow [] .runs 2 4)))).map
    (fun t => t.imgd.pixels)) = some [some 3, some 4] := by decide
-- P2, row 0 after REP: LITR 50 06 from column 4.
theorem test_litr_transparent : ((after (exec (.litr [0x50, 0x06])
    (imgdOn { imgdRow [] .runs 5 4 with x := 4 }))).map (fun t => (t.imgd.pixels, t.imgd.lineRemain))) =
    some ([none, none, none, none, none], 0) := by decide
-- I6 with LOG_CAP 0: a literal run of two pairs with one value byte; both bytes are passed (R223, R226).
theorem test_litr_cut_moves_cursor : ((after (step (cramped (imgdOn (imgdRow [0x01, 0x12] .runs 4 4))))).map
    (fun t => (t.imgd.st, t.imgd.s))) = some (⟨.fault, .capacityExceeded, 10⟩, 10) := by decide
-- S5: 21 is 1, 2.
theorem test_pair_low_nibble_first : ((after (step (imgdOn (imgdRow [0x21, 0x73] .rows 3 0)))).map
    (fun t => (t.imgd.pixels, t.imgd.s))) = some ([some 1, some 2, none], 9) := by decide
-- PC1 and PC4.
theorem test_compose_pc1 : ((after (exec (.compose ⟨0, 16, [⟨252, 0, 4⟩, ⟨64, 128, 192⟩]⟩ ⟨0, 0, 0⟩)
    State.reset)).map (fun t => (t.palc.palerr, t.palc.palette[16]?, t.palc.palette[17]?,
      t.palc.palette[18]?))) =
    some (false, some ⟨252, 0, 4⟩, some ⟨64, 128, 192⟩, some ⟨0, 0, 0⟩) := by decide
theorem test_compose_pc4 : ((after (exec (.compose ⟨0, 255, [⟨1, 1, 1⟩, ⟨2, 2, 2⟩]⟩ ⟨9, 9, 9⟩)
    State.reset)).map (fun t => (t.palc.palerr, t.palc.palette[255]?))) =
    some (true, some ⟨9, 9, 9⟩) := by decide
-- T20 and T17.
theorem test_tidx_reads : ((after (exec (.tidx [6, 9, 8]) State.reset)).map
    (fun t => (t.txtp.n, t.txtp.addr, t.txtp.phase))) = some (3, [6, 9, 8], .frame) := by decide
theorem test_tidx_one : ((after (exec (.tidx [3]) State.reset)).map
    (fun t => (t.txtp.n, t.txtp.addr))) = some (1, [3]) := by decide
-- T11.
theorem test_nlFe_is_newline : ((after (exec .nlFe (txtpOn (txtpIn [0xFE] cs1 [] .raw)))).map
    (fun t => (t.txtp.rawText, t.txtp.c))) = some (['\n'], 5) := by decide
theorem test_nl0d_is_newline : ((after (step (txtpOn (txtpIn [0x0D] cs1 [] .raw)))).map
    (fun t => t.txtp.rawText)) = some ['\n'] := by decide
theorem test_charOverride_uses_charset : ((after (step (txtpOn (txtpIn [0x82] cs1 [] .raw)))).map
    (fun t => t.txtp.rawText)) = some ['é'] := by decide
theorem test_charDirect_is_code_point : ((after (step (txtpOn (txtpIn [0xFF] cs1 [] .raw)))).map
    (fun t => t.txtp.rawText)) = some ['ÿ'] := by decide
-- T4: the leftmost 06.
theorem test_tinstr_leftmost : ((after (step (txtpOn (txtpIn [0x48, 0x06, 0x06] [] [smallText] .scan)))).map
    (fun t => (t.txtp.p, t.txtp.q, t.txtp.phase))) = some (1, 2, .params) := by decide
-- R269: `t` is the entry's trigger byte, and the next entry's turn comes, where no trigger stands.
theorem test_scan_miss : ((after (step (txtpOn (txtpIn [0x48] [] [smallText] .scan)))).map
    (fun t => (t.txtp.t, t.txtp.entry, t.txtp.phase))) = some (0x06, 1, .scan) := by decide
-- T2: after the expansion of Var, Num's Read8 meets an inserted character.
theorem test_read8_meets_character : ((after (step (txtpOn
    { txtpIn [0x81, 0x80, 0x01, 0x02] cs1 [var, num] .params with
      entry := 1, p := 0, q := 1, w := [.B 0x81, .C '<', .B 0x02] }))).map
    (fun t => (t.txtp.skiplog, t.txtp.phase))) =
    some ([⟨.sentence, 0, .paramOverrun, 4⟩], .frame) := by decide
theorem test_read8_value : exec (.paramRead8 5) (txtpOn (txtpIn [0x80, 0x05] cs1 [var] .params)) =
    .next (txtpOn { txtpIn [0x80, 0x05] cs1 [var] .params with
      vals := [(Config.renderValue 5).map Item.C], prm := 1, q := 1 }) := rfl
theorem test_read16_value : exec (.paramRead16 4660) (txtpOn (txtpIn [0x34, 0x12] cs1 [num] .params)) =
    .next (txtpOn { txtpIn [0x34, 0x12] cs1 [num] .params with
      vals := [(Config.renderValue 4660).map Item.C], prm := 1, q := 2 }) := rfl
-- S8 and T0: the capture, then the placeholder.
theorem test_readUntil_captures : ((after (step (txtpOn
    { txtpIn [0x06, 0x48, 0x69, 0x08] [] [smallText] .params with p := 0, q := 1 }))).map
    (fun t => (t.txtp.vals, t.txtp.q))) = some ([[.B 0x48, .B 0x69]], 4) := by decide
theorem test_readUntil_placeholder : placeholder smallText [[.B 0x48, .B 0x69]] =
    ['<', 'S', 'm', 'a', 'l', 'l', 'T', 'e', 'x', 't', '>'].map Item.C ++ [.B 0x48, .B 0x69] ++
      ['<', '/', 'S', 'm', 'a', 'l', 'l', 'T', 'e', 'x', 't', '>'].map Item.C := by decide
theorem test_reset_from_fault : ((after (exec .reset (hsqdOut [0x11]))).map
    (fun t => (t.hsqd.st.status, t.hsqd.olen, t.hsqd.verify))) = some (.idle, 0, true) := by decide
-- R352; U41, R15 and R328: a launch of a RUNNING engine, or beside one, is refused; R59: IMGD's clears PALERR.
theorem test_launch_starts : ((after (exec (.launch (.hsqd [0x01, 0x02] false)) State.reset)).map
    (fun t => (t.hsqd.st.status, t.hsqd.inLen, t.hsqd.verify, t.hsqd.ibuf))) =
    some (.running, 2, false, [(0, 0x01), (1, 0x02)]) := by decide
theorem test_launch_one_engine :
    exec (.launch (.hsqd [] true)) (hsqdOut []) = .refused (.launchWhileRunning .hsqd) ∧
    exec (.launch (.imgd (.bytes []))) (hsqdOut []) = .refused (.otherRunning .hsqd) ∧
    (after (exec (.launch (.imgd (.bytes []))) (State.reset.setPalc ⟨Palc.reset.palette, true⟩))).map
      (fun t => t.palc.palerr) = some false := ⟨rfl, rfl, by decide⟩
-- R310's table.
theorem test_cause_codes : [Cause.none, .badChecksum, .unexpectedEnd, .backRefUnderflow, .arrayMismatch,
      .badOffsetsStart, .capacityExceeded].map Cause.code = [0, 1, 2, 3, 4, 5, 6] ∧
    [UnitCause.badRange, .truncated, .paramOverrun, .channelRange, .paletteOverrun].map UnitCause.code =
      [16, 17, 18, 24, 25] := by decide

/-! ## Witnesses: the hypotheses of each statement, met together -/

theorem witness_DecodeUndoesEncode :
    ((Instr.m1x 0xFFF8 0x0A).wf = true ∧ (Ctx.operands .method1).admits (.m1x 0xFFF8 0x0A) = true ∧
      ∀ raw, Instr.m1x 0xFFF8 0x0A = .partUnknown raw → ([0x99] : List Byte) = []) ∧
    ((Instr.partUnknown []).wf = true ∧ Ctx.part.admits (.partUnknown []) = true) ∧
    ((Instr.paramReadUntil [.C '<', .B 0x48] 0x08).wf = true ∧
      (ItemCtx.param (.readUntil 0x08)).admits (.paramReadUntil [.C '<', .B 0x48] 0x08) = true) :=
  ⟨⟨by decide, by decide, nofun⟩, by decide, by decide⟩

theorem witness_EncodeUndoesDecode :
    decode .part [0x00, 0x00] = .ok (.partUnknown [], []) ∧
    decodeItems (.param .read16) [.B 0x34, .B 0x12, .C '<'] = .ok (.paramRead16 4660, [.C '<']) :=
  ⟨rfl, rfl⟩

theorem witness_PrefixCodeIsComplete :
    4 ≤ [false, false, true, true].length ∧ (le16 0x01 0x00).toNat % 8 ≠ 0 ∧
    ((le16 0xF8 0xFF).toNat % 8 = 0 ∧ (0x01 : Byte) ≠ 0) ∧ (le16 0x00 0x00).toNat % 8 = 0 := by decide

theorem witness_ChecksumRelation : checksumOk 0xFF 0xFF 0xFF 0xFF 0xFF 0xB0 = true ∧
    (0xFE : Byte) ≠ 0xFF ∧ (0xB1 : Byte) ≠ 0xB0 := by decide

theorem witness_HeaderStepChecksSum :
    (State.reset.hsqd.verify = true ∧ (0 + 0 + 0 + 0 + 0 + (0xAB : Byte).toNat) % 256 = 0xAB) ∧
    (State.reset.hsqd.verify = true ∧ (0 + 0 + 0 + 0 + 0 + (0xAA : Byte).toNat) % 256 ≠ 0xAB) ∧
    ((hsqdOn [0, 0, 0, 0, 0] 0 0 0 .header none).hostq = [.run .hsqd] ∧
      (hsqdOn [0, 0, 0, 0, 0] 0 0 0 .header none).hsqd.st.status = .running) ∧
    window .ibuf (hsqdOn [0, 0, 0, 0, 0] 0 0 0 .header none).hsqd.ibuf 0 5 = .ok [0, 0, 0, 0, 0] :=
  ⟨by decide, by decide, by decide, rfl⟩

/-- H7's second word: `0` consumed, then `0 0 1`, the operand `F1` at the cursor. -/
def insidePrefix : State := hsqdOn [0xF1] 0 0x0004 16 .body (some [false])

theorem witness_HsqdStepRunsDecoded :
    (insidePrefix.hostq = [.run .hsqd] ∧ insidePrefix.hsqd.st.status = .running ∧
      insidePrefix.hsqd.phase = .body ∧ (Instr.m0 false true 0xF1).wf = true ∧
      (insidePrefix.hsqd.pfx.getD []).length < (Instr.m0 false true 0xF1).prefixBits.length ∧
      insidePrefix.hsqd.pfx.getD [] ++ bufferBits insidePrefix.hsqd.bitbuf insidePrefix.hsqd.bitcnt =
        (Instr.m0 false true 0xF1).prefixBits ++ List.replicate 13 false) ∧
    window .ibuf insidePrefix.hsqd.ibuf 0 1 = .ok ((Instr.m0 false true 0xF1).encode ++ []) ∧
    window .ibuf (hsqdOn [0, 0, 0, 0, 0, 0xAB] 0 0 0 .header none).hsqd.ibuf 0 6 =
      .ok [0, 0, 0, 0, 0, 0xAB] :=
  ⟨by decide, rfl, rfl⟩

theorem witness_InstructionWordReload :
    ((hsqdOn [0x04, 0x00] 0 0 1 .body none).hsqd.phase = .body ∧
      classify ([] ++ bufferBits 0 1) = none ∧ classify ([] ++ bufferBits 0 0) = none) ∧
    window .ibuf (hsqdOn [0x04, 0x00] 0 0 1 .body none).hsqd.ibuf 0 2 = .ok [0x04, 0x00] :=
  ⟨by decide, rfl⟩

theorem witness_CopyByteAppends :
    full State.reset.caps.outCap State.reset.hsqd.olen = false ∧
    full (cramped State.reset).caps.outCap (cramped State.reset).hsqd.olen = true := by decide

theorem witness_BackReferencesCopy : (hsqdOut [7]).hsqd.obuf.filled (hsqdOut [7]).hsqd.olen ∧
    256 - (0xFF : Byte).toNat ≤ (hsqdOut [7]).hsqd.olen ∧
    exceeds (hsqdOut [7]).caps.outCap ((hsqdOut [7]).hsqd.olen + 5) = false ∧
    ((0xFFFF : Half).toNat % 8 ≠ 0 ∧ 8192 - (0xFFFF : Half).toNat / 8 ≤ (hsqdOut [7]).hsqd.olen) ∧
    ((0xFFF8 : Half).toNat % 8 = 0 ∧ (0xFF : Byte) ≠ 0 ∧
      8192 - (0xFFF8 : Half).toNat / 8 ≤ (hsqdOut [7]).hsqd.olen) := by decide

theorem witness_BackReferenceUnderflow :
    (hsqdOut []).hsqd.olen < 256 - (0xFF : Byte).toNat ∧
    (hsqdOut []).hsqd.olen < 8192 - (0xFFFF : Half).toNat / 8 ∧
    ((hsqdOut [7]).hsqd.obuf.filled (hsqdOut [7]).hsqd.olen ∧ (-1 : Int) < 0 ∧
      0 ≤ ((hsqdOut [7]).hsqd.olen : Int) + -1) := by decide

theorem witness_SerialCopyIsCyclic : (hsqdOut [7]).hsqd.obuf.filled (hsqdOut [7]).hsqd.olen ∧
    1 ≤ (hsqdOut [7]).hsqd.olen ∧ exceeds Caps.unbounded.outCap 3 = false ∧
    (hsqdOut [7]).hsqd.olen < 2 := by decide

/-- An instruction boundary at the end of the input, with bits left in the buffer. -/
def atEnd : State := hsqdOn [0xFF, 0xFF] 2 0x00FF 8 .body none

theorem witness_HsqdRunEndsTwoWays : atEnd.hostq = [.run .hsqd] ∧ atEnd.hsqd.st.status = .running ∧
    atEnd.hsqd.phase = .body ∧ atEnd.hsqd.pfx = none ∧ atEnd.hsqd.pos = atEnd.hsqd.inLen ∧
    { atEnd.hsqd with st := ⟨.done, .none, 0⟩ }.st.status = .done := by decide

/-- F6: `0 1` in the buffer, `raw = 0xFFF8` at the cursor, `e` missing. -/
def extMissing : State := hsqdOn [0xF8, 0xFF] 0 0x0002 16 .body none

theorem witness_HsqdReadPastEndFaults :
    (window .ibuf (hsqdOn [] 0 0 0 .header none).hsqd.ibuf 0 0 = .ok []) ∧
    (classify ([] ++ bufferBits 0 0) = none ∧
      window .ibuf (hsqdOn [0x01] 0 0 0 .body none).hsqd.ibuf 0 1 = .ok [0x01]) ∧
    (extMissing.hsqd.pos ≠ extMissing.hsqd.inLen ∧
      ([] ++ bufferBits extMissing.hsqd.bitbuf extMissing.hsqd.bitcnt : List Bool) =
        PrefixKind.method1.bits ++ List.replicate 14 false ∧
      window .ibuf extMissing.hsqd.ibuf 0 2 = .ok [0xF8, 0xFF] ∧ (le16 0xF8 0xFF).toNat % 8 = 0) ∧
    (window .ibuf (hsqdOn [0xF8] 0 2 16 .body none).hsqd.ibuf 0 1 = .ok [0xF8] ∧
      (hsqdOn [] 0 2 16 .body (some [])).hsqd.pfx ≠ none) ∧
    (([] ++ bufferBits 0x0001 16 : List Bool) = PrefixKind.copyByte.bits ++ List.replicate 15 false ∧
      ([] ++ bufferBits 0x0008 16 : List Bool) =
        (PrefixKind.method0 false true).bits ++ List.replicate 12 false) ∧
    window .ibuf (hsqdOn [] 0 0x0008 16 .body (some [])).hsqd.ibuf 0 0 = .ok [] :=
  ⟨rfl, ⟨by decide, rfl⟩, ⟨by decide, by decide, rfl, by decide⟩, ⟨rfl, by decide⟩, by decide, rfl⟩

theorem witness_SmallStepsRefineBodyStep : extMissing.Inv ∧ extMissing.hsqd.st.status = .running ∧
    extMissing.hsqd.phase = .body ∧ extMissing.hsqd.pfx = none :=
  ⟨⟨by decide, by decide, by decide⟩, by decide⟩

theorem witness_HsqdRunEnds : insidePrefix.Inv ∧ insidePrefix.hsqd.st.status = .running :=
  ⟨⟨by decide, by decide, by decide⟩, by decide⟩

/-- IMGD at the start of P2's packed row, and of its first run. -/
def atRow : State := imgdOn (imgdRow [0x21, 0x73] .rows 3 0)

def atRun : State := imgdOn (imgdRow [0xFF, 0x34] .runs 5 8)

theorem witness_ImgdStepRunsDecoded :
    (atRun.hostq = [.run .imgd] ∧ atRun.imgd.st.status = .running ∧
      atRun.imgd.reads = some (.rle, 8, 10) ∧ Ctx.rle.admits (.rep 0x7F 0x34) = true ∧
      (Instr.rep 0x7F 0x34).wf = true ∧
      ∀ raw, Instr.rep 0x7F 0x34 = .partUnknown raw → ([] : List Byte) = []) ∧
    window .pbufImgd atRun.imgd.pbuf 8 10 = .ok ((Instr.rep 0x7F 0x34).encode ++ []) ∧
    atRow.imgd.reads = some (.pair, 8, 10) ∧
    window .pbufImgd atRow.imgd.pbuf 8 10 = .ok ((Instr.pair 0x21).encode ++ [0x73]) :=
  ⟨⟨by decide, by decide, by decide, by decide, by decide, nofun⟩, rfl, by decide, rfl⟩

theorem witness_ImageTablesAreChecked :
    (2 ≤ (2 : Half).toNat ∧ (2 : Half).toNat ≤ (imgdBase [2, 0]).plen) ∧
    ((1 : Half).toNat < 2) ∧ ((imgdBase [2, 0]).plen < (3 : Half).toNat) ∧
    ([(12 : Half), 16].length + 1 = max ((6 : Half).toNat / 2) 1 ∧ (6 : Half).toNat % 2 = 0) ∧
    (([] : List Half).length + 1 = max ((3 : Half).toNat / 2) 1 ∧ (3 : Half).toNat % 2 = 1) ∧
    (([] : List Half).length + 1 = max ((0 : Half).toNat / 2) 1 ∧ (0 : Half).toNat < 2) := by decide

theorem witness_ImageTablesAreChecked_short :
    window .pbufImgd (imgdBase [0x02]).pbuf 0 1 = .ok [0x02] ∧
    window .pbufImgd (imgdBase [0x02, 0x00]).pbuf 2 2 = .ok [] ∧
    (window .pbufImgd (imgdBase [0x02, 0x00, 0x04, 0x00, 0x09]).pbuf 2 5 = .ok [0x04, 0x00, 0x09] ∧
      [(0x04 : Byte), 0x00, 0x09].length < 2 * (((0x04 : Byte).toNat + 256 * (0x00 : Byte).toNat) / 2)) :=
  ⟨rfl, rfl, rfl, by decide⟩

/-- The palette loop of I15: a record of two colours, two bytes before the area ends. -/
def atPal : State :=
  imgdOn { imgdBase [0x06, 0x00, 0x05, 0x02, 0x01, 0x02, 0x02, 0x00, 0x00, 0x00] with
    phase := .palette, oas := 6, pcur := 2 }

theorem witness_PaletteLoop :
    (atPal.hostq = [.run .imgd] ∧ atPal.imgd.st.status = .running ∧ atPal.imgd.phase = .palette ∧
      ¬ ((0x05 : Byte) = 0xFF ∧ (0x02 : Byte) = 0xFF) ∧
      [(0x01 : Byte), 0x02].length < 3 * (0x02 : Byte).toNat ∧
      full atPal.caps.logCap atPal.imgd.skiplog.length = false ∧
      full atPal.caps.nSubpalCap atPal.imgd.subpals.length = false ∧
      full (cramped atPal).caps.nSubpalCap (cramped atPal).imgd.subpals.length = true) ∧
    window .pbufImgd atPal.imgd.pbuf 2 6 = .ok [0x05, 0x02, 0x01, 0x02] ∧
    window .pbufImgd atPal.imgd.pbuf 5 6 = .ok [0x02] ∧
    ((∀ c ∈ [(⟨63, 0, 63⟩ : Color)], c.r.toNat < 64 ∧ c.g.toNat < 64 ∧ c.b.toNat < 64) ∧
      ∃ c ∈ [(⟨0, 64, 0⟩ : Color)], 64 ≤ c.r.toNat ∨ 64 ≤ c.g.toNat ∨ 64 ≤ c.b.toNat) :=
  ⟨by decide, rfl, rfl, by decide⟩

/-- I5's offsets: part 0 is `[6, 18)` and part 1 `[18, 13)`, of 13 bytes. -/
def atFrame (abs : List Nat) : State :=
  imgdOn { imgdBase (List.replicate 13 0) with phase := .frame, oas := 2, n := abs.length, abs := abs }

theorem witness_PartFraming :
    ((atFrame [6, 13]).imgd.st.status = .running ∧ (atFrame [6, 13]).imgd.phase = .frame ∧
      (atFrame [6, 13]).imgd.i < (atFrame [6, 13]).imgd.n ∧ (atFrame [6, 13]).imgd.abs[0]? = some 6 ∧
      (atFrame [6, 13]).imgd.abs[1]? = some 13 ∧ 13 ≤ (atFrame [6, 13]).imgd.plen) ∧
    ((atFrame [6, 18]).imgd.plen < 18 ∧
      full (atFrame [6, 18]).caps.logCap (atFrame [6, 18]).imgd.skiplog.length = false) ∧
    ((atFrame [18]).imgd.n = (atFrame [18]).imgd.i + 1 ∧ (atFrame [18]).imgd.plen < 18) ∧
    (atFrame []).imgd.n ≤ (atFrame []).imgd.i := by decide

/-- IMGD at the header of a part whose range is `bytes`. -/
def atHeader (bytes : List Byte) : State := imgdOn (imgdAt Imgd.reset bytes .header)

theorem witness_PartHeaderDispatch :
    ((atHeader [0]).imgd.st.status = .running ∧ (atHeader [0]).imgd.phase = .header ∧
      full (atHeader [0]).caps.logCap (atHeader [0]).imgd.skiplog.length = false) ∧
    window .pbufImgd (atHeader [0]).imgd.pbuf 4 5 = .ok [0] ∧
    window .pbufImgd (atHeader [0, 0]).imgd.pbuf 4 6 = .ok [0, 0] ∧
    window .pbufImgd (atHeader [0, 0x80, 1, 0]).imgd.pbuf 4 8 = .ok [0, 0x80, 1, 0] ∧
    window .pbufImgd (atHeader [1, 0, 1]).imgd.pbuf 4 7 = .ok [1, 0, 1] :=
  ⟨by decide, rfl, rfl, rfl, rfl⟩

theorem witness_UnknownPartStored :
    ((atHeader [0, 0, 5, 7]).hostq = [.run .imgd] ∧
      full (atHeader [0, 0, 5, 7]).caps.nPartCap (atHeader [0, 0, 5, 7]).imgd.unkparts.length = false) ∧
    window .pbufImgd (atHeader [0, 0, 5, 7]).imgd.pbuf 4 8 = .ok [0, 0, 5, 7] :=
  ⟨by decide, rfl⟩

theorem witness_ImagePartOpens :
    exceeds (atHeader []).caps.pixCap ((3 : BitVec 15).toNat * (1 : Byte).toNat) = false ∧
    exceeds (cramped (atHeader [])).caps.pixCap ((3 : BitVec 15).toNat * (1 : Byte).toNat) = true ∧
    exceeds (cramped (atHeader [])).caps.pixCap ((0 : BitVec 15).toNat * (1 : Byte).toNat) = false ∧
    ((atHeader [3, 0, 1, 0, 0x21, 0x73]).imgd.pstart + 4 + (1 : Byte).toNat *
      (2 * (((3 : BitVec 15).toNat + 3) / 4)) ≤ (atHeader [3, 0, 1, 0, 0x21, 0x73]).imgd.pend) ∧
    ((atHeader [3, 0, 1, 0, 0x21]).imgd.pend < (atHeader [3, 0, 1, 0, 0x21]).imgd.pstart + 4 +
      (1 : Byte).toNat * (2 * (((3 : BitVec 15).toNat + 3) / 4)) ∧
      full (atHeader []).caps.logCap (atHeader []).imgd.skiplog.length = false) := by decide

theorem witness_PixelRunsEmit : (List.replicate 127 (0 : Byte)).length ≤ 127 := by
  rw [List.length_replicate]

theorem witness_PixelPairNibbles : atRow.imgd.x + 1 < atRow.imgd.width.toNat ∧
    atRow.imgd.y * atRow.imgd.width.toNat + atRow.imgd.x + 1 < atRow.imgd.pixels.length := by decide

/-- The end of an RLE row with the greatest overshoot. -/
def rowOver : State := imgdOn (imgdRow [] .runs 2 (-256))

theorem witness_LineRemainRule :
    exceeds atRun.caps.pixCap ((5 : BitVec 15).toNat * (2 : Byte).toNat) = false ∧
    (rowOver.hostq = [.run .imgd] ∧ rowOver.imgd.st.status = .running ∧ rowOver.imgd.phase = .runs ∧
      rowOver.imgd.y < rowOver.imgd.height.toNat ∧ rowOver.imgd.lineRemain ≤ 0) ∧
    ((Instr.rep 0 0x21).wf = true ∧ 0 < atRun.imgd.lineRemain ∧ atRun.imgd.lineRemain % 2 = 0 ∧
      atRun.imgd.lineRemain ≤ 32768) := by decide

/-- A packed row that is finished, and the end of its part. -/
def rowDone : State := imgdOn { imgdRow [0x21, 0x73] .rows 3 0 with x := 4, s := 10 }

def partDone : State := imgdOn { imgdRow [0x21, 0x73] .rows 3 0 with y := 1, s := 10 }

/-- I6: a literal run of two pairs with one value byte. -/
def runCut : State := imgdOn (imgdRow [0x01, 0x12] .runs 4 4)

theorem witness_RowLoopsEnd :
    (rowDone.imgd.phase = .rows ∧ rowDone.imgd.y < rowDone.imgd.height.toNat ∧
      2 * rowDone.imgd.bpl ≤ rowDone.imgd.x) ∧
    (partDone.imgd.height.toNat ≤ partDone.imgd.y ∧
      full partDone.caps.nPartCap partDone.imgd.imgparts.length = false ∧
      full (cramped partDone).caps.nPartCap (cramped partDone).imgd.imgparts.length = true) ∧
    window .pbufImgd partDone.imgd.pbuf 8 10 = .ok [0x21, 0x73] ∧
    (runCut.imgd.reads = some (.rle, 8, 10) ∧ (0x01 : Byte).toNat < 128 ∧
      [(0x12 : Byte)].length < (0x01 : Byte).toNat + 1 ∧
      full runCut.caps.logCap runCut.imgd.skiplog.length = false ∧
      full (cramped runCut).caps.logCap (cramped runCut).imgd.skiplog.length = true) ∧
    window .pbufImgd runCut.imgd.pbuf 8 10 = .ok [0x01, 0x12] :=
  ⟨by decide, by decide, rfl, by decide, rfl⟩

/-- IMGD DONE with one stored record. -/
def imgdDone : State :=
  (State.reset.setImgd { Imgd.reset with st := ⟨.done, .none, 0⟩, phase := .frame, k := 1, subpals := [⟨0, 16, []⟩] }).setHostq
    [.compose 0 ⟨0, 0, 0⟩]

theorem witness_ComposeFillsPalette :
    (imgdDone.hostq = [.compose 0 ⟨0, 0, 0⟩] ∧ imgdDone.imgd.st.status = .done ∧
      imgdDone.imgd.subpals[0]? = some ⟨0, 16, []⟩ ∧ imgdDone.imgd.subpals.length ≤ 1) ∧
    State.reset.imgd.st.status ≠ .done := by decide

/-- TXTP in the charset decode, in the scan, and in the final decode of one sentence. -/
def atRaw : State := txtpOn (txtpIn [0x41, 0xFE] cs1 [var] .raw)

def atScan : State := txtpOn (txtpIn [0x80, 0x05, 0x21] cs1 [var] .scan)

def atFinal : State := txtpOn (txtpIn [0x41] cs1 [] .final)

theorem witness_TxtpStepRunsDecoded :
    (atRaw.hostq = [.run .txtp] ∧ atRaw.txtp.st.status = .running ∧
      atRaw.txtp.reads = some (.char cs1, 4, 6) ∧ (Ctx.char cs1).admits (.charOverride 0x41) = true ∧
      (Instr.charOverride 0x41).wf = true) ∧
    window .pbufTxtp atRaw.txtp.pbuf 4 6 = .ok ((Instr.charOverride 0x41).encode ++ [0xFE]) ∧
    (atScan.txtp.readsItems = some (.trigger 0x80, 0) ∧
      (ItemCtx.trigger 0x80).admits (.tinstr 0x80) = true ∧
      atScan.txtp.w.drop 0 = (Instr.tinstr 0x80).encodeItems ++ [.B 0x05, .B 0x21]) ∧
    (atFinal.txtp.phase = .final ∧ atFinal.txtp.w[atFinal.txtp.outText.length]? = some (.B 0x41) ∧
      (Instr.charOverride 0x41).encode = [0x41]) :=
  ⟨by decide, rfl, by decide, by decide⟩

theorem witness_SentenceIndexRead :
    ([(9 : Half), 8].length + 1 = max ((6 : Half).toNat / 2) 1 ∧
      ([] : List Half).length + 1 = max ((0 : Half).toNat / 2) 1) ∧
    window .pbufTxtp (txtpBase [0x05] [] []).pbuf 0 1 = .ok [0x05] ∧
    (window .pbufTxtp (txtpBase [0x06, 0x00, 0x08, 0x00] [] []).pbuf 0 4 = .ok [0x06, 0x00, 0x08, 0x00] ∧
      [(0x06 : Byte), 0x00, 0x08, 0x00].length <
        2 * (((0x06 : Byte).toNat + 256 * (0x00 : Byte).toNat) / 2)) :=
  ⟨by decide, rfl, rfl, by decide⟩

/-- The framing of sentence 0 of an index, of a payload of 9 bytes. -/
def atSentence (addr : List Half) : State :=
  txtpOn { txtpBase (List.replicate 9 0) [] [] with phase := .frame, n := addr.length, addr := addr }

theorem witness_SentenceFraming :
    ((atSentence [6, 9]).hostq = [.run .txtp] ∧ (atSentence [6, 9]).txtp.st.status = .running ∧
      (atSentence [6, 9]).txtp.i + 1 < (atSentence [6, 9]).txtp.n ∧
      (atSentence [6, 9]).txtp.addr[0]? = some 6 ∧ (atSentence [6, 9]).txtp.addr[1]? = some 9 ∧
      (9 : Half).toNat ≤ (atSentence [6, 9]).txtp.plen) ∧
    ((8 : Half).toNat < (9 : Half).toNat ∧ (atSentence [9, 10]).txtp.plen < (10 : Half).toNat ∧
      full (atSentence [9, 8]).caps.logCap (atSentence [9, 8]).txtp.skiplog.length = false) ∧
    (atSentence [6]).txtp.n ≤ (atSentence [6]).txtp.i + 1 := by decide

theorem witness_CharactersDecode : Charset.get atRaw.txtp.charset 0x41 = some 'Å' ∧
    (0x41 : Byte) ≠ 0xFE ∧ (0x41 : Byte) ≠ 0x0D ∧ Charset.get atRaw.txtp.charset 0xFF = none ∧
    'ÿ'.toNat = (0xFF : Byte).toNat ∧ atRaw.txtp.phase ≠ .final ∧ atFinal.txtp.phase = .final := by decide

theorem witness_RawTextIsCharsetDecode :
    (atRaw.txtp.st.status = .running ∧ atRaw.txtp.phase = .raw ∧ atRaw.txtp.c = atRaw.txtp.sstart ∧
      atRaw.txtp.rawText = []) ∧
    window .pbufTxtp atRaw.txtp.pbuf atRaw.txtp.sstart atRaw.txtp.send = .ok [0x41, 0xFE] :=
  ⟨by decide, rfl⟩

/-- The end of the charset decode, and the scan for an entry that has no trigger byte. -/
def rawDone : State := txtpOn { txtpIn [0x41] cs1 [var] .raw with c := 5 }

def scanMiss : State := txtpOn (txtpIn [0x41] cs1 [var] .scan)

theorem witness_ExpansionLoop :
    (atScan.txtp.w[0]? = some (.B 0x80) ∧ (∀ j < 0, atScan.txtp.w[j]? ≠ some (.B 0x80)) ∧
      atScan.txtp.itab[atScan.txtp.entry]? = some var) ∧
    (rawDone.txtp.send ≤ rawDone.txtp.c ∧ exceeds rawDone.caps.textCap 1 = false ∧
      exceeds (cramped rawDone).caps.textCap 1 = true) ∧
    window .pbufTxtp rawDone.txtp.pbuf rawDone.txtp.sstart rawDone.txtp.send = .ok [0x41] ∧
    (scanMiss.txtp.phase = .scan ∧ scanMiss.txtp.itab[scanMiss.txtp.entry]? = some var ∧
      Item.B var.triggerByte ∉ scanMiss.txtp.w) ∧
    (txtpIn [0x41] cs1 [] .scan).itab.length ≤ (txtpIn [0x41] cs1 [] .scan).entry :=
  ⟨⟨by decide, by decide, by decide⟩, by decide, rfl, by decide, by decide⟩

/-- T13's `Num` at its Read16, with one byte left; and with an inserted character in its place (T2). -/
def read16Cut : State :=
  txtpOn { txtpIn [0x81, 0x07, 0x34] cs1 [num] .params with p := 0, q := 2, prm := 1, t := 0x81 }

def read8Char : State :=
  txtpOn { txtpIn [0x81, 0x80] cs1 [num] .params with p := 0, q := 1, w := [.B 0x81, .C '<'] }

theorem witness_NumericParameters :
    (read16Cut.hostq = [.run .txtp] ∧ read16Cut.txtp.st.status = .running ∧
      read16Cut.txtp.itab[read16Cut.txtp.entry]? = some num ∧
      num.params[read16Cut.txtp.prm]? = some ⟨['v', 'a', 'l'], .read16⟩ ∧
      full read16Cut.caps.logCap read16Cut.txtp.skiplog.length = false ∧
      read16Cut.txtp.w[read16Cut.txtp.q + 1]? = none) ∧
    (num.params[read8Char.txtp.prm]? = some ⟨['l', 'o'], .read8⟩ ∧
      read8Char.txtp.w[read8Char.txtp.q]? = some (.C '<')) := by decide

/-- T9 and T4: `SmallText` with its terminator at once, and with none. -/
def untilHit : State :=
  txtpOn { txtpIn [0x06, 0x08] [] [smallText] .params with p := 0, q := 1, t := 0x06 }

def untilMiss : State :=
  txtpOn { txtpIn [0x06, 0x48] [] [smallText] .params with p := 0, q := 1, t := 0x06 }

theorem witness_ReadUntilCaptures :
    (untilHit.hostq = [.run .txtp] ∧ untilHit.txtp.st.status = .running ∧
      untilHit.txtp.itab[untilHit.txtp.entry]? = some smallText ∧
      smallText.params[untilHit.txtp.prm]? = some ⟨['t', 'e', 'x', 't'], .readUntil 0x08⟩ ∧
      untilHit.txtp.q ≤ 1 ∧ untilHit.txtp.w[1]? = some (.B 0x08)) ∧
    (∀ j, untilHit.txtp.q ≤ j → j < 1 → untilHit.txtp.w[j]? ≠ some (.B 0x08)) ∧
    (∀ r : Nat, untilMiss.txtp.q ≤ r → untilMiss.txtp.w[r]? ≠ some (.B 0x08)) ∧
    full untilMiss.caps.logCap untilMiss.txtp.skiplog.length = false := by
  refine ⟨by decide, fun j h1 h2 => absurd (Nat.lt_of_le_of_lt h1 h2) (by decide), fun r _ => ?_, by decide⟩
  match r with
  | 0 => decide
  | 1 => decide
  | _ + 2 => nofun

/-- `Var` with its parameter read. -/
def closing : State :=
  txtpOn { txtpIn [0x80, 0x05, 0x21] cs1 [var] .params with
    p := 0, q := 2, prm := 1, t := 0x80, c := 7, vals := [[.C '5']],
    rawText := ['x', 'y', 'z'] }

theorem witness_ExpansionReplacesSpan :
    (¬ ∃ name t, var.params = [⟨name, .readUntil t⟩]) ∧
    (closing.txtp.phase = .params ∧ closing.txtp.itab[closing.txtp.entry]? = some var ∧
      var.params.length ≤ closing.txtp.prm) ∧
    (exceeds closing.caps.textCap
        (closing.txtp.w.take closing.txtp.p ++ placeholder var closing.txtp.vals ++
          closing.txtp.w.drop closing.txtp.q).length = false ∧
      exceeds (cramped closing).caps.textCap
        (closing.txtp.w.take closing.txtp.p ++ placeholder var closing.txtp.vals ++
          closing.txtp.w.drop closing.txtp.q).length = true) :=
  ⟨nofun, by decide, by decide⟩

theorem witness_ExpansionConsumesRawBytes : closing.Inv ∧ closing.txtp.st.status = .running ∧
    closing.txtp.phase = .params ∧ ((after (engineStep .txtp closing)).map
      (fun t => (t.txtp.phase, rawItems t.txtp.w, rawItems closing.txtp.w))) = some (.scan, 1, 3) :=
  ⟨⟨by decide, by decide, by decide⟩, by decide⟩

theorem witness_FinalDecode : atFinal.txtp.st.status = .running ∧ atFinal.txtp.phase = .final ∧
    atFinal.txtp.outText = [] ∧ atFinal.txtp.w = [0x41].map Item.B := by decide

theorem witness_SentenceStored :
    ({ atFinal.txtp with outText := ['Å'] }.w.length ≤ { atFinal.txtp with outText := ['Å'] }.outText.length ∧
      full atFinal.caps.nSentCap atFinal.txtp.sentences.length = false) ∧
    ((atSentence [6]).txtp.phase = .frame ∧ (atSentence [6]).txtp.n ≤ (atSentence [6]).txtp.i + 1) := by decide

theorem witness_UnitErrorIsolatesUnit : full Caps.unbounded.logCap 0 = false ∧
    [(⟨0, 64, 0⟩ : Color)].any channelOut = true := by decide

theorem witness_FullStoreIsFatal :
    ((hsqdOut [7]).hsqd.obuf.filled (hsqdOut [7]).hsqd.olen ∧ 1 ≤ (hsqdOut [7]).hsqd.olen ∧
      { noRoom with outCap := some 1 }.outCap = some 1 ∧ (hsqdOut [7]).hsqd.olen ≤ 1 ∧
      1 < (hsqdOut [7]).hsqd.olen + 2) ∧
    (full noRoom.logCap 0 = true ∧ full noRoom.nPartCap 0 = true ∧ full noRoom.nSentCap 0 = true) := by decide

/-- HSQD DONE with one byte of output. -/
def hsqdDone : State :=
  State.reset.setHsqd { (hsqdOut [0x11]).hsqd with st := ⟨.done, .none, 0⟩, stop := .endMarker }

theorem witness_LaunchStartsEngine :
    ((∀ e, (statusOf e State.reset).status ≠ .running) ∧
      exceeds (some 2) [(0x01 : Byte), 0x02].length = false) ∧
    ((∀ e, (statusOf e hsqdDone).status ≠ .running) ∧ hsqdDone.hsqd.st.status = .done ∧
      exceeds hsqdDone.caps.pCap [(0x11 : Byte)].length = false ∧
      exceeds hsqdDone.caps.nInstrCap [var].length = false) ∧
    window .obuf hsqdDone.hsqd.obuf 0 hsqdDone.hsqd.olen = .ok [0x11] :=
  ⟨⟨fun e => by cases e <;> decide, by decide⟩, ⟨fun e => by cases e <;> decide, by decide⟩, rfl⟩

theorem witness_LaunchPreconditions :
    (hsqdOut []).hsqd.st.status = .running ∧ atRow.imgd.st.status = .running ∧
    atRaw.txtp.st.status = .running ∧
    (boundRunning (State.reset.setImgd { atRow.imgd with bound := true }) = true ∧
      State.reset.hsqd.st.status ≠ .running) ∧
    (boundRunning atRow = false ∧ atRow.hsqd.st.status ≠ .running ∧ atRow.txtp.st.status ≠ .running ∧
      atRaw.imgd.st.status ≠ .running) ∧
    State.reset.hsqd.st.status ≠ .done ∧
    (∀ e, (statusOf e (cramped State.reset)).status ≠ .running) ∧
    (exceeds (cramped State.reset).caps.inCap [(0 : Byte)].length = true ∧
      exceeds (cramped State.reset).caps.pCap [(0 : Byte)].length = true ∧
      exceeds (cramped State.reset).caps.nInstrCap [var].length = true) ∧
    ((∀ e, (statusOf e (cramped hsqdDone)).status ≠ .running) ∧
      (cramped hsqdDone).hsqd.st.status = .done ∧
      exceeds (cramped hsqdDone).caps.pCap [(0x11 : Byte)].length = true) ∧
    window .obuf (cramped hsqdDone).hsqd.obuf 0 (cramped hsqdDone).hsqd.olen = .ok [0x11] :=
  ⟨by decide, by decide, by decide, by decide, by decide, by decide, fun e => by cases e <;> decide,
    by decide, ⟨fun e => by cases e <;> decide, by decide⟩, rfl⟩

theorem witness_ResultReadsAreGated :
    (hsqdDone.hsqd.st.status = .done ∧ imgdDone.imgd.st.status = .done ∧
      { atRaw.txtp with st := ⟨.done, .none, 0⟩ }.st.status = .done ∧
      (statusOf .hsqd (hsqdOut [])).status ≠ .fault ∧
      (statusOf .imgd (State.reset.setImgd { Imgd.reset with st := ⟨.fault, .arrayMismatch, 2⟩ })).status =
        .fault) ∧
    window .obuf hsqdDone.hsqd.obuf 0 hsqdDone.hsqd.olen = .ok [0x11] :=
  ⟨by decide, rfl⟩

/-- Every engine's run is over, and the host has asked one of them to step. -/
def allOver : State :=
  { hsqdDone with
    imgd := imgdDone.imgd, txtp := { Txtp.reset with st := ⟨.fault, .unexpectedEnd, 0⟩ },
    hostq := [.run .txtp] }

theorem witness_EndedRunsAreSticky : step allOver = .next (allOver.setHostq []) ∧
    (∀ q, allOver.hostq ≠ .reset :: q) ∧
    (allOver.hsqd.st.status = .done ∧ ∀ bytes verify q, allOver.hostq ≠ .launch (.hsqd bytes verify) :: q) ∧
    (allOver.imgd.st.status = .done ∧ ∀ p q, allOver.hostq ≠ .launch (.imgd p) :: q) ∧
    (allOver.txtp.st.status = .fault ∧
      ∀ p charset itab q, allOver.hostq ≠ .launch (.txtp p charset itab) :: q) :=
  ⟨rfl, nofun, ⟨rfl, nofun⟩, ⟨rfl, nofun⟩, rfl, nofun⟩

theorem witness_EnginesShareNoState :
    ((after (exec (.endMark 0) (hsqdOut []))).isSome = true ∧ engineOf (.endMark 0) = some .hsqd) ∧
    ((after (exec .palterm atPal)).isSome = true ∧ engineOf .palterm = some .imgd) ∧
    ((after (exec .nlFe atRaw)).isSome = true ∧ engineOf .nlFe = some .txtp) ∧
    (after (engineStep .hsqd extMissing)).isSome = true ∧ (after (engineStep .imgd atRow)).isSome = true ∧
    (after (engineStep .txtp atRaw)).isSome = true := by decide

theorem witness_InputsAreNeverWritten : (after (step atRaw)).isSome = true ∧
    (∀ q, atRaw.hostq ≠ .reset :: q) ∧
    (∀ bytes verify q, atRaw.hostq ≠ .launch (.hsqd bytes verify) :: q) ∧
    (∀ p q, atRaw.hostq ≠ .launch (.imgd p) :: q) ∧
    (∀ p charset itab q, atRaw.hostq ≠ .launch (.txtp p charset itab) :: q) :=
  ⟨by decide, nofun, nofun, nofun, nofun⟩

theorem witness_StoresOnlyGrow : (after (engineStep .hsqd insidePrefix)).isSome = true ∧
    (after (engineStep .imgd partDone)).isSome = true ∧
    (after (engineStep .txtp atFinal)).isSome = true := by decide

theorem witness_RunsArePure :
    State.reset.caps = imgdDone.caps ∧
    (after (exec (.launch (.hsqd [0x01] true)) State.reset)).isSome = true ∧
    (after (exec (.launch (.hsqd [0x01] true)) imgdDone)).isSome = true ∧
    (after (exec (.launch (.imgd (.bytes [0x01]))) State.reset)).isSome = true ∧
    (after (exec (.launch (.imgd (.bytes [0x01]))) imgdDone)).isSome = true ∧
    (after (exec (.launch (.txtp (.bytes [0x01]) cs1 [var])) State.reset)).isSome = true ∧
    (after (exec (.launch (.txtp (.bytes [0x01]) cs1 [var])) imgdDone)).isSome = true ∧
    (after (runEngine .hsqd 2 atEnd)).isSome = true ∧
    atEnd.hsqd = (imgdDone.setHsqd atEnd.hsqd).hsqd := by decide

theorem witness_FreeStepPicksRunningEngine :
    ((atEnd.setHostq []).hostq = [] ∧ atEnd.hsqd.st.status = .running) ∧
    (atRow.hsqd.st.status ≠ .running ∧ atRow.imgd.st.status = .running) ∧
    (atRaw.hsqd.st.status ≠ .running ∧ atRaw.imgd.st.status ≠ .running ∧
      atRaw.txtp.st.status = .running) ∧
    (State.reset.hostq = [] ∧ State.reset.hsqd.st.status ≠ .running ∧
      State.reset.imgd.st.status ≠ .running ∧ State.reset.txtp.st.status ≠ .running) := by decide

theorem witness_InterpreterRunsEnd : (atRun.Inv ∧ atRun.imgd.st.status = .running) ∧
    (closing.Inv ∧ closing.txtp.st.status = .running) :=
  ⟨⟨⟨by decide, by decide, by decide⟩, by decide⟩, ⟨by decide, by decide, by decide⟩, by decide⟩

theorem witness_StepKeepsInvariant : closing.Inv ∧ (after (step closing)).isSome = true :=
  ⟨⟨by decide, by decide, by decide⟩, by decide⟩

theorem witness_WellKeptStepsNeverFault : atRaw.Inv ∧ imgdDone.Inv :=
  ⟨⟨by decide, by decide, by decide⟩, ⟨by decide, by decide, by decide⟩⟩

/-- I5's second part, out of range, after a first part that is stored as UNKNOWN. -/
def atSkip : State :=
  (atFrame [6, 18]).setImgd { (atFrame [6, 18]).imgd with i := 1, unkparts := [⟨0, []⟩] }

theorem witness_StepKeepsStores : (atSkip.Inv ∧ atSkip.StoresInv) ∧
    ((after (step atSkip)).map fun t => (t.imgd.partIds, t.imgd.i)) = some ([0, 1], 2) :=
  ⟨⟨⟨by decide, by decide, by decide⟩, nofun, nofun, nofun, nofun, by decide, by decide⟩, by decide⟩

end Sys2Proof.Tests
end

section
/-! PROOFS. Decoding is sound: whatever a decoder answers is a well-formed instruction of its context, and its
encoding is what the decoder consumed (R100 to R125). A decoder that runs short has not read past the end. -/

namespace Sys2Proof

theorem takeHalves_ok {n : Nat} {bs rest : List Byte} {es : List Half} (h : takeHalves n bs = .ok (es, rest)) :
    es.length = n ∧ (es.map halfBytes).flatten ++ rest = bs := by
  induction n, bs using takeHalves.induct generalizing es with
  | case1 bs => cases h; simp
  | case2 n lo hi bs es' rest' heq ih =>
    simp only [takeHalves, heq] at h
    cases h
    obtain ⟨hlen, happ⟩ := ih heq
    simp [hlen, happ, halfBytes]
  | case3 n lo hi bs k heq ih => simp [takeHalves, heq] at h
  | case4 n bs hbs => simp [takeHalves] at h

theorem takeColors_some {n : Nat} {bs rest : List Byte} {cs : List Color}
    (h : takeColors n bs = some (cs, rest)) :
    cs.length = n ∧ (cs.map Color.bytes).flatten ++ rest = bs := by
  induction n, bs using takeColors.induct generalizing cs with
  | case1 bs => cases h; simp
  | case2 n r g b bs cs' rest' heq ih =>
    simp only [takeColors, heq] at h
    cases h
    obtain ⟨hlen, happ⟩ := ih heq
    simp [hlen, happ, Color.bytes]
  | case3 n r g b bs heq ih => simp [takeColors, heq] at h
  | case4 n bs hbs => simp [takeColors] at h

theorem takeBytes_some {n : Nat} {bs vs rest : List Byte} (h : takeBytes n bs = some (vs, rest)) :
    vs.length = n ∧ vs ++ rest = bs := by
  induction n, bs using takeBytes.induct generalizing vs with
  | case1 bs => cases h; simp
  | case2 n b bs vs' rest' heq ih =>
    simp only [takeBytes, heq] at h
    cases h
    obtain ⟨hlen, happ⟩ := ih heq
    simp [hlen, happ]
  | case3 n b bs heq ih => simp [takeBytes, heq] at h
  | case4 n => simp [takeBytes] at h

/-- What a byte decoder's answer says of the bytes it was given. -/
def DecodedFrom (ctx : Ctx) (bs : List Byte) (d : Instr × List Byte) : Prop :=
  d.1.wf = true ∧ ctx.admits d.1 = true ∧ d.1.encode ++ d.2 = bs

theorem decodeMethod1_sound {bs : List Byte} {d : Instr × List Byte} (h : decodeMethod1 bs = .ok d) :
    DecodedFrom (.operands .method1) bs d := by
  unfold decodeMethod1 at h
  split at h
  · split at h
    · rename_i hz
      split at h
      · cases h
      · split at h <;> cases h <;> simp_all [DecodedFrom, Instr.wf, Ctx.admits, Instr.encode, halfBytes]
    · cases h
      simp_all [DecodedFrom, Instr.wf, Ctx.admits, Instr.encode, halfBytes]
  · cases h

theorem decodeOperands_sound {k : PrefixKind} {bs : List Byte} {d : Instr × List Byte}
    (h : decodeOperands k bs = .ok d) : DecodedFrom (.operands k) bs d := by
  rcases k with _ | ⟨b1, b2⟩ | _
  case method1 => exact decodeMethod1_sound h
  all_goals cases bs <;> cases h; simp [DecodedFrom, Instr.wf, Ctx.admits, Instr.encode]

theorem decodePal_sound {bs : List Byte} {d : Instr × List Byte} (h : decodePal bs = .ok d) :
    DecodedFrom .pal bs d := by
  unfold decodePal at h
  split at h
  · rename_i loc cnt rest
    split at h
    · cases h
      simp_all [DecodedFrom, Instr.wf, Ctx.admits, Instr.encode]
    · rename_i hterm
      split at h <;> cases h
      rename_i raws rest' htake
      obtain ⟨hlen, rfl⟩ := takeColors_some htake
      have hcnt := cnt.isLt
      have hff : cnt.toNat = 255 → cnt = 0xFF := fun h => BitVec.eq_of_toNat_eq h
      refine ⟨?_, rfl, by simp [Instr.encode, hlen]⟩
      simp only [Instr.wf, hlen, Bool.and_eq_true, decide_eq_true_eq, Bool.not_eq_true',
        Bool.and_eq_false_iff, beq_eq_false_iff_ne]
      exact ⟨by omega, not_and_or.mp fun hc => hterm ⟨hc.1, hff hc.2⟩⟩
  · cases h

theorem decodeEntries_sound {mk : List Half → Instr} {bs rest : List Byte} {i : Instr}
    (h : decodeEntries mk bs = .ok (i, rest)) :
    ∃ entries, i = mk entries ∧ entriesWf entries = true ∧ (entries.map halfBytes).flatten ++ rest = bs := by
  unfold decodeEntries at h
  split at h
  · rename_i lo hi tail
    split at h <;> cases h
    rename_i es htake
    obtain ⟨hlen, rfl⟩ := takeHalves_ok htake
    refine ⟨_, rfl, ?_, by simp [halfBytes]⟩
    simp only [entriesWf, hlen, beq_iff_eq]
    omega
  · cases h

theorem decodePart_sound {bs : List Byte} {d : Instr × List Byte} (h : decodePart bs = .ok d) :
    DecodedFrom .part bs d := by
  unfold decodePart at h
  split at h
  · rename_i lo hi rest
    have hcw : ∀ comp, (le16 lo hi).msb = comp → partWord comp ((le16 lo hi).setWidth 15) = le16 lo hi := by
      rintro comp hmsb
      apply BitVec.eq_of_toNat_eq
      have := (le16 lo hi).isLt
      rw [BitVec.msb_eq_decide] at hmsb
      rw [partWord_toNat, BitVec.toNat_setWidth]
      cases comp <;> simp at hmsb ⊢ <;> omega
    split at h
    · rename_i hz
      cases h
      have hlo : lo = 0 := by rw [← loByte_le16 lo hi, hz]; rfl
      have hhi : hi = 0 := by rw [← hiByte_le16 lo hi, hz]; rfl
      exact ⟨rfl, rfl, by simp [Instr.encode, hlo, hhi]⟩
    · rename_i hz
      split at h
      · split at h <;> cases h
        · rename_i hmsb
          exact ⟨rfl, rfl, by simp [Instr.encode, hcw _ hmsb, halfBytes]⟩
        · rename_i hmsb
          have hword := hcw false (by simpa using hmsb)
          refine ⟨?_, rfl, by simp [Instr.encode, hword, halfBytes]⟩
          simp only [Instr.wf, bne_iff_ne, ne_eq]
          intro hw
          exact hz (by rw [← hword, hw]; rfl)
      · cases h
  · cases h

theorem decodeRle_sound {bs : List Byte} {d : Instr × List Byte} (h : decodeRle bs = .ok d) :
    DecodedFrom .rle bs d := by
  unfold decodeRle at h
  split at h
  · rename_i cmd rest
    have hlt := cmd.isLt
    split at h
    · rename_i hmsb
      have hcmd : (1#1 ++ cmd.setWidth 7 : BitVec 8) = cmd := by
        apply BitVec.eq_of_toNat_eq
        simp only [BitVec.msb_eq_decide, decide_eq_true_eq] at hmsb
        rw [repByte_toNat, BitVec.toNat_setWidth]
        omega
      split at h <;> cases h
      exact ⟨rfl, rfl, by simp only [Instr.encode, hcmd]; rfl⟩
    · rename_i hmsb
      split at h <;> cases h
      rename_i vs rest' htake
      obtain ⟨hlen, rfl⟩ := takeBytes_some htake
      simp only [BitVec.msb_eq_decide, decide_eq_true_eq] at hmsb
      refine ⟨?_, rfl, by simp [Instr.encode, hlen]⟩
      simp only [Instr.wf, hlen, Bool.and_eq_true, decide_eq_true_eq]
      omega
  · cases h

theorem decodeChar_sound (charset : Charset) (b : Byte) :
    (decodeChar charset b).wf = true ∧ (Ctx.char charset).admits (decodeChar charset b) = true ∧
      (decodeChar charset b).encode = [b] := by
  unfold decodeChar
  split
  · simp_all [Instr.wf, Ctx.admits, Instr.encode]
  · split
    · simp_all [Instr.wf, Ctx.admits, Instr.encode]
    · split <;> simp_all [Instr.wf, Ctx.admits, Instr.encode, isNewline]

/-- The converse of the round trip: a decoder answers a well-formed instruction of its context, and the bytes it
consumed are that instruction's encoding. -/
theorem decode_sound {ctx : Ctx} {bs : List Byte} {d : Instr × List Byte} (h : decode ctx bs = .ok d) :
    DecodedFrom ctx bs d := by
  cases ctx with
  | operands k => exact decodeOperands_sound h
  | pal => exact decodePal_sound h
  | part => exact decodePart_sound h
  | rle => exact decodeRle_sound h
  | offs =>
    obtain ⟨entries, hd, hwf, happ⟩ := decodeEntries_sound h
    rw [DecodedFrom, hd]
    exact ⟨hwf, rfl, happ⟩
  | tidx =>
    obtain ⟨entries, hd, hwf, happ⟩ := decodeEntries_sound h
    rw [DecodedFrom, hd]
    exact ⟨hwf, rfl, happ⟩
  | char charset =>
    cases bs <;> cases h
    obtain ⟨hwf, hadm, henc⟩ := decodeChar_sound charset ‹_›
    exact ⟨hwf, hadm, by rw [henc]; rfl⟩
  | hdr =>
    simp only [decode, decodeHdr] at h
    split at h <;> cases h
    exact ⟨rfl, rfl, rfl⟩
  | iw =>
    simp only [decode, decodeIw] at h
    split at h <;> cases h
    exact ⟨rfl, rfl, by simp [Instr.encode, halfBytes]⟩
  | oas =>
    simp only [decode, decodeOas] at h
    split at h <;> cases h
    exact ⟨rfl, rfl, by simp [Instr.encode, halfBytes]⟩
  | pair =>
    simp only [decode, decodePair] at h
    split at h <;> cases h
    exact ⟨rfl, rfl, rfl⟩

/-- A decoder consumes no more bytes than there are. -/
theorem decode_encode_le {ctx : Ctx} {bs rest : List Byte} {i : Instr} (h : decode ctx bs = .ok (i, rest)) :
    i.encode.length ≤ bs.length := by
  obtain ⟨-, -, rfl⟩ := decode_sound h
  simp

/-- What an item decoder's answer says of the items it was given. -/
def DecodedFromItems (ctx : ItemCtx) (items : List Item) (d : Instr × List Item) : Prop :=
  d.1.wf = true ∧ ctx.admits d.1 = true ∧ d.1.encodeItems ++ d.2 = items

/-- The converse of the round trip for the working sequence. -/
theorem decodeItems_sound {ctx : ItemCtx} {items : List Item} {d : Instr × List Item}
    (h : decodeItems ctx items = .ok d) : DecodedFromItems ctx items d := by
  cases ctx with
  | trigger t =>
    simp only [decodeItems, decodeTrigger] at h
    split at h
    · split at h <;> cases h
      simp_all [DecodedFromItems, Instr.wf, ItemCtx.admits, Instr.encodeItems]
    · cases h
  | param mode =>
    simp only [decodeItems] at h
    unfold decodeParam at h
    split at h
    · cases h; exact ⟨rfl, rfl, rfl⟩
    · cases h
    · cases h; exact ⟨rfl, rfl, by simp [Instr.encodeItems]⟩
    · cases h
    · split at h <;> cases h
      rename_i hsplit
      obtain ⟨rfl, hnot⟩ := Machine.splitAtByte_some hsplit
      exact ⟨by simpa [Instr.wf] using hnot, by simp [ItemCtx.admits], by simp [Instr.encodeItems]⟩

/-- An operand byte of Method1 that is missing stands at the end of what there is. -/
theorem decode_operands_short {k : PrefixKind} {bs : List Byte} {n : Nat}
    (h : decode (.operands k) bs = .error (.short n)) : n ≤ bs.length := by
  rcases k with _ | ⟨b1, b2⟩ | _
  case method1 =>
    simp only [decode, decodeOperands, decodeMethod1] at h
    split at h
    · split at h
      · split at h
        · cases h; simp
        · split at h <;> cases h
      · cases h
    · cases h; simp
  all_goals cases bs <;> cases h; simp

end Sys2Proof
end

section
/-! PROOFS. A step of an engine is a function of that engine's own state and the capacities (R30). The
instruction an engine fetches is always one of its own (the opcode table's "engine"), so `engineStep` is the
lifting of `Hsqd.next`, `Imgd.next` or `Txtp.next`. -/

namespace Sys2Proof

/-- The engine whose byte streams a context belongs to. -/
def Ctx.engine : Ctx → Engine
  | .hdr => .hsqd
  | .iw => .hsqd
  | .operands _ => .hsqd
  | .oas => .imgd
  | .pal => .imgd
  | .offs => .imgd
  | .part => .imgd
  | .rle => .imgd
  | .pair => .imgd
  | .tidx => .txtp
  | .char _ => .txtp

end Sys2Proof

namespace Sys2Proof.Machine

theorem engineOf_of_admits {ctx : Ctx} {i : Instr} (h : ctx.admits i = true) :
    engineOf i = some ctx.engine := by
  cases ctx <;> cases i <;> simp_all [Ctx.admits, Ctx.engine, engineOf]

theorem engineOf_of_itemAdmits {ctx : ItemCtx} {i : Instr} (h : ctx.admits i = true) :
    engineOf i = some .txtp := by
  cases ctx <;> cases i <;> simp_all [ItemCtx.admits, engineOf]

theorem engineOf_decode {ctx : Ctx} {bs rest : List Byte} {i : Instr} (h : decode ctx bs = .ok (i, rest)) :
    engineOf i = some ctx.engine :=
  engineOf_of_admits (decode_sound h).2.1

theorem engineOf_decodeItems {ctx : ItemCtx} {items rest : List Item} {i : Instr}
    (h : decodeItems ctx items = .ok (i, rest)) : engineOf i = some .txtp :=
  engineOf_of_itemAdmits (decodeItems_sound h).2.1

theorem engineOf_decodeChar (charset : Charset) (b : Byte) : engineOf (decodeChar charset b) = some .txtp :=
  engineOf_of_admits (decodeChar_sound charset b).2.1

/-! ## What an instruction does to its engine -/

/-- The operation of an HSQD instruction on the HSQD state. -/
def hsqdOp : Instr → Caps → Hsqd → Except Fault Hsqd
  | .hdr h0 h1 h2 h3 h4 h5 => hdrOp h0 h1 h2 h3 h4 h5
  | .iw w => iwOp w
  | .lit b => litOp b
  | .m0 b1 b2 d => m0Op b1 b2 d
  | .m1 raw => m1Op raw
  | .m1x raw e => m1xOp raw e
  | .endMark raw => endOp raw
  | _ => fun _ h => .ok h

/-- The operation of an IMGD instruction on the IMGD state. -/
def imgdOp : Instr → Caps → Imgd → Except Fault Imgd
  | .oas v => oasOp v
  | .palterm => paltermOp
  | .palrec loc raws => palrecOp loc raws
  | .offs entries => offsOp entries
  | .partUnknown rawBytes => partUnknownOp rawBytes
  | .partRaw width height poff => partRawOp width height poff
  | .partRle width height poff => partRleOp width height poff
  | .rep c v => repOp c v
  | .litr vs => litrOp vs
  | .pair v => pairOp v
  | _ => fun _ m => .ok m

/-- The operation of a TXTP instruction on the TXTP state. -/
def txtpOp : Instr → Caps → Txtp → Except Fault Txtp
  | .tidx entries => tidxOp entries
  | .nlFe => charOp 0xFE
  | .nl0d => charOp 0x0D
  | .charOverride b => charOp b
  | .charDirect b => charOp b
  | .tinstr t => tinstrOp t
  | .paramRead8 v => paramRead8Op v
  | .paramRead16 v => paramRead16Op v
  | .paramReadUntil captured t => paramReadUntilOp captured t
  | _ => fun _ x => .ok x

theorem exec_hsqd {i : Instr} (h : engineOf i = some .hsqd) : exec i = onHsqd (hsqdOp i) := by
  cases i <;> simp [engineOf] at h <;> rfl

theorem exec_imgd {i : Instr} (h : engineOf i = some .imgd) : exec i = onImgd (imgdOp i) := by
  cases i <;> simp [engineOf] at h <;> rfl

theorem exec_txtp {i : Instr} (h : engineOf i = some .txtp) : exec i = onTxtp (txtpOp i) := by
  cases i <;> simp [engineOf] at h <;> rfl

/-! ## What an engine fetches is its own -/

/-- Every instruction the engine `e` fetches here is one of its own. -/
def Fetch.Owned {σ : Type} (e : Engine) : Fetch σ → Prop
  | .instr i _ => engineOf i = some e
  | .control _ => True
  | .fault _ => True

theorem Fetch.owned_withBytes {σ : Type} {e : Engine} {w : Except Fault (List Byte)}
    {f : List Byte → Fetch σ} (h : ∀ bs, (f bs).Owned e) : (Fetch.withBytes w f).Owned e := by
  cases w with
  | ok bs => exact h bs
  | error r => trivial

theorem Hsqd.fetchIn_owned {ctx : Ctx} (hctx : ctx.engine = .hsqd) (h : Hsqd) :
    (h.fetchIn ctx).Owned .hsqd := by
  refine Fetch.owned_withBytes fun bs => ?_
  split
  · exact hctx ▸ engineOf_decode ‹_›
  all_goals trivial

theorem Hsqd.fetchCode_owned (p : List Bool) (h : Hsqd) : (h.fetchCode p).Owned .hsqd := by
  unfold Hsqd.fetchCode
  dsimp only
  split <;> exact Hsqd.fetchIn_owned rfl _

theorem fetchHsqd_owned (h : Hsqd) : (fetchHsqd h).Owned .hsqd := by
  unfold fetchHsqd
  split
  · exact Hsqd.fetchIn_owned rfl _
  · split
    · exact Hsqd.fetchCode_owned _ _
    · split
      · trivial
      · exact Hsqd.fetchCode_owned _ _

theorem Imgd.endPart_owned (caps : Caps) (m : Imgd) : (m.endPart caps).Owned .imgd := by
  refine Fetch.owned_withBytes fun bs => ?_
  split <;> trivial

theorem Imgd.fetchData_owned {ctx : Ctx} (hctx : ctx.engine = .imgd) (caps : Caps) (m : Imgd) :
    (m.fetchData caps ctx).Owned .imgd := by
  refine Fetch.owned_withBytes fun bs => ?_
  split
  · exact hctx ▸ engineOf_decode ‹_›
  all_goals trivial

theorem Imgd.fetchFrame_owned (caps : Caps) (m : Imgd) : (m.fetchFrame caps).Owned .imgd := by
  unfold Imgd.fetchFrame
  split
  · split <;> trivial
  · trivial

theorem Imgd.fetchRows_owned (caps : Caps) (m : Imgd) : (m.fetchRows caps).Owned .imgd := by
  unfold Imgd.fetchRows
  split
  · split
    · exact Imgd.fetchData_owned rfl caps m
    · trivial
  · exact Imgd.endPart_owned caps m

theorem Imgd.fetchRuns_owned (caps : Caps) (m : Imgd) : (m.fetchRuns caps).Owned .imgd := by
  unfold Imgd.fetchRuns
  split
  · split
    · exact Imgd.fetchData_owned rfl caps m
    · trivial
  · exact Imgd.endPart_owned caps m

theorem fetchImgd_owned (caps : Caps) (m : Imgd) : (fetchImgd caps m).Owned .imgd := by
  cases hp : m.phase <;> simp only [fetchImgd, hp]
  case frame => exact m.fetchFrame_owned caps
  case rows => exact m.fetchRows_owned caps
  case runs => exact m.fetchRuns_owned caps
  all_goals
    refine Fetch.owned_withBytes fun bs => ?_
    split
    · exact engineOf_decode ‹_›
    all_goals trivial

theorem Txtp.fetchFrame_owned (caps : Caps) (x : Txtp) : (x.fetchFrame caps).Owned .txtp := by
  unfold Txtp.fetchFrame
  split
  · split <;> trivial
  · trivial

theorem Txtp.fetchIndex_owned (x : Txtp) : x.fetchIndex.Owned .txtp := by
  refine Fetch.owned_withBytes fun bs => ?_
  split
  · exact engineOf_decode ‹_›
  all_goals trivial

theorem Txtp.fetchRaw_owned (caps : Caps) (x : Txtp) : (x.fetchRaw caps).Owned .txtp := by
  unfold Txtp.fetchRaw
  split <;> refine Fetch.owned_withBytes fun bs => ?_
  · split
    · exact engineOf_decode ‹_›
    · trivial
  · trivial

theorem Txtp.fetchScan_owned (x : Txtp) : x.fetchScan.Owned .txtp := by
  unfold Txtp.fetchScan
  split
  · trivial
  · split
    · trivial
    · split
      · exact engineOf_decodeItems ‹_›
      · trivial

theorem Txtp.fetchParams_owned (caps : Caps) (x : Txtp) : (x.fetchParams caps).Owned .txtp := by
  unfold Txtp.fetchParams
  split
  · trivial
  · split
    · trivial
    · split
      · exact engineOf_decodeItems ‹_›
      · trivial

theorem Txtp.fetchFinal_owned (caps : Caps) (x : Txtp) : (x.fetchFinal caps).Owned .txtp := by
  unfold Txtp.fetchFinal
  split
  · trivial
  · trivial
  · exact engineOf_decodeChar _ _

theorem fetchTxtp_owned (caps : Caps) (x : Txtp) : (fetchTxtp caps x).Owned .txtp := by
  cases hp : x.phase <;> simp only [fetchTxtp, hp]
  case index => exact x.fetchIndex_owned
  case frame => exact x.fetchFrame_owned caps
  case raw => exact x.fetchRaw_owned caps
  case scan => exact x.fetchScan_owned
  case params => exact x.fetchParams_owned caps
  case final => exact x.fetchFinal_owned caps

/-! ## An engine's step on its own state -/

/-- Run what an engine fetched on that engine's state alone. -/
def Fetch.perform {σ : Type} (op : Instr → σ → Except Fault σ) : Fetch σ → Except Fault σ
  | .instr i e => op i e
  | .control e => .ok e
  | .fault r => .error r

/-- A step of HSQD on its own state. -/
def Hsqd.next (caps : Caps) (h : Hsqd) : Except Fault Hsqd :=
  if h.st.status = .running then (fetchHsqd h).perform (hsqdOp · caps) else .ok h

/-- A step of IMGD on its own state. -/
def Imgd.next (caps : Caps) (m : Imgd) : Except Fault Imgd :=
  if m.st.status = .running then (fetchImgd caps m).perform (imgdOp · caps) else .ok m

/-- A step of TXTP on its own state. -/
def Txtp.next (caps : Caps) (x : Txtp) : Except Fault Txtp :=
  if x.st.status = .running then (fetchTxtp caps x).perform (txtpOp · caps) else .ok x

theorem engineStep_hsqd_eq (s : State) : engineStep .hsqd s = onHsqd Hsqd.next s := by
  have howned := fetchHsqd_owned s.hsqd
  by_cases hrun : s.hsqd.st.status = .running
  · rw [engineStep_hsqd hrun, onHsqd, Hsqd.next, if_pos hrun]
    cases hf : fetchHsqd s.hsqd with
    | instr i h => rw [hf] at howned; simp [Fetch.run, Fetch.perform, exec_hsqd howned, onHsqd]
    | control h => rfl
    | fault r => rfl
  · simp [engineStep, statusOf, onHsqd, Hsqd.next, hrun]

theorem engineStep_imgd_eq (s : State) : engineStep .imgd s = onImgd Imgd.next s := by
  have howned := fetchImgd_owned s.caps s.imgd
  by_cases hrun : s.imgd.st.status = .running
  · rw [engineStep_imgd hrun, onImgd, Imgd.next, if_pos hrun]
    cases hf : fetchImgd s.caps s.imgd with
    | instr i m => rw [hf] at howned; simp [Fetch.run, Fetch.perform, exec_imgd howned, onImgd]
    | control m => rfl
    | fault r => rfl
  · simp [engineStep, statusOf, onImgd, Imgd.next, hrun]

theorem engineStep_txtp_eq (s : State) : engineStep .txtp s = onTxtp Txtp.next s := by
  have howned := fetchTxtp_owned s.caps s.txtp
  by_cases hrun : s.txtp.st.status = .running
  · rw [engineStep_txtp hrun, onTxtp, Txtp.next, if_pos hrun]
    cases hf : fetchTxtp s.caps s.txtp with
    | instr i x => rw [hf] at howned; simp [Fetch.run, Fetch.perform, exec_txtp howned, onTxtp]
    | control x => rfl
    | fault r => rfl
  · simp [engineStep, statusOf, onTxtp, Txtp.next, hrun]

end Sys2Proof.Machine
end

section
/-! PROOFS. Every step of HSQD keeps its invariant and answers a state (R33, R34, R37, R39). -/

namespace Sys2Proof.Machine

/-- An operation goes on, to a state with the property `P`. -/
def Keeps {σ : Type} (P : σ → Prop) (r : Except Fault σ) : Prop := ∃ e, r = .ok e ∧ P e

theorem keeps_ok {σ : Type} {P : σ → Prop} {e : σ} (h : P e) : Keeps P (.ok e) := ⟨e, rfl, h⟩

/-- `GetBit` (R145) leaves a buffer that is clean above the bits it still holds (R34). -/
theorem takePrefix_clean {n : Nat} {bb : Half} (hbb : bb.toNat < 2 ^ n) (p : List Bool) :
    (takePrefix n bb p).2.2 ≤ n ∧ (takePrefix n bb p).2.1.toNat < 2 ^ (takePrefix n bb p).2.2 := by
  induction n generalizing bb p with
  | zero => exact ⟨le_rfl, hbb⟩
  | succ n ih =>
    simp only [takePrefix]
    split
    · exact ⟨le_rfl, hbb⟩
    · have hshift : (bb >>> 1).toNat < 2 ^ n := by
        simp only [BitVec.toNat_ushiftRight, Nat.shiftRight_eq_div_pow, pow_one]
        rw [pow_succ] at hbb
        omega
      obtain ⟨hle, hclean⟩ := ih hshift (p ++ [bb.getLsbD 0])
      exact ⟨by omega, hclean⟩

/-- A fatal fault writes the status registers alone. -/
theorem Hsqd.Inv.fatal {caps : Caps} {h : Hsqd} (hi : h.Inv caps) (cause : Cause) (info : Nat) :
    (h.fatal cause info).Inv caps := hi

theorem Hsqd.Inv.append {caps : Caps} {h : Hsqd} (hi : h.Inv caps) (b : Byte) : (h.append caps b).Inv caps := by
  rcases h.append_cases caps b with ⟨-, he⟩ | ⟨hfull, he⟩
  · rw [he]; exact hi.fatal _ _
  · obtain ⟨hib, hob, hpos, hin, -, hbits⟩ := hi
    rw [he]
    exact ⟨hib, hob.write b, hpos, hin, exceeds_succ_of_full hfull, hbits⟩

/-- A copy from behind the output's end goes on and keeps the invariant. -/
theorem Hsqd.Inv.backCopy {caps : Caps} {h : Hsqd} (hi : h.Inv caps) {dist : Int} (hd : dist < 0) (len : Nat) :
    Keeps (Hsqd.Inv caps) (Hsqd.backCopy caps dist len h) := by
  obtain ⟨hib, hob, hpos, hin, hout, hbits⟩ := hi
  obtain ⟨h', he⟩ := Hsqd.backCopy_ok (caps := caps) len hd hob
  obtain ⟨hframe, -, -, hob', hout', -⟩ := Hsqd.backCopy_frame hob hout he
  refine ⟨h', he, ?_⟩
  rw [hframe]
  exact ⟨hib, hob', hpos, hin, hout', hbits⟩

/-- The cursor moves over bytes that are there. -/
theorem Hsqd.Inv.advance {caps : Caps} {h : Hsqd} (hi : h.Inv caps) {k : Nat} (hk : h.pos + k ≤ h.inLen) :
    ({ h with pos := h.pos + k } : Hsqd).Inv caps := by
  obtain ⟨hib, hob, -, hrest⟩ := hi
  exact ⟨hib, hob, hk, hrest⟩

/-- An HSQD instruction whose bytes are there goes on and keeps the invariant. -/
theorem Hsqd.Inv.op {caps : Caps} {h : Hsqd} (hi : h.Inv caps) {i : Instr} (hown : engineOf i = some .hsqd)
    (hlen : h.pos + i.encode.length ≤ h.inLen) : Keeps (Hsqd.Inv caps) (hsqdOp i caps h) := by
  have hadv := hi.advance hlen
  cases i <;> simp only [engineOf, reduceCtorEq, Option.some.injEq] at hown
  case hdr h0 h1 h2 h3 h4 h5 =>
    simp only [hsqdOp, hdrOp]
    split
    · exact keeps_ok hadv
    · exact keeps_ok hadv
  case iw w =>
    obtain ⟨hib, hob, hpos, hin, hout, -, -, hpfx⟩ := hadv
    exact keeps_ok ⟨hib, hob, hpos, hin, hout, le_rfl, w.isLt, hpfx⟩
  case lit b =>
    have hkind : ({ h with pos := h.pos + 1, kind := .copyByte } : Hsqd).Inv caps := hadv
    exact keeps_ok (hkind.append b)
  case m0 b1 b2 d =>
    have hregs : ({ h with
        pos := h.pos + 1, kind := .method0, len := BitVec.ofNat 16 (m0Len b1 b2),
        dist := BitVec.ofInt 16 (m0Dist d) } : Hsqd).Inv caps := hadv
    exact hregs.backCopy (m0Dist_neg d) _
  case m1 raw =>
    have hregs : ({ h with
        pos := h.pos + 2, kind := .method1, raw := raw, len := BitVec.ofNat 16 (m1Len raw),
        dist := BitVec.ofInt 16 (m1Dist raw) } : Hsqd).Inv caps := hadv
    exact hregs.backCopy (m1Dist_neg raw) _
  case m1x raw e =>
    have hregs : ({ h with
        pos := h.pos + 3, kind := .method1, raw := raw, len := BitVec.ofNat 16 (m1xLen e),
        dist := BitVec.ofInt 16 (m1Dist raw) } : Hsqd).Inv caps := hadv
    exact hregs.backCopy (m1Dist_neg raw) _
  case endMark raw => exact keeps_ok hadv

/-- The contexts HSQD decodes in run short only where bytes are missing. -/
theorem decode_hsqd_short {ctx : Ctx} (hctx : ctx.engine = .hsqd) {bs : List Byte} {k : Nat}
    (h : decode ctx bs = .error (.short k)) : k ≤ bs.length := by
  cases ctx <;> simp only [Ctx.engine, reduceCtorEq] at hctx
  case hdr =>
    simp only [decode, decodeHdr] at h
    split at h <;> cases h
    simp
  case iw =>
    simp only [decode, decodeIw] at h
    split at h <;> cases h
    simp
  case operands => exact decode_operands_short h

/-- A read past the end of input (R311) keeps the invariant. -/
theorem Hsqd.Inv.overrun {caps : Caps} {h : Hsqd} (hi : h.Inv caps) {k : Nat} (hk : h.pos + k ≤ h.inLen) :
    (h.overrun k).Inv caps := by
  obtain ⟨hib, hob, -, hin, hout, hcnt, hbuf, -⟩ := hi
  exact ⟨hib, hob, hk, hin, hout, hcnt, hbuf, rfl⟩

theorem Hsqd.Inv.fetchIn {caps : Caps} {h : Hsqd} (hi : h.Inv caps) {ctx : Ctx} (hctx : ctx.engine = .hsqd) :
    Keeps (Hsqd.Inv caps) ((h.fetchIn ctx).perform (hsqdOp · caps)) := by
  have ⟨hib, _, hpos, _⟩ := hi
  obtain ⟨bs, hbs, hlen, -⟩ := window_ok (sp := .ibuf) (a := h.pos) hib.filled le_rfl
  simp only [Hsqd.fetchIn, Fetch.withBytes, hbs]
  split
  · rename_i i rest hdec
    have hle := decode_encode_le hdec
    exact hi.op (hctx ▸ engineOf_decode hdec) (by omega)
  · rename_i k hdec
    have hk := decode_hsqd_short hctx hdec
    have hend : h.pos + k ≤ h.inLen := by omega
    refine keeps_ok (Hsqd.Inv.overrun ?_ ?_)
    · rw [begun_eq]; exact hi
    · rw [begun_eq]; exact hend
  · exact keeps_ok (hi.overrun hpos)

theorem Hsqd.Inv.fetchCode {caps : Caps} {h : Hsqd} (hi : h.Inv caps) (p : List Bool) :
    Keeps (Hsqd.Inv caps) ((h.fetchCode p).perform (hsqdOp · caps)) := by
  obtain ⟨hib, hob, hpos, hin, hout, hcnt, hbuf, -⟩ := hi
  obtain ⟨hle, hclean⟩ := takePrefix_clean hbuf p
  have htaken : ∀ pfx : Option (List Bool), pfx.all (fun p => (classify p).isNone) = true →
      ({ h with
        bitbuf := (takePrefix h.bitcnt h.bitbuf p).2.1, bitcnt := (takePrefix h.bitcnt h.bitbuf p).2.2,
        pfx := pfx } : Hsqd).Inv caps :=
    fun _ hpfx => ⟨hib, hob, hpos, hin, hout, hle.trans hcnt, hclean, hpfx⟩
  unfold Hsqd.fetchCode
  dsimp only
  split
  · exact (htaken none rfl).fetchIn rfl
  · rename_i hnone
    exact (htaken (some _) (by simp [hnone])).fetchIn rfl

/-- A step of HSQD goes on and keeps the invariant. -/
theorem Hsqd.Inv.next {caps : Caps} {h : Hsqd} (hi : h.Inv caps) : Keeps (Hsqd.Inv caps) (h.next caps) := by
  unfold Hsqd.next
  split
  · unfold fetchHsqd
    split
    · exact hi.fetchIn rfl
    · split
      · exact hi.fetchCode _
      · split
        · exact keeps_ok hi
        · exact hi.fetchCode _
  · exact keeps_ok hi

end Sys2Proof.Machine
end

section
/-! PROOFS. Every step of IMGD keeps its invariant and answers a state (R41 to R44, R217, R224). -/

namespace Sys2Proof.Machine

/-- What the invariant asks of a state that stands inside a part. -/
def Imgd.InPart (m : Imgd) : Prop :=
  m.abs.length = m.n ∧ m.i < m.n ∧ m.pstart ≤ m.pend ∧ m.pend ≤ m.plen

/-- What it asks of one that stands in the rows of a part. -/
def Imgd.InRows (m : Imgd) : Prop :=
  m.InPart ∧ m.pstart + 4 ≤ m.s ∧ m.s ≤ m.pend ∧ m.pixels.length = m.width.toNat * m.height.toNat

/-- What the invariant asks of each phase. -/
def Imgd.PhaseInv (m : Imgd) : ImgdPhase → Prop
  | .pointer => True
  | .palette => 2 ≤ m.pcur ∧ m.pcur ≤ m.oas.toNat ∧ m.oas.toNat ≤ m.plen
  | .offsets => m.oas.toNat ≤ m.plen
  | .frame => m.abs.length = m.n
  | .header => m.InPart
  | .rows => m.InRows
  | .runs => m.InRows ∧ m.lineRemain % 2 = 0 ∧ -256 ≤ m.lineRemain ∧ m.lineRemain ≤ 32768

/-- The invariant, read in a phase. -/
theorem Imgd.inv_iff {caps : Caps} {m : Imgd} {p : ImgdPhase} (hp : m.phase = p) :
    m.Inv caps ↔ m.pbuf.exact m.plen ∧ exceeds caps.pCap m.plen = false ∧ m.PhaseInv p := by
  cases p <;>
    simp [Imgd.Inv, Imgd.PhaseInv, Imgd.InRows, Imgd.InPart, hp, ImgdPhase.inPart, ImgdPhase.inRows, and_assoc]

theorem Imgd.inv_of_phase {caps : Caps} {m : Imgd} {p : ImgdPhase} (hp : m.phase = p)
    (h : m.pbuf.exact m.plen ∧ exceeds caps.pCap m.plen = false ∧ m.PhaseInv p) : m.Inv caps :=
  (Imgd.inv_iff hp).mpr h

/-- A fatal fault writes the status registers alone. -/
theorem Imgd.Inv.fatal {caps : Caps} {m : Imgd} (hi : m.Inv caps) (cause : Cause) (info : Nat) :
    (m.fatal cause info).Inv caps := hi

/-- A unit error keeps the invariant where what comes after it does. -/
theorem Imgd.Inv.unitError {caps : Caps} {m : Imgd} (hi : m.Inv caps) {e : LogEntry} {cur : Nat}
    {next : Imgd → Imgd} (hnext : (next { m with skiplog := m.skiplog ++ [e] }).Inv caps) :
    (m.unitError caps e cur next).Inv caps := by
  rcases m.unitError_cases caps e cur next with ⟨-, he⟩ | ⟨-, he⟩ <;> rw [he]
  · exact hi.fatal _ _
  · exact hnext

/-- A unit error in a part goes on to the next one (R211). -/
theorem Imgd.Inv.partError {caps : Caps} {m : Imgd} (hi : m.Inv caps) (habs : m.abs.length = m.n)
    (cause : UnitCause) : (m.partError caps cause).Inv caps :=
  hi.unitError (Imgd.inv_of_phase (p := .frame) rfl ⟨hi.1, hi.2.1, habs⟩)

/-! ## The tables -/

theorem Imgd.Inv.fetchPointer {caps : Caps} {m : Imgd} (hi : m.Inv caps) (hp : m.phase = .pointer) :
    Keeps (Imgd.Inv caps) (m.fetchPointer.perform (imgdOp · caps)) := by
  obtain ⟨hbuf, hcap, -⟩ := (Imgd.inv_iff hp).mp hi
  obtain ⟨bs, hbs, -⟩ := window_ok (sp := .pbufImgd) (a := 0) hbuf.filled le_rfl
  simp only [Imgd.fetchPointer, Fetch.withBytes, hbs]
  split
  · rename_i i rest hdec
    obtain ⟨-, hadm, -⟩ := decode_sound hdec
    cases i <;> simp only [Ctx.admits, Bool.false_eq_true] at hadm
    case oas v =>
      change Keeps _ (oasOp v caps m)
      unfold oasOp
      dsimp only
      split <;> refine keeps_ok ?_
      · exact Imgd.inv_of_phase hp ⟨hbuf, hcap, trivial⟩
      · rename_i hrange
        simp only [badOffsetsStart, Bool.or_eq_true, decide_eq_true_eq, not_or, Nat.not_lt] at hrange
        exact Imgd.inv_of_phase (p := .palette) rfl ⟨hbuf, hcap, le_rfl, hrange⟩
  · refine keeps_ok ?_
    exact Imgd.inv_of_phase hp ⟨hbuf, hcap, trivial⟩

/-- A palette record whose bytes are there goes on and keeps the invariant. -/
theorem Imgd.Inv.palrec {caps : Caps} {m : Imgd} (hi : m.Inv caps) (hp : m.phase = .palette) (loc : Byte)
    {raws : List Color} (hlen : m.pcur + (2 + 3 * raws.length) ≤ m.oas.toNat) :
    Keeps (Imgd.Inv caps) (palrecOp loc raws caps m) := by
  obtain ⟨hbuf, hcap, hlo, -, hoas⟩ := (Imgd.inv_iff hp).mp hi
  have hcur : 2 ≤ m.pcur + 2 + 3 * raws.length ∧ m.pcur + 2 + 3 * raws.length ≤ m.oas.toNat ∧
      m.oas.toNat ≤ m.plen := ⟨by omega, by omega, hoas⟩
  unfold palrecOp
  dsimp only
  split
  · refine keeps_ok (Imgd.Inv.unitError ?_ ?_)
    · exact Imgd.inv_of_phase hp ⟨hbuf, hcap, hcur⟩
    · exact Imgd.inv_of_phase hp ⟨hbuf, hcap, hcur⟩
  · split <;> refine keeps_ok ?_
    · exact Imgd.inv_of_phase hp ⟨hbuf, hcap, hcur⟩
    · exact Imgd.inv_of_phase hp ⟨hbuf, hcap, hcur⟩

theorem palrec_encode_length (loc : Byte) (raws : List Color) :
    (Instr.palrec loc raws).encode.length = 2 + 3 * raws.length := by
  have hflat : (raws.map Color.bytes).flatten.length = 3 * raws.length := by
    induction raws with
    | nil => rfl
    | cons c cs ih =>
      simp only [List.map_cons, List.flatten_cons, List.length_append, List.length_cons, ih, Color.bytes,
        List.length_nil]
      omega
  simp only [Instr.encode, List.length_cons, hflat]
  omega

theorem Imgd.Inv.fetchPalette {caps : Caps} {m : Imgd} (hi : m.Inv caps) (hp : m.phase = .palette) :
    Keeps (Imgd.Inv caps) ((m.fetchPalette caps).perform (imgdOp · caps)) := by
  obtain ⟨hbuf, hcap, hlo, hhi, hoas⟩ := (Imgd.inv_iff hp).mp hi
  obtain ⟨bs, hbs, hlen, -⟩ := window_ok (sp := .pbufImgd) (a := m.pcur) hbuf.filled hoas
  simp only [Imgd.fetchPalette, Fetch.withBytes, hbs]
  split
  · rename_i i rest hdec
    obtain ⟨-, hadm, -⟩ := decode_sound hdec
    have hle := decode_encode_le hdec
    cases i <;> simp only [Ctx.admits, Bool.false_eq_true] at hadm
    case palterm =>
      refine keeps_ok ?_
      exact Imgd.inv_of_phase (p := .offsets) rfl ⟨hbuf, hcap, hoas⟩
    case palrec loc raws =>
      rw [palrec_encode_length] at hle
      exact hi.palrec hp loc (by omega)
  · simp only [List.length_cons] at hlen
    have hcur : 2 ≤ m.pcur + 2 ∧ m.pcur + 2 ≤ m.oas.toNat ∧ m.oas.toNat ≤ m.plen :=
      ⟨by omega, by omega, hoas⟩
    refine keeps_ok (Imgd.Inv.unitError ?_ ?_)
    · exact Imgd.inv_of_phase hp ⟨hbuf, hcap, hcur⟩
    · exact Imgd.inv_of_phase (p := .offsets) rfl ⟨hbuf, hcap, hoas⟩
  · refine keeps_ok ?_
    exact Imgd.inv_of_phase (p := .offsets) rfl ⟨hbuf, hcap, hoas⟩

/-- The table of R112 and R120 has the entries its first one announces. -/
theorem take_length_of_entriesWf {entries : List Half} (h : entriesWf entries = true) :
    (entries.take ((entries.headD 0).toNat / 2)).length = (entries.headD 0).toNat / 2 := by
  cases entries with
  | nil => cases h
  | cons e es =>
    simp only [entriesWf, beq_iff_eq] at h
    simp only [List.headD_cons, List.length_take, List.length_cons]
    omega

theorem Imgd.Inv.fetchOffsets {caps : Caps} {m : Imgd} (hi : m.Inv caps) (hp : m.phase = .offsets) :
    Keeps (Imgd.Inv caps) (m.fetchOffsets.perform (imgdOp · caps)) := by
  obtain ⟨hbuf, hcap, hoas⟩ := (Imgd.inv_iff hp).mp hi
  obtain ⟨bs, hbs, -⟩ := window_ok (sp := .pbufImgd) (a := m.oas.toNat) hbuf.filled le_rfl
  have hcut : ∀ k, (m.overrun m.oas.toNat k).Inv caps := fun k =>
    Imgd.inv_of_phase hp ⟨hbuf, hcap, hoas⟩
  simp only [Imgd.fetchOffsets, Fetch.withBytes, hbs]
  split
  · rename_i i rest hdec
    obtain ⟨hwf, hadm, -⟩ := decode_sound hdec
    cases i <;> simp only [Ctx.admits, Bool.false_eq_true] at hadm
    case offs entries =>
      change Keeps _ (offsOp entries caps m)
      unfold offsOp
      dsimp only
      split <;> refine keeps_ok ?_
      · exact Imgd.inv_of_phase hp ⟨hbuf, hcap, hoas⟩
      · exact Imgd.inv_of_phase (p := .frame) rfl
          ⟨hbuf, hcap, (List.length_map _).trans (take_length_of_entriesWf hwf)⟩
  · exact keeps_ok (hcut _)
  · exact keeps_ok (hcut _)

/-! ## Framing and headers -/

theorem Imgd.Inv.framePart {caps : Caps} {m : Imgd} (hi : m.Inv caps) (hp : m.phase = .frame) (hin : m.i < m.n)
    (start stop : Nat) : (m.framePart caps start stop).Inv caps := by
  obtain ⟨hbuf, hcap, habs⟩ := (Imgd.inv_iff hp).mp hi
  unfold Imgd.framePart
  dsimp only
  split
  · refine Imgd.Inv.partError ?_ ?_ _
    · exact Imgd.inv_of_phase hp ⟨hbuf, hcap, habs⟩
    · exact habs
  · rename_i hrange
    simp only [badRange, Bool.or_eq_true, decide_eq_true_eq, not_or, Nat.not_lt] at hrange
    exact Imgd.inv_of_phase (p := .header) rfl ⟨hbuf, hcap, habs, hin, hrange⟩

theorem Imgd.Inv.fetchFrame {caps : Caps} {m : Imgd} (hi : m.Inv caps) (hp : m.phase = .frame) :
    Keeps (Imgd.Inv caps) ((m.fetchFrame caps).perform (imgdOp · caps)) := by
  have habs : m.abs.length = m.n := ((Imgd.inv_iff hp).mp hi).2.2
  unfold Imgd.fetchFrame
  split
  · rename_i hin
    split
    · exact keeps_ok (hi.framePart hp hin _ _)
    · rename_i hnone
      split at hnone
      · rw [List.getElem?_eq_none_iff] at hnone; omega
      · cases hnone
    · rename_i hnone
      rw [List.getElem?_eq_none_iff] at hnone; omega
  · exact keeps_ok hi

/-- An image part's header opens the part: the array is made, or `PIX_CAP` is passed (R215, R317). -/
theorem Imgd.Inv.openPart {caps : Caps} {m : Imgd} (hi : m.Inv caps) {rows : Imgd → Imgd}
    (hrows : (rows { m with
      y := 0, x := 0, pixels := List.replicate (m.width.toNat * m.height.toNat) none }).Inv caps) :
    (m.openPart caps rows).Inv caps := by
  unfold Imgd.openPart
  split
  · exact hi.fatal _ _
  · exact hrows

/-- A fresh `line_remain` is in R224's bounds. -/
theorem lineQuantum_bounds (width : BitVec 15) :
    (lineQuantum width : Int) % 2 = 0 ∧ -256 ≤ (lineQuantum width : Int) ∧ (lineQuantum width : Int) ≤ 32768 := by
  have := width.isLt
  unfold lineQuantum
  omega

/-- A part's header whose bytes are there goes on and keeps the invariant. -/
theorem Imgd.Inv.headerOp {caps : Caps} {m : Imgd} (hi : m.Inv caps) (hp : m.phase = .header) {i : Instr}
    (hadm : Ctx.part.admits i = true) (hlen : m.pstart + i.encode.length ≤ m.pend) :
    Keeps (Imgd.Inv caps) (imgdOp i caps m) := by
  obtain ⟨hbuf, hcap, hpart⟩ := (Imgd.inv_iff hp).mp hi
  have habs : m.abs.length = m.n := hpart.1
  have hset : ∀ comp width height poff, (m.setHeader comp width height poff).Inv caps := fun _ _ _ _ =>
    Imgd.inv_of_phase hp ⟨hbuf, hcap, hpart⟩
  cases i <;> simp only [Ctx.admits, Bool.false_eq_true] at hadm
  case partUnknown rawBytes =>
    change Keeps _ (partUnknownOp rawBytes caps m)
    unfold partUnknownOp
    dsimp only
    split <;> refine keeps_ok ?_
    · exact Imgd.inv_of_phase hp ⟨hbuf, hcap, hpart⟩
    · exact Imgd.inv_of_phase (p := .frame) rfl ⟨hbuf, hcap, habs⟩
  case partRaw width height poff =>
    have hfour : m.pstart + 4 ≤ m.pend := hlen
    refine keeps_ok ((hset false width height poff).openPart ?_)
    dsimp only
    split
    · refine Imgd.Inv.partError ?_ ?_ _
      · exact Imgd.inv_of_phase hp ⟨hbuf, hcap, hpart⟩
      · exact habs
    · exact Imgd.inv_of_phase (p := .rows) rfl ⟨hbuf, hcap, hpart, le_rfl, hfour, List.length_replicate⟩
  case partRle width height poff =>
    have hfour : m.pstart + 4 ≤ m.pend := hlen
    refine keeps_ok ((hset true width height poff).openPart ?_)
    exact Imgd.inv_of_phase (p := .runs) rfl
      ⟨hbuf, hcap, ⟨hpart, le_rfl, hfour, List.length_replicate⟩, lineQuantum_bounds width⟩

theorem Imgd.Inv.fetchHeader {caps : Caps} {m : Imgd} (hi : m.Inv caps) (hp : m.phase = .header) :
    Keeps (Imgd.Inv caps) ((m.fetchHeader caps).perform (imgdOp · caps)) := by
  obtain ⟨hbuf, hcap, hpart⟩ := (Imgd.inv_iff hp).mp hi
  have ⟨habs, _, hle, hpend⟩ : m.InPart := hpart
  obtain ⟨bs, hbs, hlen, -⟩ := window_ok (sp := .pbufImgd) (a := m.pstart) hbuf.filled hpend
  simp only [Imgd.fetchHeader, Fetch.withBytes, hbs]
  split
  · rename_i i rest hdec
    obtain ⟨-, hadm, -⟩ := decode_sound hdec
    have hread := decode_encode_le hdec
    exact hi.headerOp hp hadm (by omega)
  · refine keeps_ok (Imgd.Inv.partError ?_ ?_ _)
    · exact Imgd.inv_of_phase hp ⟨hbuf, hcap, hpart⟩
    · exact habs
  · exact keeps_ok (hi.partError habs _)

/-! ## Rows -/

theorem Imgd.Inv.endPart {caps : Caps} {m : Imgd} (hi : m.Inv caps) (hrows : m.InRows) :
    Keeps (Imgd.Inv caps) ((m.endPart caps).perform (imgdOp · caps)) := by
  obtain ⟨⟨habs, -, -, hpend⟩, -⟩ := hrows
  obtain ⟨bs, hbs, -⟩ := window_ok (sp := .pbufImgd) (a := m.pstart + 4) hi.1.filled hpend
  simp only [Imgd.endPart, Fetch.withBytes, hbs]
  split <;> refine keeps_ok ?_
  · exact hi.fatal _ _
  · exact Imgd.inv_of_phase (p := .frame) rfl ⟨hi.1, hi.2.1, habs⟩

/-- Emitting pixels keeps what the rows ask: the array keeps its size. -/
theorem Imgd.InRows.emitPairs {m : Imgd} (h : m.InRows) (vs : List Byte) : (Imgd.emitPairs vs m).InRows := by
  obtain ⟨hpart, hlo, hhi, hpix⟩ := h
  have hlen := (Imgd.emitAll_pixels (nibbles vs) m).1
  rw [Imgd.emitPairs_eq_emitAll, Imgd.emitAll_eq]
  exact ⟨hpart, hlo, hhi, hlen.trans hpix⟩

theorem Imgd.emitPairs_eq (vs : List Byte) (m : Imgd) :
    Imgd.emitPairs vs m = { m with pixels := (Imgd.emitPairs vs m).pixels, x := m.x + 2 * vs.length } := by
  rw [Imgd.emitPairs_eq_emitAll, ← nibbles_length]
  exact Imgd.emitAll_eq _ _

/-- A run of at most 129 bytes (R225, R226) keeps the bounds of R224. -/
theorem Imgd.Inv.run {caps : Caps} {m : Imgd} (hi : m.Inv caps) (hp : m.phase = .runs) (hpos : 0 < m.lineRemain)
    {s : Nat} (hlo : m.s ≤ s) (hhi : s ≤ m.pend) (cmd v : Byte) {vs : List Byte} (hvs : vs.length ≤ 129) :
    ((Imgd.emitPairs vs { m with cmd := cmd, count := vs.length, v := v, s := s }).afterRun vs.length).Inv
      caps := by
  obtain ⟨hbuf, hcap, ⟨hpart, hs, -, hpix⟩, heven, -, hmax⟩ := (Imgd.inv_iff hp).mp hi
  have hrows : ({ m with cmd := cmd, count := vs.length, v := v, s := s } : Imgd).InRows :=
    ⟨hpart, hs.trans hlo, hhi, hpix⟩
  have hline : (m.lineRemain - 2 * (vs.length : Int)) % 2 = 0 ∧ -256 ≤ m.lineRemain - 2 * (vs.length : Int) ∧
      m.lineRemain - 2 * (vs.length : Int) ≤ 32768 := by omega
  have hemit := hrows.emitPairs vs
  rw [Imgd.emitPairs_eq] at hemit ⊢
  exact Imgd.inv_of_phase (p := .runs) hp ⟨hbuf, hcap, hemit, hline⟩

theorem repCount_le (c : BitVec 7) : repCount c ≤ 129 := by
  have := repByte_toNat c
  unfold repCount repCmd
  omega

/-- The rest of the part's range, read for the next data item, and the two ways to go on from it. -/
theorem Imgd.Inv.fetchData {caps : Caps} {m : Imgd} (hi : m.Inv caps) (hrows : m.InRows) {ctx : Ctx}
    (hctx : ctx = .pair ∨ ctx = .rle)
    (hop : ∀ i : Instr, i.wf = true → ctx.admits i = true → m.s + i.encode.length ≤ m.pend →
      Keeps (Imgd.Inv caps) (imgdOp i caps m))
    (hcut : ({ m with s := m.pend } : Imgd).Inv caps) :
    Keeps (Imgd.Inv caps) ((m.fetchData caps ctx).perform (imgdOp · caps)) := by
  obtain ⟨⟨habs, -, -, hpend⟩, -, hs, -⟩ := hrows
  obtain ⟨bs, hbs, hlen, -⟩ := window_ok (sp := .pbufImgd) (a := m.s) hi.1.filled hpend
  simp only [Imgd.fetchData, Fetch.withBytes, hbs]
  split
  · rename_i i rest hdec
    obtain ⟨hwf, hadm, -⟩ := decode_sound hdec
    have hle := decode_encode_le hdec
    exact hop i hwf hadm (by omega)
  · rename_i k hdec
    have hend : m.s + k = m.pend := by
      have := decode_data_short hctx hdec
      omega
    rw [hend]
    exact keeps_ok (hcut.partError habs _)
  · exact keeps_ok (hi.partError habs _)

theorem Imgd.Inv.fetchRows {caps : Caps} {m : Imgd} (hi : m.Inv caps) (hp : m.phase = .rows) :
    Keeps (Imgd.Inv caps) ((m.fetchRows caps).perform (imgdOp · caps)) := by
  obtain ⟨hbuf, hcap, hrows⟩ := (Imgd.inv_iff hp).mp hi
  have ⟨hpart, hlo, hhi, hpix⟩ : m.InRows := hrows
  unfold Imgd.fetchRows
  split
  · split
    · refine hi.fetchData hrows (.inl rfl) (fun i hwf hadm hlen => ?_) ?_
      · cases i <;> simp only [Ctx.admits, Bool.false_eq_true] at hadm
        case pair v =>
          have hread : ({ m with v := v, s := m.s + 1 } : Imgd).InRows :=
            ⟨hpart, Nat.le_succ_of_le hlo, hlen, hpix⟩
          have hemit := hread.emitPairs [v]
          refine keeps_ok ?_
          change (Imgd.emitPairs [v] _).Inv caps
          rw [Imgd.emitPairs_eq] at hemit ⊢
          exact Imgd.inv_of_phase hp ⟨hbuf, hcap, hemit⟩
      · exact Imgd.inv_of_phase hp ⟨hbuf, hcap, hpart, hlo.trans hhi, le_rfl, hpix⟩
    · refine keeps_ok ?_
      exact Imgd.inv_of_phase hp ⟨hbuf, hcap, hrows⟩
  · exact hi.endPart hrows

theorem Imgd.Inv.fetchRuns {caps : Caps} {m : Imgd} (hi : m.Inv caps) (hp : m.phase = .runs) :
    Keeps (Imgd.Inv caps) ((m.fetchRuns caps).perform (imgdOp · caps)) := by
  obtain ⟨hbuf, hcap, hrows, hline⟩ := (Imgd.inv_iff hp).mp hi
  have ⟨hpart, hlo, hhi, hpix⟩ : m.InRows := hrows
  unfold Imgd.fetchRuns
  split
  · split
    · rename_i hpos
      refine hi.fetchData hrows (.inr rfl) (fun i hwf hadm hlen => ?_) ?_
      · cases i <;> simp only [Ctx.admits, Bool.false_eq_true] at hadm
        case rep c v =>
          have hrun := hi.run hp hpos (s := m.s + 2) (by omega) hlen (repCmd c) v
            (vs := List.replicate (repCount c) v) (by simpa using repCount_le c)
          rw [List.length_replicate] at hrun
          exact keeps_ok hrun
        case litr vs =>
          simp only [Instr.wf, Bool.and_eq_true, decide_eq_true_eq] at hwf
          simp only [Instr.encode, List.length_cons] at hlen
          refine keeps_ok ?_
          exact hi.run hp hpos (by omega) (by omega) _ _ (by omega)
      · exact Imgd.inv_of_phase hp ⟨hbuf, hcap, ⟨hpart, hlo.trans hhi, le_rfl, hpix⟩, hline⟩
    · refine keeps_ok ?_
      exact Imgd.inv_of_phase hp ⟨hbuf, hcap, hrows, lineQuantum_bounds m.width⟩
  · exact hi.endPart hrows

/-- A step of IMGD goes on and keeps the invariant. -/
theorem Imgd.Inv.next {caps : Caps} {m : Imgd} (hi : m.Inv caps) : Keeps (Imgd.Inv caps) (m.next caps) := by
  unfold Imgd.next
  split
  · cases hp : m.phase <;> simp only [fetchImgd, hp]
    case pointer => exact hi.fetchPointer hp
    case palette => exact hi.fetchPalette hp
    case offsets => exact hi.fetchOffsets hp
    case frame => exact hi.fetchFrame hp
    case header => exact hi.fetchHeader hp
    case rows => exact hi.fetchRows hp
    case runs => exact hi.fetchRuns hp
  · exact keeps_ok hi

end Sys2Proof.Machine
end

section
/-! PROOFS. Every step of TXTP keeps its invariant and answers a state (R52, R55, R264, R267, R271, R279). -/

namespace Sys2Proof.Machine

/-- What the invariant asks of a state that stands inside a sentence. -/
def Txtp.InSentence (x : Txtp) : Prop :=
  x.addr.length = x.n ∧ x.i + 1 < x.n ∧ x.sstart ≤ x.c ∧ x.c ≤ x.send ∧ x.send ≤ x.plen ∧
    x.rawText.length = x.c - x.sstart

/-- What it asks of one whose working sequence is made. -/
def Txtp.InSequence (x : Txtp) : Prop := x.InSentence ∧ x.c = x.send

/-- What it asks of an expansion under way. -/
def Txtp.Expanding (x : Txtp) : Prop :=
  x.entry < x.itab.length ∧ x.p < x.q ∧ x.q ≤ x.w.length ∧ x.w[x.p]? = some (.B x.t) ∧
    (x.vals.map rawItems).sum ≤ rawItems ((x.w.take x.q).drop (x.p + 1))

/-- What the invariant asks of each phase. -/
def Txtp.PhaseInv (x : Txtp) : TxtpPhase → Prop
  | .index => True
  | .frame => x.addr.length = x.n
  | .raw => x.InSentence
  | .scan => x.InSequence
  | .params => x.InSequence ∧ x.Expanding
  | .final => x.InSequence

/-- What it asks of the inputs in every phase. -/
def Txtp.InputsInv (caps : Caps) (x : Txtp) : Prop :=
  x.pbuf.exact x.plen ∧ exceeds caps.pCap x.plen = false ∧ exceeds caps.nInstrCap x.itab.length = false

/-- The invariant, read in a phase. -/
theorem Txtp.inv_iff {caps : Caps} {x : Txtp} {p : TxtpPhase} (hp : x.phase = p) :
    x.Inv caps ↔ x.InputsInv caps ∧ x.PhaseInv p := by
  cases p <;>
    simp [Txtp.Inv, Txtp.InputsInv, Txtp.PhaseInv, Txtp.InSequence, Txtp.InSentence, Txtp.Expanding, hp,
      TxtpPhase.inSentence, and_assoc]

theorem Txtp.inv_of_phase {caps : Caps} {x : Txtp} {p : TxtpPhase} (hp : x.phase = p)
    (h : x.InputsInv caps ∧ x.PhaseInv p) : x.Inv caps :=
  (Txtp.inv_iff hp).mpr h

/-- A fatal fault writes the status registers alone. -/
theorem Txtp.Inv.fatal {caps : Caps} {x : Txtp} (hi : x.Inv caps) (cause : Cause) (info : Nat) :
    (x.fatal cause info).Inv caps := hi

/-- A unit error in a sentence goes on to the next one (R264). -/
theorem Txtp.Inv.sentenceError {caps : Caps} {x : Txtp} (hi : x.Inv caps) (hp : x.phase ≠ .index)
    (cause : UnitCause) : (x.sentenceError caps cause).Inv caps := by
  obtain ⟨hbuf, hcap, hitab, haddr, -⟩ := id hi
  unfold Txtp.sentenceError
  rcases x.unitError_cases caps _ _ _ with ⟨-, he⟩ | ⟨-, he⟩ <;> rw [he]
  · exact hi.fatal _ _
  · exact Txtp.inv_of_phase (p := .frame) rfl ⟨⟨hbuf, hcap, hitab⟩, haddr hp⟩

/-! ## The index and the framing -/

theorem Txtp.Inv.fetchIndex {caps : Caps} {x : Txtp} (hi : x.Inv caps) (hp : x.phase = .index) :
    Keeps (Txtp.Inv caps) (x.fetchIndex.perform (txtpOp · caps)) := by
  obtain ⟨hin, -⟩ := (Txtp.inv_iff hp).mp hi
  obtain ⟨bs, hbs, -⟩ := window_ok (sp := .pbufTxtp) (a := 0) hin.1.filled le_rfl
  simp only [Txtp.fetchIndex, Fetch.withBytes, hbs]
  split
  · rename_i i rest hdec
    obtain ⟨hwf, hadm, -⟩ := decode_sound hdec
    cases i <;> simp only [Ctx.admits, Bool.false_eq_true] at hadm
    case tidx entries =>
      refine keeps_ok ?_
      exact Txtp.inv_of_phase (p := .frame) rfl ⟨hin, take_length_of_entriesWf hwf⟩
  · refine keeps_ok ?_
    exact Txtp.inv_of_phase hp ⟨hin, trivial⟩
  · exact keeps_ok (hi.fatal _ _)

theorem Txtp.Inv.frameSentence {caps : Caps} {x : Txtp} (hi : x.Inv caps) (hp : x.phase = .frame)
    (hlt : x.i + 1 < x.n) (start stop : Nat) : (x.frameSentence caps start stop).Inv caps := by
  obtain ⟨hin, haddr⟩ := (Txtp.inv_iff hp).mp hi
  unfold Txtp.frameSentence
  dsimp only
  split
  · refine Txtp.Inv.sentenceError ?_ ?_ _
    · exact Txtp.inv_of_phase hp ⟨hin, haddr⟩
    · simp [hp]
  · rename_i hrange
    simp only [badRange, Bool.or_eq_true, decide_eq_true_eq, not_or, Nat.not_lt] at hrange
    exact Txtp.inv_of_phase (p := .raw) rfl
      ⟨hin, haddr, hlt, le_rfl, hrange.1, hrange.2, (Nat.sub_self start).symm⟩

theorem Txtp.Inv.fetchFrame {caps : Caps} {x : Txtp} (hi : x.Inv caps) (hp : x.phase = .frame) :
    Keeps (Txtp.Inv caps) ((x.fetchFrame caps).perform (txtpOp · caps)) := by
  have haddr : x.addr.length = x.n := ((Txtp.inv_iff hp).mp hi).2
  unfold Txtp.fetchFrame
  split
  · rename_i hlt
    split
    · exact keeps_ok (hi.frameSentence hp hlt _ _)
    · rename_i hnone
      rw [List.getElem?_eq_none_iff] at hnone; omega
    · rename_i hnone
      rw [List.getElem?_eq_none_iff] at hnone; omega
  · exact keeps_ok hi

/-! ## Characters -/

/-- What `charOp` leaves in the charset decode of a sentence (R267). -/
theorem Txtp.Inv.putRaw {caps : Caps} {x : Txtp} (hi : x.Inv caps) (hp : x.phase = .raw) (hlt : x.c < x.send)
    (ch : Char) : (x.putChar ch).Inv caps := by
  obtain ⟨hin, haddr, hn, hlo, -, hsend, hraw⟩ := (Txtp.inv_iff hp).mp hi
  have hgrow : (x.rawText ++ [ch]).length = x.c + 1 - x.sstart := by
    rw [List.length_append, hraw, List.length_singleton]; omega
  rw [Txtp.putChar, if_neg (by simp [hp])]
  exact Txtp.inv_of_phase hp ⟨hin, haddr, hn, Nat.le_succ_of_le hlo, hlt, hsend, hgrow⟩

/-- What it leaves in the final decode (R280). -/
theorem Txtp.Inv.putFinal {caps : Caps} {x : Txtp} (hi : x.Inv caps) (hp : x.phase = .final) (ch : Char) :
    (x.putChar ch).Inv caps := by
  rw [Txtp.putChar, if_pos hp]
  exact Txtp.inv_of_phase hp ((Txtp.inv_iff hp).mp hi)

/-- Every character instruction puts one character. -/
theorem txtpOp_char {charset : Charset} {i : Instr} (h : (Ctx.char charset).admits i = true) (caps : Caps)
    (x : Txtp) : ∃ ch, txtpOp i caps x = .ok (x.putChar ch) := by
  cases i <;> simp only [Ctx.admits, Bool.false_eq_true] at h <;> exact ⟨_, rfl⟩

theorem Txtp.Inv.fetchRaw {caps : Caps} {x : Txtp} (hi : x.Inv caps) (hp : x.phase = .raw) :
    Keeps (Txtp.Inv caps) ((x.fetchRaw caps).perform (txtpOp · caps)) := by
  obtain ⟨hin, hsent⟩ := (Txtp.inv_iff hp).mp hi
  have ⟨_, _, hlo, hhi, hsend, _⟩ : x.InSentence := hsent
  unfold Txtp.fetchRaw
  split
  · rename_i hlt
    obtain ⟨bs, hbs, hlen, -⟩ := window_ok (sp := .pbufTxtp) (a := x.c) hin.1.filled hsend
    simp only [Fetch.withBytes, hbs]
    split
    · rename_i i rest hdec
      obtain ⟨-, hadm, -⟩ := decode_sound hdec
      obtain ⟨ch, hch⟩ := txtpOp_char hadm caps x
      exact ⟨_, hch, hi.putRaw hp hlt ch⟩
    · rename_i hdec
      cases bs with
      | nil => rw [List.length_nil] at hlen; omega
      | cons b rest => cases hdec
  · obtain ⟨bs, hbs, -⟩ := window_ok (sp := .pbufTxtp) (a := x.sstart) hin.1.filled hsend
    simp only [Fetch.withBytes, hbs]
    refine keeps_ok ?_
    unfold Txtp.startExpansion
    split
    · exact hi.fatal _ _
    · exact Txtp.inv_of_phase (p := .scan) rfl ⟨hin, hsent, by simp only; omega⟩

/-! ## Expansions -/

/-- An expansion opens at the leftmost trigger (R270, R271). -/
theorem Txtp.Inv.tinstr {caps : Caps} {x : Txtp} (hi : x.Inv caps) (hp : x.phase = .scan)
    (hentry : x.entry < x.itab.length) (t : Byte) : Keeps (Txtp.Inv caps) (tinstrOp t caps x) := by
  obtain ⟨hin, hseq⟩ := (Txtp.inv_iff hp).mp hi
  unfold tinstrOp
  split <;> refine keeps_ok ?_
  · rename_i p hfind
    have hat := (findByte_some hfind).1
    obtain ⟨hlt, -⟩ := List.getElem?_eq_some_iff.mp hat
    exact Txtp.inv_of_phase (p := .params) rfl
      ⟨hin, hseq, hentry, Nat.lt_succ_self p, hlt, hat, Nat.zero_le _⟩
  · exact Txtp.inv_of_phase (p := .scan) rfl ⟨hin, hseq⟩

theorem Txtp.Inv.fetchScan {caps : Caps} {x : Txtp} (hi : x.Inv caps) (hp : x.phase = .scan) :
    Keeps (Txtp.Inv caps) (x.fetchScan.perform (txtpOp · caps)) := by
  obtain ⟨hin, hseq⟩ := (Txtp.inv_iff hp).mp hi
  have hnext : ∀ t, ({ x with t := t, entry := x.entry + 1 } : Txtp).Inv caps := fun t =>
    Txtp.inv_of_phase hp ⟨hin, hseq⟩
  unfold Txtp.fetchScan
  split
  · refine keeps_ok ?_
    exact Txtp.inv_of_phase (p := .final) rfl ⟨hin, hseq⟩
  · rename_i ins hins
    obtain ⟨hentry, -⟩ := List.getElem?_eq_some_iff.mp hins
    split
    · exact keeps_ok (hnext _)
    · split
      · rename_i i rest hdec
        obtain ⟨-, hadm, -⟩ := decodeItems_sound hdec
        cases i <;> simp only [ItemCtx.admits, Bool.false_eq_true] at hadm
        case tinstr t => exact hi.tinstr hp hentry t
      · exact keeps_ok (hnext _)

/-- The span of an expansion that reads `k` items more. -/
theorem span_extend {w : List Item} {p q k : Nat} (hpq : p < q) (hq : q ≤ w.length) :
    (w.take (q + k)).drop (p + 1) = (w.take q).drop (p + 1) ++ (w.drop q).take k := by
  rw [List.take_add, List.drop_append_of_le_length (by simp; omega)]

/-- A parameter value that holds no raw byte its items do not keeps the invariant (R279). -/
theorem Txtp.Inv.putVal {caps : Caps} {x : Txtp} (hi : x.Inv caps) (hp : x.phase = .params)
    {items rest : List Item} (hitems : items ++ rest = x.w.drop x.q) {val : List Item}
    (hval : rawItems val ≤ rawItems items) (r : Nat) :
    (Txtp.putVal val { x with r := r, q := x.q + items.length }).Inv caps := by
  obtain ⟨hin, hseq, hentry, hpq, hq, hat, hsum⟩ := (Txtp.inv_iff hp).mp hi
  have hroom : x.q + items.length ≤ x.w.length := by
    have := congrArg List.length hitems
    rw [List.length_append, List.length_drop] at this
    omega
  have htake : (x.w.drop x.q).take items.length = items := by rw [← hitems, List.take_left]
  have hspan : ((x.vals ++ [val]).map rawItems).sum ≤
      rawItems ((x.w.take (x.q + items.length)).drop (x.p + 1)) := by
    rw [span_extend hpq hq, htake, rawItems_append, List.map_append, List.sum_append, List.map_singleton,
      List.sum_singleton]
    exact Nat.add_le_add hsum hval
  exact Txtp.inv_of_phase (p := .params) hp ⟨hin, hseq, hentry, Nat.lt_add_right _ hpq, hroom, hat, hspan⟩

theorem rawItems_numericValue (v : Half) : rawItems (numericValue v) = 0 := rawItems_textItems _

theorem Txtp.Inv.paramOp {caps : Caps} {x : Txtp} (hi : x.Inv caps) (hp : x.phase = .params) {mode : ParamMode}
    {i : Instr} (hadm : (ItemCtx.param mode).admits i = true) {rest : List Item}
    (hitems : i.encodeItems ++ rest = x.w.drop x.q) : Keeps (Txtp.Inv caps) (txtpOp i caps x) := by
  cases i <;> simp only [ItemCtx.admits, Bool.false_eq_true] at hadm
  case paramRead8 v =>
    exact keeps_ok (hi.putVal hp hitems (val := numericValue _) (by simp [rawItems_numericValue]) x.r)
  case paramRead16 v =>
    exact keeps_ok (hi.putVal hp hitems (val := numericValue _) (by simp [rawItems_numericValue]) x.r)
  case paramReadUntil captured t =>
    have hput := hi.putVal hp hitems (val := captured) (by simp [Instr.encodeItems, rawItems_append])
      (x.q + captured.length)
    rw [Instr.encodeItems, List.length_append, List.length_singleton] at hput
    exact keeps_ok hput

theorem Txtp.Inv.fetchParams {caps : Caps} {x : Txtp} (hi : x.Inv caps) (hp : x.phase = .params) :
    Keeps (Txtp.Inv caps) ((x.fetchParams caps).perform (txtpOp · caps)) := by
  obtain ⟨hin, hseq, hentry, -⟩ := (Txtp.inv_iff hp).mp hi
  unfold Txtp.fetchParams
  split
  · rename_i hnone
    rw [List.getElem?_eq_none_iff] at hnone
    omega
  · split
    · refine keeps_ok ?_
      unfold Txtp.closeExpansion
      dsimp only
      split
      · exact hi.fatal _ _
      · exact Txtp.inv_of_phase (p := .scan) rfl ⟨hin, hseq⟩
    · split
      · rename_i i rest hdec
        obtain ⟨-, hadm, hitems⟩ := decodeItems_sound hdec
        exact hi.paramOp hp hadm hitems
      · exact keeps_ok (hi.sentenceError (by simp [hp]) _)

theorem Txtp.Inv.fetchFinal {caps : Caps} {x : Txtp} (hi : x.Inv caps) (hp : x.phase = .final) :
    Keeps (Txtp.Inv caps) ((x.fetchFinal caps).perform (txtpOp · caps)) := by
  obtain ⟨hin, hseq⟩ := (Txtp.inv_iff hp).mp hi
  have haddr : x.addr.length = x.n := hseq.1.1
  unfold Txtp.fetchFinal
  split
  · refine keeps_ok ?_
    unfold Txtp.storeSentence
    dsimp only
    split
    · exact Txtp.inv_of_phase hp ⟨hin, hseq⟩
    · exact Txtp.inv_of_phase (p := .frame) rfl ⟨hin, haddr⟩
  · refine keeps_ok ?_
    exact Txtp.inv_of_phase hp ⟨hin, hseq⟩
  · rename_i b _
    obtain ⟨ch, hch⟩ := txtpOp_char (decodeChar_sound x.charset b).2.1 caps x
    exact ⟨_, hch, hi.putFinal hp ch⟩

/-- A step of TXTP goes on and keeps the invariant. -/
theorem Txtp.Inv.next {caps : Caps} {x : Txtp} (hi : x.Inv caps) : Keeps (Txtp.Inv caps) (x.next caps) := by
  unfold Txtp.next
  split
  · cases hp : x.phase <;> simp only [fetchTxtp, hp]
    case index => exact hi.fetchIndex hp
    case frame => exact hi.fetchFrame hp
    case raw => exact hi.fetchRaw hp
    case scan => exact hi.fetchScan hp
    case params => exact hi.fetchParams hp
    case final => exact hi.fetchFinal hp
  · exact keeps_ok hi

end Sys2Proof.Machine
end

section
/-! PROOFS. Every step of the machine keeps the invariant, and none stops with a fault (O58, O59). -/

namespace Sys2Proof.Machine

/-- An answer that is a well-kept state, or a refusal. -/
def WellKept : Answer → Prop
  | .next t => t.Inv
  | .fault _ => False
  | .refused _ => True

/-! ## A step of an engine -/

/-- A state keeps `oneActive` whatever the RUNNING engine becomes. -/
theorem State.oneActive.set_running {s : State} (h : s.oneActive) :
    (s.hsqd.st.status = .running → ∀ h', (s.setHsqd h').oneActive) ∧
    (s.imgd.st.status = .running → ∀ m', (s.setImgd m').oneActive) ∧
    (s.txtp.st.status = .running → ∀ x', (s.setTxtp x').oneActive) := by
  obtain ⟨hh, hm⟩ := h
  refine ⟨fun hrun h' => ?_, fun hrun m' => ?_, fun hrun x' => ?_⟩
  · exact ⟨fun _ => hh hrun, hm⟩
  · exact ⟨fun hrun' => absurd hrun (hh hrun').1, fun _ => hm hrun⟩
  · exact ⟨fun hrun' => absurd hrun (hh hrun').2, fun hrun' => absurd hrun (hm hrun')⟩

/-- An engine that is not RUNNING takes no step (R59). -/
theorem engineStep_of_not_running {e : Engine} {s : State} (h : (statusOf e s).status ≠ .running) :
    engineStep e s = .next s :=
  if_neg h

theorem State.Inv.engineStep {s : State} (hi : s.Inv) (e : Engine) : WellKept (engineStep e s) := by
  by_cases hrun : (statusOf e s).status = .running
  case neg =>
    rw [engineStep_of_not_running hrun]
    exact hi
  obtain ⟨hh, hm, hx, hone⟩ := hi
  cases e with
  | hsqd =>
    obtain ⟨h', he, hh'⟩ := hh.next
    rw [engineStep_hsqd_eq, onHsqd_ok he]
    exact ⟨hh', hm, hx, hone.set_running.1 hrun h'⟩
  | imgd =>
    obtain ⟨m', he, hm'⟩ := hm.next
    rw [engineStep_imgd_eq, onImgd_ok he]
    exact ⟨hh, hm', hx, hone.set_running.2.1 hrun m'⟩
  | txtp =>
    obtain ⟨x', he, hx'⟩ := hx.next
    rw [engineStep_txtp_eq, onTxtp_ok he]
    exact ⟨hh, hm, hx', hone.set_running.2.2 hrun x'⟩

/-! ## A move of the host -/

theorem exceeds_zero (cap : Option Nat) : exceeds cap 0 = false := by
  cases cap <;> rfl

/-- The state after RESET is well-kept under every capacity. -/
theorem reset_inv (caps : Caps) : Hsqd.reset.Inv caps ∧ Imgd.reset.Inv caps ∧ Txtp.reset.Inv caps := by
  refine ⟨?_, ?_, ?_⟩
  · exact ⟨rfl, rfl, le_rfl, exceeds_zero _, exceeds_zero _, Nat.zero_le _, Nat.zero_lt_one, rfl⟩
  · exact Imgd.inv_of_phase (p := .pointer) rfl ⟨rfl, exceeds_zero _, trivial⟩
  · exact Txtp.inv_of_phase (p := .index) rfl ⟨⟨rfl, exceeds_zero _, exceeds_zero _⟩, trivial⟩

theorem launchedHsqd_inv (caps : Caps) (bytes : List Byte) (verify : Bool) :
    (launchedHsqd caps bytes verify).Inv caps := by
  unfold launchedHsqd
  dsimp only
  split
  · exact (reset_inv caps).1
  · rename_i hcap
    exact ⟨Memory.exact_ofBytes bytes, rfl, Nat.zero_le _, by simpa using hcap, exceeds_zero _, Nat.zero_le _,
      Nat.zero_lt_one, rfl⟩

theorem launchedImgd_inv (caps : Caps) (bytes : List Byte) (bound : Bool) :
    (launchedImgd caps bytes bound).Inv caps := by
  unfold launchedImgd
  dsimp only
  split
  · exact (reset_inv caps).2.1
  · rename_i hcap
    exact Imgd.inv_of_phase (p := .pointer) rfl ⟨Memory.exact_ofBytes bytes, by simpa using hcap, trivial⟩

theorem launchedTxtp_inv (caps : Caps) (bytes : List Byte) (bound : Bool) (charset : Charset)
    (itab : List TextInstruction) : (launchedTxtp caps bytes bound charset itab).Inv caps := by
  unfold launchedTxtp
  dsimp only
  split
  · exact (reset_inv caps).2.2
  · rename_i hcap
    simp only [Bool.or_eq_true, not_or, Bool.not_eq_true] at hcap
    exact Txtp.inv_of_phase (p := .index) rfl ⟨⟨Memory.exact_ofBytes bytes, hcap⟩, trivial⟩

/-- A payload of a well-kept machine is there, or the launch is refused. -/
theorem State.Inv.withPayload {s : State} (hi : s.Inv) (p : Payload) {f : List Byte → Bool → State}
    (hf : ∀ bs bound, (f bs bound).Inv) : WellKept (withPayload p s f) := by
  cases p with
  | bytes bs => exact hf bs false
  | obuf =>
    obtain ⟨⟨-, hob, -⟩, -⟩ := hi
    obtain ⟨bs, hbs, -⟩ := window_ok (sp := .obuf) (a := 0) hob.filled le_rfl
    simp only [Machine.withPayload, hbs]
    split
    · exact hf bs true
    · trivial

theorem execLaunch_of_refusal {req : LaunchReq} {s : State} {r : Refusal}
    (h : launchRefusal (LaunchReq.engine req) s = some r) : execLaunch req s = .refused r := by
  simp only [execLaunch, h]

theorem State.Inv.launch {s : State} (hi : s.Inv) (req : LaunchReq) : WellKept (execLaunch req s) := by
  cases href : launchRefusal (LaunchReq.engine req) s with
  | some r =>
    rw [execLaunch_of_refusal href]
    trivial
  | none =>
    have hidle := launchRefusal_eq_none.mp href
    have hhsqd : s.hsqd.st.status ≠ .running := hidle .hsqd
    have himgd : s.imgd.st.status ≠ .running := hidle .imgd
    have htxtp : s.txtp.st.status ≠ .running := hidle .txtp
    obtain ⟨hh, hm, hx, -⟩ := id hi
    rw [execLaunch_of_idle hidle]
    cases req with
    | hsqd bytes verify =>
      exact ⟨launchedHsqd_inv _ _ _, hm, hx, fun _ => ⟨himgd, htxtp⟩, fun h => absurd h himgd⟩
    | imgd p =>
      exact hi.withPayload p fun bs bound =>
        ⟨hh, launchedImgd_inv _ _ _, hx, fun h => absurd h hhsqd, fun _ => htxtp⟩
    | txtp p charset itab =>
      exact hi.withPayload p fun bs bound =>
        ⟨hh, hm, launchedTxtp_inv _ _ _ _ _, fun h => absurd h hhsqd, fun h => absurd h himgd⟩

theorem State.Inv.hostStep {s : State} (hi : s.Inv) (mv : HostMove) : WellKept (hostStep mv s) := by
  cases mv with
  | reset =>
    obtain ⟨hh, hm, hx⟩ := reset_inv s.caps
    have hone : State.reset.oneActive := by decide
    exact ⟨hh, hm, hx, hone⟩
  | launch req => exact hi.launch req
  | compose j dflt =>
    simp only [Machine.hostStep]
    split
    · exact hi
    · trivial
  | run e => exact hi.engineStep e

/-- The step of a well-kept state is a well-kept state or a refusal. -/
theorem State.Inv.step {s : State} (hi : s.Inv) : WellKept (step s) := by
  unfold Machine.step
  split
  · rename_i mv q _
    exact State.Inv.hostStep (s := s.setHostq q) hi mv
  · unfold freeStep
    split
    · exact hi.engineStep _
    · exact hi

/-- Settles O58: each engine's step keeps its part of the invariant, and a launch starts from it. -/
theorem stepKeepsInvariant : Obligations.StepKeepsInvariant := by
  intro s t hi hstep
  have hkept := hi.step
  rwa [hstep] at hkept

/-- Settles O59: every window an engine reads lies in a buffer that holds its bytes, and every entry a loop
stands at exists. -/
theorem wellKeptStepsNeverFault : Obligations.WellKeptStepsNeverFault := by
  intro s r hi hstep
  have hkept := hi.step
  rwa [hstep] at hkept

end Sys2Proof.Machine
end

section
/-! PROOFS. The result of a launch is a function of its inputs (O54), the launches the host may not make (O48),
and the engine that steps when the host has no move pending (O55). -/

namespace Sys2Proof.Machine

/-! ## Runs are pure -/

/-- A launch that goes on found no engine RUNNING. -/
theorem idle_of_execLaunch_next {req : LaunchReq} {s t : State} (h : execLaunch req s = .next t) (e : Engine) :
    (statusOf e s).status ≠ .running := by
  cases href : launchRefusal (LaunchReq.engine req) s with
  | none => exact launchRefusal_eq_none.mp href e
  | some r =>
    rw [execLaunch_of_refusal href] at h
    cases h

/-- A step of HSQD sees the HSQD state and the capacities alone (R16, R30). -/
theorem engineStep_hsqd_agree {s s' u : State} (hcaps : s.caps = s'.caps) (hown : s.hsqd = s'.hsqd)
    (h : engineStep .hsqd s = .next u) :
    ∃ u', engineStep .hsqd s' = .next u' ∧ u.caps = u'.caps ∧ u.hsqd = u'.hsqd := by
  rw [engineStep_hsqd_eq] at h
  obtain ⟨e, he, rfl⟩ := onHsqd_next.mp h
  rw [hcaps, hown] at he
  exact ⟨_, (engineStep_hsqd_eq s').trans (onHsqd_ok he), hcaps, rfl⟩

/-- A step of IMGD sees the IMGD state and the capacities alone (R16, R30). -/
theorem engineStep_imgd_agree {s s' u : State} (hcaps : s.caps = s'.caps) (hown : s.imgd = s'.imgd)
    (h : engineStep .imgd s = .next u) :
    ∃ u', engineStep .imgd s' = .next u' ∧ u.caps = u'.caps ∧ u.imgd = u'.imgd := by
  rw [engineStep_imgd_eq] at h
  obtain ⟨e, he, rfl⟩ := onImgd_next.mp h
  rw [hcaps, hown] at he
  exact ⟨_, (engineStep_imgd_eq s').trans (onImgd_ok he), hcaps, rfl⟩

/-- A step of TXTP sees the TXTP state and the capacities alone (R16, R30). -/
theorem engineStep_txtp_agree {s s' u : State} (hcaps : s.caps = s'.caps) (hown : s.txtp = s'.txtp)
    (h : engineStep .txtp s = .next u) :
    ∃ u', engineStep .txtp s' = .next u' ∧ u.caps = u'.caps ∧ u.txtp = u'.txtp := by
  rw [engineStep_txtp_eq] at h
  obtain ⟨e, he, rfl⟩ := onTxtp_next.mp h
  rw [hcaps, hown] at he
  exact ⟨_, (engineStep_txtp_eq s').trans (onTxtp_ok he), hcaps, rfl⟩

/-- Where one step sees a part `own` of the machine and the capacities alone, so does a run. -/
theorem runEngine_agree {σ : Type} {e : Engine} {own : State → σ}
    (hstep : ∀ {s s' u : State}, s.caps = s'.caps → own s = own s' → engineStep e s = .next u →
      ∃ u', engineStep e s' = .next u' ∧ u.caps = u'.caps ∧ own u = own u')
    (n : Nat) {s s' t : State} (hcaps : s.caps = s'.caps) (hown : own s = own s')
    (h : runEngine e n s = .next t) : ∃ t', runEngine e n s' = .next t' ∧ own t' = own t := by
  induction n generalizing s s' with
  | zero => cases h; exact ⟨s', rfl, hown.symm⟩
  | succ n ih =>
    rw [runEngine] at h
    split at h
    · rename_i u hu
      obtain ⟨u', hu', hcaps', hown'⟩ := hstep hcaps hown hu
      obtain ⟨t', ht', heq⟩ := ih hcaps' hown' h
      exact ⟨t', by rw [runEngine, hu']; exact ht', heq⟩
    · cases h
    · cases h

/-- Settles O54: a launch builds its engine's state from the inputs and the capacities, and every step of an
engine is a function of that engine's state and the capacities. -/
theorem runsArePure : Obligations.RunsArePure := by
  refine ⟨?_, ?_, ?_, fun n s s' t hcaps => ⟨?_, ?_, ?_⟩⟩
  · intro s s' t t' bytes verify hcaps h h'
    replace h := (execLaunch_of_idle (idle_of_execLaunch_next h)).symm.trans h
    replace h' := (execLaunch_of_idle (idle_of_execLaunch_next h')).symm.trans h'
    cases h
    cases h'
    exact congrArg (launchedHsqd · bytes verify) hcaps
  · intro s s' t t' bytes hcaps h h'
    replace h := (execLaunch_of_idle (idle_of_execLaunch_next h)).symm.trans h
    replace h' := (execLaunch_of_idle (idle_of_execLaunch_next h')).symm.trans h'
    cases h
    cases h'
    exact congrArg (launchedImgd · bytes false) hcaps
  · intro s s' t t' bytes charset itab hcaps h h'
    replace h := (execLaunch_of_idle (idle_of_execLaunch_next h)).symm.trans h
    replace h' := (execLaunch_of_idle (idle_of_execLaunch_next h')).symm.trans h'
    cases h
    cases h'
    exact congrArg (launchedTxtp · bytes false charset itab) hcaps
  · exact runEngine_agree engineStep_hsqd_agree n hcaps
  · exact runEngine_agree engineStep_imgd_agree n hcaps
  · exact runEngine_agree engineStep_txtp_agree n hcaps

/-! ## Launches that are refused -/

/-- A launch of a RUNNING engine (R352, U41). -/
theorem launchRefusal_running {e : Engine} {s : State} (h : (statusOf e s).status = .running) :
    launchRefusal e s = some (.launchWhileRunning e) := by
  obtain ⟨active, ha⟩ := activeEngine_of_running h
  simp [launchRefusal, ha, h]

/-- An interpreter that `boundRunning` speaks of is RUNNING. -/
theorem running_of_boundRunning {s : State} (h : boundRunning s = true) :
    ∃ e, (statusOf e s).status = .running := by
  simp only [boundRunning, Bool.or_eq_true, Bool.and_eq_true, decide_eq_true_eq] at h
  rcases h with ⟨-, h⟩ | ⟨-, h⟩
  · exact ⟨.imgd, h⟩
  · exact ⟨.txtp, h⟩

/-- A launch of HSQD under a bound RUNNING interpreter (R85, U40). -/
theorem launchRefusal_bound {s : State} (h : s.hsqd.st.status ≠ .running) (hb : boundRunning s = true) :
    launchRefusal .hsqd s = some .relaunchUnderBound := by
  obtain ⟨e, he⟩ := running_of_boundRunning hb
  obtain ⟨active, ha⟩ := activeEngine_of_running he
  simp [launchRefusal, ha, statusOf, h, hb]

/-- A launch beside another RUNNING engine is refused under the name of a RUNNING one (R15, R328). -/
theorem execLaunch_beside {req : LaunchReq} {s : State} {e : Engine}
    (hidle : (statusOf (LaunchReq.engine req) s).status ≠ .running)
    (hb : ¬(LaunchReq.engine req = .hsqd ∧ boundRunning s = true)) (hrun : (statusOf e s).status = .running) :
    ∃ active, (statusOf active s).status = .running ∧ execLaunch req s = .refused (.otherRunning active) := by
  obtain ⟨active, ha⟩ := activeEngine_of_running hrun
  exact ⟨active, activeEngine_running ha, execLaunch_of_refusal (launchRefusal_other hidle hb ha)⟩

/-! ## Launches that go on -/

/-- A launch of an interpreter goes on with the bytes its payload stands for (R41, R52, R85). -/
theorem withPayload_ok {p : Payload} {s : State} {bytes : List Byte}
    (h : p = .bytes bytes ∨
      (p = .obuf ∧ s.hsqd.st.status = .done ∧ window .obuf s.hsqd.obuf 0 s.hsqd.olen = .ok bytes))
    (f : List Byte → Bool → State) : ∃ bound, withPayload p s f = .next (f bytes bound) := by
  rcases h with rfl | ⟨rfl, hdone, hwin⟩
  · exact ⟨false, rfl⟩
  · exact ⟨true, by simp only [withPayload, hdone, if_true, hwin]⟩

/-- An input over `IN_CAP` is not loaded (R317, log 12). -/
theorem launchedHsqd_over {caps : Caps} {bytes : List Byte} (h : exceeds caps.inCap bytes.length = true)
    (verify : Bool) :
    (launchedHsqd caps bytes verify).st = ⟨.fault, .capacityExceeded, 0⟩ ∧
      (launchedHsqd caps bytes verify).inLen = 0 := by
  rw [launchedHsqd, if_pos h]
  exact ⟨rfl, rfl⟩

/-- A payload over `P_CAP` is not loaded (R317, log 12). -/
theorem launchedImgd_over {caps : Caps} {bytes : List Byte} (h : exceeds caps.pCap bytes.length = true)
    (bound : Bool) :
    (launchedImgd caps bytes bound).st = ⟨.fault, .capacityExceeded, 0⟩ ∧
      (launchedImgd caps bytes bound).plen = 0 := by
  rw [launchedImgd, if_pos h]
  exact ⟨rfl, rfl⟩

/-- A payload over `P_CAP` or a table over `N_INSTR_CAP` is not loaded (R317, log 12). -/
theorem launchedTxtp_over {caps : Caps} {bytes : List Byte} {itab : List TextInstruction}
    (h : exceeds caps.pCap bytes.length = true ∨ exceeds caps.nInstrCap itab.length = true) (bound : Bool)
    (charset : Charset) :
    (launchedTxtp caps bytes bound charset itab).st = ⟨.fault, .capacityExceeded, 0⟩ ∧
      (launchedTxtp caps bytes bound charset itab).plen = 0 := by
  rw [launchedTxtp, if_pos (Bool.or_eq_true _ _ ▸ h)]
  exact ⟨rfl, rfl⟩

/-- Settles O48: the refusals by the order of tests of `launchRefusal`, the faults by the capacity tests of the
launch. -/
theorem launchPreconditions : Obligations.LaunchPreconditions := by
  refine ⟨fun s bytes verify => ⟨?_, ?_, ?_, ?_⟩, fun s p => ⟨?_, ?_⟩,
    fun s p charset itab => ⟨?_, ?_⟩, fun s charset itab hidle hdone => ⟨?_, ?_⟩,
    fun s p bytes charset itab hidle hpay => ⟨?_, ?_⟩⟩
  · exact fun hrun => execLaunch_of_refusal (launchRefusal_running (e := .hsqd) hrun)
  · exact fun hrun hb => execLaunch_of_refusal (launchRefusal_bound hrun hb)
  · rintro hrun hb (himgd | htxtp)
    · exact execLaunch_beside (e := .imgd) hrun (by simp [hb]) himgd
    · exact execLaunch_beside (e := .txtp) hrun (by simp [hb]) htxtp
  · exact fun hidle hcap => ⟨_, execLaunch_of_idle hidle, launchedHsqd_over hcap verify⟩
  · exact fun hrun => execLaunch_of_refusal (launchRefusal_running (e := .imgd) hrun)
  · rintro hrun (hhsqd | htxtp)
    · exact execLaunch_beside (e := .hsqd) hrun nofun hhsqd
    · exact execLaunch_beside (e := .txtp) hrun nofun htxtp
  · exact fun hrun => execLaunch_of_refusal (launchRefusal_running (e := .txtp) hrun)
  · rintro hrun (hhsqd | himgd)
    · exact execLaunch_beside (e := .hsqd) hrun nofun hhsqd
    · exact execLaunch_beside (e := .imgd) hrun nofun himgd
  · exact (execLaunch_of_idle hidle).trans (if_neg hdone)
  · exact (execLaunch_of_idle hidle).trans (if_neg hdone)
  · intro hcap
    obtain ⟨bound, hgo⟩ := withPayload_ok hpay s.launchImgd
    exact ⟨_, (execLaunch_of_idle hidle).trans hgo, launchedImgd_over hcap bound⟩
  · intro hcap
    obtain ⟨bound, hgo⟩ := withPayload_ok hpay fun bs bound =>
      s.setTxtp (launchedTxtp s.caps bs bound charset itab)
    exact ⟨_, (execLaunch_of_idle hidle).trans hgo, launchedTxtp_over hcap bound charset⟩

/-! ## The step without a move of the host -/

theorem step_of_no_move {s : State} (h : s.hostq = []) : step s = freeStep s := by
  rw [step, h]

/-- With no move pending the active engine steps as if the host let it (log 4). -/
theorem step_active {s : State} {e : Engine} (hq : s.hostq = []) (ha : activeEngine s = some e) :
    step s = step (s.setHostq [.run e]) := by
  have hset : (s.setHostq [.run e]).setHostq [] = s := (congrArg s.setHostq hq).symm
  rw [step_of_no_move hq, freeStep, ha, step_run (s.setHostq_hostq [.run e]), hset]

/-- Settles O55: `activeEngine` answers the first RUNNING engine, and none where none runs. -/
theorem freeStepPicksRunningEngine : Obligations.FreeStepPicksRunningEngine := by
  intro s hq
  refine ⟨fun hh => ?_, fun hh hm => ?_, fun hh hm hx => ?_, fun hh hm hx => ?_⟩
  · exact step_active hq (by rw [activeEngine, if_pos hh])
  · exact step_active hq (by rw [activeEngine, if_neg hh, if_pos hm])
  · exact step_active hq (by rw [activeEngine, if_neg hh, if_neg hm, if_pos hx])
  · rw [step_of_no_move hq, freeStep, activeEngine, if_neg hh, if_neg hm, if_neg hx]

end Sys2Proof.Machine
end

section
/-! PROOFS. How the rows of an image part end (O29): a row after its bytes, the part after its last row, and a
part whose data is cut short inside a row. -/

namespace Sys2Proof

theorem takeBytes_eq_none {n : Nat} {bs : List Byte} (h : bs.length < n) : takeBytes n bs = none := by
  cases htake : takeBytes n bs with
  | none => rfl
  | some d =>
    obtain ⟨hlen, happ⟩ := takeBytes_some htake
    have := congrArg List.length happ
    rw [List.length_append] at this
    omega

/-- A run whose value bytes are not all there (R225, R226). -/
theorem decodeRle_cut {cmd : Byte} {rest : List Byte}
    (h : rest.length < if cmd.toNat < 128 then cmd.toNat + 1 else 1) :
    decodeRle (cmd :: rest) = .error (.short (cmd :: rest).length) := by
  obtain ⟨k, hk⟩ : ∃ k, decodeRle (cmd :: rest) = .error (.short k) := by
    unfold decodeRle
    dsimp only
    by_cases hmsb : cmd.toNat < 128
    · have hclear : ¬cmd.msb = true := by rw [BitVec.msb_eq_decide, decide_eq_true_eq]; omega
      rw [if_neg hclear, takeBytes_eq_none (by rwa [if_pos hmsb] at h)]
      exact ⟨_, rfl⟩
    · have hset : cmd.msb = true := by rw [BitVec.msb_eq_decide, decide_eq_true_eq]; omega
      rw [if_neg hmsb, Nat.lt_one_iff, List.length_eq_zero_iff] at h
      rw [if_pos hset, h]
      exact ⟨_, rfl⟩
  rw [hk, decodeRle_short hk]

end Sys2Proof

namespace Sys2Proof.Machine

/-- A step in which the host lets a RUNNING IMGD do a control step. -/
theorem step_imgd_control {s : State} {q : List HostMove} (hq : s.hostq = .run .imgd :: q)
    (hrun : s.imgd.st.status = .running) {m : Imgd} (hf : fetchImgd s.caps s.imgd = .control m) :
    step s = .next ((s.setHostq q).setImgd m) := by
  rw [step_run hq, engineStep_imgd (s := s.setHostq q) hrun, State.setHostq_caps, State.setHostq_imgd, hf,
    Fetch.run]

/-- What a row loop decodes it fetches as a data item. -/
theorem fetchImgd_of_reads {caps : Caps} {m : Imgd} {ctx : Ctx} (hp : m.phase = .rows ∨ m.phase = .runs)
    (hreads : m.reads = some (ctx, m.s, m.pend)) :
    fetchImgd caps m = m.fetchData caps ctx ∧ (ctx = .pair ∨ ctx = .rle) := by
  rcases hp with hp | hp <;> simp only [Imgd.reads, hp] at hreads <;> split at hreads <;> cases hreads
  · rename_i hin
    exact ⟨by simp only [fetchImgd, hp, Imgd.fetchRows, if_pos hin.1, if_pos hin.2], .inl rfl⟩
  · rename_i hin
    exact ⟨by simp only [fetchImgd, hp, Imgd.fetchRuns, if_pos hin.1, if_pos hin.2], .inr rfl⟩

/-- After the last row comes the end of the part (R221, R223). -/
theorem fetchImgd_endPart {caps : Caps} {m : Imgd} (hp : m.phase = .rows ∨ m.phase = .runs)
    (hy : m.height.toNat ≤ m.y) : fetchImgd caps m = m.endPart caps := by
  rcases hp with hp | hp
  · simp only [fetchImgd, hp, Imgd.fetchRows, if_neg (Nat.not_lt.mpr hy)]
  · simp only [fetchImgd, hp, Imgd.fetchRuns, if_neg (Nat.not_lt.mpr hy)]

/-- Data that ends inside an item drops the part, with the cursor past every byte there was (R12, R313). -/
theorem Imgd.fetchData_cut {caps : Caps} {m : Imgd} {ctx : Ctx} {d : List Byte}
    (hwin : window .pbufImgd m.pbuf m.s m.pend = .ok d) (hdec : decode ctx d = .error (.short d.length)) :
    m.fetchData caps ctx = .control (({ m with s := m.s + d.length } : Imgd).partError caps .truncated) := by
  simp only [Imgd.fetchData, Fetch.withBytes, hwin, hdec]

/-- Settles O29: the three ends of a row loop, each a control step. -/
theorem rowLoopsEnd : Obligations.RowLoopsEnd := by
  intro s q hq hrun
  refine ⟨fun hp hy hx => ?_, fun d hp hy hwin => ?_, fun d ctx hreads hp hwin hcut => ?_⟩
  · apply step_imgd_control hq hrun
    simp only [fetchImgd, hp, Imgd.fetchRows, if_pos hy, if_neg (Nat.not_lt.mpr hx)]
  · have hend := fetchImgd_endPart (caps := s.caps) hp hy
    simp only [Imgd.endPart, Fetch.withBytes, hwin] at hend
    refine ⟨fun hfull => ?_, fun hfull => ?_⟩
    · rw [hfull] at hend
      exact step_imgd_control hq hrun hend
    · rw [hfull] at hend
      exact step_imgd_control hq hrun hend
  · obtain ⟨hfetch, hctx⟩ := fetchImgd_of_reads (caps := s.caps) hp hreads
    have hdec : decode ctx d = .error (.short d.length) := by
      rcases hcut with rfl | ⟨rfl, cmd, rest, rfl, hlen⟩
      · rcases hctx with rfl | rfl <;> rfl
      · exact decodeRle_cut hlen
    rw [Imgd.fetchData_cut hwin hdec] at hfetch
    rw [step_imgd_control hq hrun hfetch]
    refine ⟨fun hfull => ?_, fun hfull => ?_⟩
    · rw [Imgd.partError, Imgd.unitError, hfull]
      rfl
    · rw [Imgd.partError, Imgd.unitError, hfull]
      rfl

end Sys2Proof.Machine
end

section
/-! PROOFS. The engines share no state: an instruction or a step of one changes that engine's state alone
(O51, R30). -/

namespace Sys2Proof.Machine

theorem onHsqd_frame {f : Caps → Hsqd → Except Fault Hsqd} {s t : State} (h : onHsqd f s = .next t) :
    t = s.setHsqd t.hsqd := by
  obtain ⟨h', -, rfl⟩ := onHsqd_next.mp h
  rfl

theorem onImgd_frame {f : Caps → Imgd → Except Fault Imgd} {s t : State} (h : onImgd f s = .next t) :
    t = s.setImgd t.imgd := by
  obtain ⟨m', -, rfl⟩ := onImgd_next.mp h
  rfl

theorem onTxtp_frame {f : Caps → Txtp → Except Fault Txtp} {s t : State} (h : onTxtp f s = .next t) :
    t = s.setTxtp t.txtp := by
  obtain ⟨x', -, rfl⟩ := onTxtp_next.mp h
  rfl

/-- Settles O51: every instruction of an engine, and its step, is the lifting of an operation on that engine's
own state. -/
theorem enginesShareNoState : Obligations.EnginesShareNoState := by
  refine ⟨fun i s t h => ⟨fun hown => ?_, fun hown => ?_, fun hown => ?_⟩,
    fun s t => ⟨fun h => ?_, fun h => ?_, fun h => ?_⟩⟩
  · exact onHsqd_frame (exec_hsqd hown ▸ h)
  · exact onImgd_frame (exec_imgd hown ▸ h)
  · exact onTxtp_frame (exec_txtp hown ▸ h)
  · exact onHsqd_frame (engineStep_hsqd_eq s ▸ h)
  · exact onImgd_frame (engineStep_imgd_eq s ▸ h)
  · exact onTxtp_frame (engineStep_txtp_eq s ▸ h)

end Sys2Proof.Machine
end

section
/-! PROOFS. What the stores of each engine hold, read in a phase, and how a unit that is over joins them (R46 to
R50, R56, R57, R212, R283). The numbers that are over are those below a counter, so the next one is above every
one of them. -/

namespace Sys2Proof.Machine

/-! ## Numbering -/

/-- The next number joins the numbers below it. -/
theorem perm_range_succ {l : List Nat} {n : Nat} (h : l.Perm (List.range n)) :
    (l ++ [n]).Perm (List.range (n + 1)) := by
  rw [List.range_succ]
  exact h.append_right [n]

theorem lt_of_mem_perm_range {l : List Nat} {n a : Nat} (h : l.Perm (List.range n)) (ha : a ∈ l) : a < n :=
  List.mem_range.mp (h.mem_iff.mp ha)

/-- A number above all of them keeps a list in increasing order. -/
theorem pairwise_lt_append {l : List Nat} {n : Nat} (h : l.Pairwise (· < ·)) (hlt : ∀ a ∈ l, a < n) :
    (l ++ [n]).Pairwise (· < ·) :=
  List.pairwise_append.mpr ⟨h, List.pairwise_singleton _ _, by simpa using hlt⟩

/-- A log stays in order under an entry that comes after each one in it. -/
theorem logOrdered_append {l : List LogEntry} {e : LogEntry} (h : logOrdered l)
    (hnew : ∀ a ∈ l, (a.unit = .part → e.unit = .part) ∧ (a.unit = e.unit → a.id < e.id)) :
    logOrdered (l ++ [e]) :=
  List.pairwise_append.mpr ⟨h, List.pairwise_singleton _ _, by simpa using hnew⟩

/-! ## The stores of IMGD -/

/-- The records stored and the pixels being decoded are as R46 and R47 describe them. -/
def Imgd.RecordsStored (m : Imgd) : Prop :=
  (∀ sp ∈ m.subpals, subPaletteStored sp) ∧ (∀ p ∈ m.imgparts, p.stored) ∧
    ∀ v ∈ m.pixels, pixelStored v = true

/-- The stores and the log are in increasing number (R46, R47, R48, R230). -/
def Imgd.Ordered (m : Imgd) : Prop :=
  (m.subpals.map SubPalette.ord).Pairwise (· < ·) ∧ (m.imgparts.map ImagePart.index).Pairwise (· < ·) ∧
    (m.unkparts.map UnknownPart.index).Pairwise (· < ·) ∧ logOrdered m.skiplog ∧
    ∀ e ∈ m.skiplog, e.unit ≠ .sentence

/-- Which numbers are over in each phase. -/
def Imgd.CountedIn (m : Imgd) : ImgdPhase → Prop
  | .pointer => m.subpals = [] ∧ m.skiplog = [] ∧ m.partIds = []
  | .palette =>
    (m.subpals.map SubPalette.ord ++ m.skiplog.map LogEntry.id).Perm (List.range m.k) ∧ m.partIds = []
  | .offsets => m.partIds = []
  | _ => m.partIds.Perm (List.range m.i)

/-- What the stores of IMGD hold when it stands in a phase. -/
def Imgd.StoresIn (m : Imgd) (p : ImgdPhase) : Prop := m.RecordsStored ∧ m.Ordered ∧ m.CountedIn p

/-- What the stores of IMGD hold. -/
def Imgd.StoresKept (m : Imgd) : Prop := m.StoresIn m.phase

theorem Imgd.numbered_iff (m : Imgd) : m.numbered ↔ m.Ordered ∧ m.CountedIn m.phase := by
  cases hp : m.phase <;>
    simp [Imgd.numbered, Imgd.Ordered, Imgd.CountedIn, hp, ImgdPhase.inPart, and_assoc]

/-- With no part over, every log entry is of the palette. -/
theorem Imgd.unit_of_no_part {m : Imgd} (hord : m.Ordered) (hids : m.partIds = []) {e : LogEntry}
    (he : e ∈ m.skiplog) : e.unit = .subPalette := by
  obtain ⟨-, -, -, -, hkinds⟩ := hord
  have hnone : e ∉ m.skiplog.filter fun e => e.unit = .part := by
    simp only [Imgd.partIds, List.append_eq_nil_iff, List.map_eq_nil_iff] at hids
    rw [hids.2]
    exact List.not_mem_nil
  have hpart : e.unit ≠ .part := fun hunit => hnone (List.mem_filter.mpr ⟨he, decide_eq_true hunit⟩)
  cases hunit : e.unit with
  | subPalette => rfl
  | part => exact absurd hunit hpart
  | sentence => exact absurd hunit (hkinds e he)

/-- A record of the palette that is skipped (R204, R206) joins the log. -/
theorem Imgd.StoresIn.logRecord {m : Imgd} (h : m.StoresIn .palette) (cause : UnitCause) (addr : Nat) :
    ({ m with skiplog := m.skiplog ++ [⟨.subPalette, m.k, cause, addr⟩], k := m.k + 1 } : Imgd).StoresIn
      .palette := by
  obtain ⟨hrec, hord, hperm, hids⟩ := h
  have ⟨hsub, himg, hunk, hlog, hkinds⟩ := hord
  have hnew : ∀ a ∈ m.skiplog, (a.unit = .part → UnitKind.subPalette = .part) ∧
      (a.unit = .subPalette → a.id < m.k) := fun a ha =>
    ⟨fun hpart => (Imgd.unit_of_no_part hord hids ha).symm.trans hpart,
      fun _ => lt_of_mem_perm_range hperm (List.mem_append_right _ (List.mem_map_of_mem ha))⟩
  refine ⟨hrec, ⟨hsub, himg, hunk, logOrdered_append hlog hnew, ?_⟩, ?_, ?_⟩
  · simpa [or_imp, forall_and] using hkinds
  · simpa using perm_range_succ hperm
  · simpa [Imgd.partIds] using hids

/-- A record of the palette that is stored (R203). -/
theorem Imgd.StoresIn.storeRecord {m : Imgd} (h : m.StoresIn .palette) {sp : SubPalette}
    (hstored : subPaletteStored sp) (hnum : sp.ord = m.k) :
    ({ m with subpals := m.subpals ++ [sp], k := m.k + 1 } : Imgd).StoresIn .palette := by
  obtain ⟨⟨hsubs, hrec⟩, ⟨hsub, hord⟩, hperm, hids⟩ := h
  have hlt : ∀ a ∈ m.subpals.map SubPalette.ord, a < m.k := fun a ha =>
    lt_of_mem_perm_range hperm (List.mem_append_left _ ha)
  have hswap : ((m.subpals ++ [sp]).map SubPalette.ord ++ m.skiplog.map LogEntry.id).Perm
      ((m.subpals.map SubPalette.ord ++ m.skiplog.map LogEntry.id) ++ [m.k]) := by
    rw [List.map_append, List.map_singleton, hnum, List.append_assoc, List.append_assoc]
    exact List.perm_append_comm.append_left _
  refine ⟨⟨?_, hrec⟩, ⟨?_, hord⟩, hswap.trans (perm_range_succ hperm), hids⟩
  · exact List.forall_mem_append.mpr ⟨hsubs, by simpa using hstored⟩
  · rw [List.map_append, List.map_singleton, hnum]
    exact pairwise_lt_append hsub hlt

/-- A part that is skipped joins the log, and the next one is due (R211). -/
theorem Imgd.StoresIn.logPart {m : Imgd} (h : m.StoresIn .frame) (cause : UnitCause) (addr : Nat) :
    ({ m with skiplog := m.skiplog ++ [⟨.part, m.i, cause, addr⟩], i := m.i + 1 } : Imgd).StoresIn .frame := by
  obtain ⟨hrec, ⟨hsub, himg, hunk, hlog, hkinds⟩, hperm⟩ := h
  have hnew : ∀ a ∈ m.skiplog, (a.unit = .part → UnitKind.part = .part) ∧ (a.unit = .part → a.id < m.i) :=
    fun a ha => ⟨fun _ => rfl, fun hpart => lt_of_mem_perm_range hperm <| List.mem_append_right _ <|
      List.mem_map_of_mem (List.mem_filter.mpr ⟨ha, decide_eq_true hpart⟩)⟩
  refine ⟨hrec, ⟨hsub, himg, hunk, logOrdered_append hlog hnew, ?_⟩, ?_⟩
  · simpa [or_imp, forall_and] using hkinds
  · simpa [Imgd.CountedIn, Imgd.partIds] using perm_range_succ hperm

/-- An image part that is stored (R215). -/
theorem Imgd.StoresIn.storePart {m : Imgd} (h : m.StoresIn .frame) {p : ImagePart} (hstored : p.stored)
    (hnum : p.index = m.i) :
    ({ m with imgparts := m.imgparts ++ [p], i := m.i + 1 } : Imgd).StoresIn .frame := by
  obtain ⟨⟨hsubs, hparts, hpix⟩, ⟨hsub, himg, hord⟩, hperm⟩ := h
  have hlt : ∀ a ∈ m.imgparts.map ImagePart.index, a < m.i := fun a ha =>
    lt_of_mem_perm_range hperm (List.mem_append_left _ (List.mem_append_left _ ha))
  refine ⟨⟨hsubs, ?_, hpix⟩, ⟨hsub, ?_, hord⟩, List.Perm.trans ?_ (perm_range_succ hperm)⟩
  · exact List.forall_mem_append.mpr ⟨hparts, by simpa using hstored⟩
  · rw [List.map_append, List.map_singleton, hnum]
    exact pairwise_lt_append himg hlt
  · simp only [Imgd.partIds, List.map_append, List.map_singleton, hnum, List.append_assoc]
    refine List.Perm.append_left _ ?_
    rw [← List.append_assoc _ _ [m.i]]
    exact List.perm_append_comm

/-- An unknown part that is stored (R214). -/
theorem Imgd.StoresIn.storeUnknown {m : Imgd} (h : m.StoresIn .frame) {p : UnknownPart} (hnum : p.index = m.i) :
    ({ m with unkparts := m.unkparts ++ [p], i := m.i + 1 } : Imgd).StoresIn .frame := by
  obtain ⟨hrec, ⟨hsub, himg, hunk, hord⟩, hperm⟩ := h
  have hlt : ∀ a ∈ m.unkparts.map UnknownPart.index, a < m.i := fun a ha =>
    lt_of_mem_perm_range hperm (List.mem_append_left _ (List.mem_append_right _ ha))
  refine ⟨hrec, ⟨hsub, himg, ?_, hord⟩, List.Perm.trans ?_ (perm_range_succ hperm)⟩
  · rw [List.map_append, List.map_singleton, hnum]
    exact pairwise_lt_append hunk hlt
  · simp only [Imgd.partIds, List.map_append, List.map_singleton, hnum, List.append_assoc]
    exact (List.perm_append_comm.append_left _).append_left _

/-! ## The stores of TXTP -/

/-- The stores and the log are in increasing number (R56, R57). -/
def Txtp.Ordered (x : Txtp) : Prop :=
  (x.sentences.map Sentence.index).Pairwise (· < ·) ∧ logOrdered x.skiplog ∧
    ∀ e ∈ x.skiplog, e.unit = .sentence

/-- Which sentences are over in each phase (R283). -/
def Txtp.CountedIn (x : Txtp) : TxtpPhase → Prop
  | .index => x.sentences = [] ∧ x.skiplog = []
  | _ => (x.sentences.map Sentence.index ++ x.skiplog.map LogEntry.id).Perm (List.range x.i)

/-- What the stores of TXTP hold when it stands in a phase. -/
def Txtp.StoresIn (x : Txtp) (p : TxtpPhase) : Prop :=
  (∀ r ∈ x.sentences, r.stored) ∧ x.Ordered ∧ x.CountedIn p

/-- What the stores of TXTP hold. -/
def Txtp.StoresKept (x : Txtp) : Prop := x.StoresIn x.phase

theorem Txtp.numbered_iff (x : Txtp) : x.numbered ↔ x.Ordered ∧ x.CountedIn x.phase := by
  cases hp : x.phase <;> simp [Txtp.numbered, Txtp.Ordered, Txtp.CountedIn, hp, and_assoc]

/-- A sentence that is skipped joins the log (R264). -/
theorem Txtp.StoresIn.logSentence {x : Txtp} (h : x.StoresIn .frame) (cause : UnitCause) (addr : Nat) :
    ({ x with skiplog := x.skiplog ++ [⟨.sentence, x.i, cause, addr⟩], i := x.i + 1 } : Txtp).StoresIn
      .frame := by
  obtain ⟨hrec, ⟨hsent, hlog, hkinds⟩, hperm⟩ := h
  have hnew : ∀ a ∈ x.skiplog, (a.unit = .part → UnitKind.sentence = .part) ∧
      (a.unit = .sentence → a.id < x.i) := fun a ha =>
    ⟨fun hpart => (hkinds a ha).symm.trans hpart,
      fun _ => lt_of_mem_perm_range hperm (List.mem_append_right _ (List.mem_map_of_mem ha))⟩
  refine ⟨hrec, ⟨hsent, logOrdered_append hlog hnew, ?_⟩, ?_⟩
  · exact List.forall_mem_append.mpr ⟨hkinds, by simp⟩
  · simpa [Txtp.CountedIn] using perm_range_succ hperm

/-- A sentence that is stored (R282). -/
theorem Txtp.StoresIn.storeSentence {x : Txtp} (h : x.StoresIn .frame) {r : Sentence} (hstored : r.stored)
    (hnum : r.index = x.i) :
    ({ x with sentences := x.sentences ++ [r], i := x.i + 1 } : Txtp).StoresIn .frame := by
  obtain ⟨hrec, ⟨hsent, hord⟩, hperm⟩ := h
  have hlt : ∀ a ∈ x.sentences.map Sentence.index, a < x.i := fun a ha =>
    lt_of_mem_perm_range hperm (List.mem_append_left _ ha)
  refine ⟨?_, ⟨?_, hord⟩, List.Perm.trans ?_ (perm_range_succ hperm)⟩
  · exact List.forall_mem_append.mpr ⟨hrec, by simpa using hstored⟩
  · rw [List.map_append, List.map_singleton, hnum]
    exact pairwise_lt_append hsent hlt
  · rw [List.map_append, List.map_singleton, hnum, List.append_assoc, List.append_assoc]
    exact List.perm_append_comm.append_left _

/-! ## The stores of the machine -/

theorem State.storesInv_iff (s : State) : s.StoresInv ↔ s.imgd.StoresKept ∧ s.txtp.StoresKept := by
  simp only [State.StoresInv, Imgd.numbered_iff, Txtp.numbered_iff, Imgd.StoresKept, Imgd.StoresIn,
    Imgd.RecordsStored, Txtp.StoresKept, Txtp.StoresIn]
  tauto

/-- An IMGD with empty stores that stands before its run. -/
theorem Imgd.storesKept_of_empty {m : Imgd} (hp : m.phase = .pointer) (hsub : m.subpals = [])
    (himg : m.imgparts = []) (hunk : m.unkparts = []) (hlog : m.skiplog = []) (hpix : m.pixels = []) :
    m.StoresKept := by
  simp [Imgd.StoresKept, Imgd.StoresIn, Imgd.RecordsStored, Imgd.Ordered, Imgd.CountedIn, Imgd.partIds, *]

/-- A TXTP with empty stores that stands before its run. -/
theorem Txtp.storesKept_of_empty {x : Txtp} (hp : x.phase = .index) (hsent : x.sentences = [])
    (hlog : x.skiplog = []) : x.StoresKept := by
  simp [Txtp.StoresKept, Txtp.StoresIn, Txtp.Ordered, Txtp.CountedIn, *]

theorem reset_storesKept : Imgd.reset.StoresKept ∧ Txtp.reset.StoresKept :=
  ⟨Imgd.storesKept_of_empty rfl rfl rfl rfl rfl rfl, Txtp.storesKept_of_empty rfl rfl rfl⟩

theorem launchedImgd_storesKept (caps : Caps) (bytes : List Byte) (bound : Bool) :
    (launchedImgd caps bytes bound).StoresKept := by
  unfold launchedImgd
  dsimp only
  split <;> exact Imgd.storesKept_of_empty rfl rfl rfl rfl rfl rfl

theorem launchedTxtp_storesKept (caps : Caps) (bytes : List Byte) (bound : Bool) (charset : Charset)
    (itab : List TextInstruction) : (launchedTxtp caps bytes bound charset itab).StoresKept := by
  unfold launchedTxtp
  dsimp only
  split <;> exact Txtp.storesKept_of_empty rfl rfl rfl

/-- Settles O46: RESET answers the reset state, under the host's own capacities and moves. -/
theorem resetRestoresState : Obligations.ResetRestoresState := by
  refine ⟨fun s => ⟨_, rfl, rfl, rfl, rfl, rfl, rfl, rfl⟩, fun e => by cases e <;> rfl, ?_⟩
  and_intros <;> rfl

/-- Settles O57: every buffer and every store is empty, and no engine runs. -/
theorem resetIsWellKept : Obligations.ResetIsWellKept := by
  obtain ⟨hh, hm, hx⟩ := reset_inv State.reset.caps
  have hone : State.reset.oneActive := by decide
  exact ⟨⟨hh, hm, hx, hone⟩, (State.storesInv_iff _).mpr reset_storesKept⟩

end Sys2Proof.Machine
end

section
/-! PROOFS. Every step keeps what the stores hold (O60): an engine's step leaves its stores and its counter as they
are, or one unit is over and joins a store or the log under the counter's number. -/

namespace Sys2Proof.Machine

/-- Every state an operation goes on to has the property `P`. -/
def Answers {σ : Type} (P : σ → Prop) (r : Except Fault σ) : Prop := ∀ e, r = .ok e → P e

theorem answers_ok {σ : Type} {P : σ → Prop} {e : σ} (h : P e) : Answers P (.ok e) := by
  rintro _ ⟨⟩
  exact h

theorem answers_error {σ : Type} {P : σ → Prop} (r : Fault) : Answers P (.error r) := nofun

theorem Fetch.answers_withBytes {σ : Type} {P : σ → Prop} {op : Instr → σ → Except Fault σ}
    {w : Except Fault (List Byte)} {f : List Byte → Fetch σ} (h : ∀ bs, Answers P ((f bs).perform op)) :
    Answers P ((Fetch.withBytes w f).perform op) := by
  cases w with
  | ok bs => exact h bs
  | error r => exact answers_error r

/-! ## IMGD -/

theorem Imgd.StoresKept.of_phase {m : Imgd} (hk : m.StoresKept) {p : ImgdPhase} (hp : m.phase = p) :
    m.StoresIn p :=
  hp ▸ hk

/-- A unit error in a part: the part is logged, or the log is full. -/
theorem Imgd.StoresKept.partError {m : Imgd} (hk : m.StoresKept) (hin : m.StoresIn .frame) (caps : Caps)
    (cause : UnitCause) : (m.partError caps cause).StoresKept := by
  unfold Imgd.partError
  rcases m.unitError_cases caps _ _ _ with ⟨-, he⟩ | ⟨-, he⟩ <;> rw [he]
  · exact hk
  · obtain ⟨⟨hsubs, hparts, -⟩, hnum⟩ := hin.logPart cause m.pstart
    exact ⟨⟨hsubs, hparts, nofun⟩, hnum⟩

theorem Imgd.StoresKept.fetchPointer {caps : Caps} {m : Imgd} (hk : m.StoresKept) (hp : m.phase = .pointer) :
    Answers Imgd.StoresKept (m.fetchPointer.perform (imgdOp · caps)) := by
  obtain ⟨hrec, hord, hsub, hlog, hids⟩ := hk.of_phase hp
  refine Fetch.answers_withBytes fun bs => ?_
  split
  · rename_i i rest hdec
    obtain ⟨-, hadm, -⟩ := decode_sound hdec
    cases i <;> simp only [Ctx.admits, Bool.false_eq_true] at hadm
    case oas v =>
      change Answers _ (oasOp v caps m)
      unfold oasOp
      dsimp only
      split <;> refine answers_ok ?_
      · exact hk
      · exact ⟨hrec, hord, by simp [hsub, hlog], hids⟩
  · exact answers_ok hk

/-- A channel that is stored is a multiple of 4 (R46, R203). -/
theorem channelStored_scaleChannel (v : Byte) : channelStored (scaleChannel v) := by
  simp only [channelStored, scaleChannel, BitVec.toNat_shiftLeft, Nat.shiftLeft_eq]
  omega

/-- A record of the palette is skipped, met with a full log or a full store, or stored (R203, R204). -/
theorem Imgd.StoresKept.palrec {caps : Caps} {m : Imgd} (hk : m.StoresKept) (hp : m.phase = .palette) (loc : Byte)
    {raws : List Color} (hlen : raws.length ≤ 255) : Answers Imgd.StoresKept (palrecOp loc raws caps m) := by
  have hin := hk.of_phase hp
  have hstored : subPaletteStored ⟨m.k, loc, raws.map scaleColor⟩ := by
    refine ⟨(List.length_map _).trans_le hlen, fun c hc => ?_⟩
    obtain ⟨raw, -, rfl⟩ := List.mem_map.mp hc
    exact ⟨channelStored_scaleChannel _, channelStored_scaleChannel _, channelStored_scaleChannel _⟩
  unfold palrecOp
  dsimp only
  split
  · refine answers_ok ?_
    rcases Imgd.unitError_cases caps _ _ _ _ with ⟨-, he⟩ | ⟨-, he⟩ <;> rw [he]
    · exact hk
    · have hlog := hin.logRecord .channelRange m.pcur
      rw [← hp] at hlog
      exact hlog
  · split <;> refine answers_ok ?_
    · exact hk
    · have hstore := hin.storeRecord hstored rfl
      rw [← hp] at hstore
      exact hstore

theorem Imgd.StoresKept.fetchPalette {caps : Caps} {m : Imgd} (hk : m.StoresKept) (hp : m.phase = .palette) :
    Answers Imgd.StoresKept ((m.fetchPalette caps).perform (imgdOp · caps)) := by
  have hin := hk.of_phase hp
  have ⟨hrec, hord, _, hids⟩ := hin
  refine Fetch.answers_withBytes fun bs => ?_
  split
  · rename_i i rest hdec
    obtain ⟨hwf, hadm, -⟩ := decode_sound hdec
    cases i <;> simp only [Ctx.admits, Bool.false_eq_true] at hadm
    case palterm => exact answers_ok ⟨hrec, hord, hids⟩
    case palrec loc raws =>
      simp only [Instr.wf, Bool.and_eq_true, decide_eq_true_eq] at hwf
      exact hk.palrec hp loc hwf.1
  · refine answers_ok ?_
    unfold Imgd.palOverrun
    rcases Imgd.unitError_cases caps _ _ _ _ with ⟨-, he⟩ | ⟨-, he⟩ <;> rw [he]
    · exact hk
    · obtain ⟨hrec', hord', -, hids'⟩ := hin.logRecord .paletteOverrun m.pcur
      exact ⟨hrec', hord', hids'⟩
  · exact answers_ok ⟨hrec, hord, hids⟩

theorem Imgd.StoresKept.fetchOffsets {caps : Caps} {m : Imgd} (hk : m.StoresKept) (hp : m.phase = .offsets) :
    Answers Imgd.StoresKept (m.fetchOffsets.perform (imgdOp · caps)) := by
  obtain ⟨hrec, hord, hids⟩ := hk.of_phase hp
  refine Fetch.answers_withBytes fun bs => ?_
  split
  · rename_i i rest hdec
    obtain ⟨-, hadm, -⟩ := decode_sound hdec
    cases i <;> simp only [Ctx.admits, Bool.false_eq_true] at hadm
    case offs entries =>
      change Answers _ (offsOp entries caps m)
      unfold offsOp
      dsimp only
      split <;> refine answers_ok ?_
      · exact hk
      · exact ⟨hrec, hord, List.Perm.of_eq hids⟩
  · exact answers_ok hk
  · exact answers_ok hk

theorem Imgd.StoresKept.fetchFrame {caps : Caps} {m : Imgd} (hk : m.StoresKept) (hp : m.phase = .frame) :
    Answers Imgd.StoresKept ((m.fetchFrame caps).perform (imgdOp · caps)) := by
  have hin := hk.of_phase hp
  unfold Imgd.fetchFrame
  split
  · split
    · refine answers_ok ?_
      unfold Imgd.framePart
      dsimp only
      split
      · refine Imgd.StoresKept.partError ?_ ?_ _ _
        · exact hk
        · exact hin
      · exact hin
    · exact answers_error _
    · exact answers_error _
  · exact answers_ok hk

/-- The array of a part that opens is all `None` (R217). -/
theorem Imgd.StoresKept.openPart {caps : Caps} {m : Imgd} (hk : m.StoresKept) {rows : Imgd → Imgd}
    (hrows : (rows { m with
      y := 0, x := 0, pixels := List.replicate (m.width.toNat * m.height.toNat) none }).StoresKept) :
    (m.openPart caps rows).StoresKept := by
  unfold Imgd.openPart
  split
  · exact hk
  · exact hrows

theorem Imgd.StoresIn.blankPixels {m : Imgd} {p : ImgdPhase} (h : m.StoresIn p) (n : Nat) :
    ({ m with pixels := List.replicate n none } : Imgd).StoresIn p := by
  obtain ⟨⟨hsubs, hparts, -⟩, hnum⟩ := h
  refine ⟨⟨hsubs, hparts, fun v hv => ?_⟩, hnum⟩
  rw [List.eq_of_mem_replicate hv]
  rfl

theorem Imgd.StoresKept.headerOp {caps : Caps} {m : Imgd} (hk : m.StoresKept) (hp : m.phase = .header) {i : Instr}
    (hadm : Ctx.part.admits i = true) : Answers Imgd.StoresKept (imgdOp i caps m) := by
  have hin : m.StoresIn .frame := (hk.of_phase hp :)
  cases i <;> simp only [Ctx.admits, Bool.false_eq_true] at hadm
  case partUnknown rawBytes =>
    change Answers _ (partUnknownOp rawBytes caps m)
    unfold partUnknownOp
    dsimp only
    split <;> refine answers_ok ?_
    · exact hk
    · exact hin.storeUnknown (p := ⟨m.i, rawBytes⟩) rfl
  case partRaw width height poff =>
    have hblank := Imgd.StoresIn.blankPixels (p := m.phase) hk (width.toNat * height.toNat)
    refine answers_ok (Imgd.StoresKept.openPart ?_ ?_)
    · exact hk
    · dsimp only
      split
      · refine Imgd.StoresKept.partError ?_ ?_ _ _
        · exact hblank
        · exact hin.blankPixels _
      · exact hin.blankPixels _
  case partRle width height poff =>
    refine answers_ok (Imgd.StoresKept.openPart ?_ ?_)
    · exact hk
    · exact hin.blankPixels _

theorem Imgd.StoresKept.fetchHeader {caps : Caps} {m : Imgd} (hk : m.StoresKept) (hp : m.phase = .header) :
    Answers Imgd.StoresKept ((m.fetchHeader caps).perform (imgdOp · caps)) := by
  have hin : m.StoresIn .frame := (hk.of_phase hp :)
  refine Fetch.answers_withBytes fun bs => ?_
  split
  · exact hk.headerOp hp (decode_sound ‹_›).2.1
  · refine answers_ok (Imgd.StoresKept.partError ?_ ?_ _ _)
    · exact hk
    · exact hin
  · exact answers_ok (hk.partError hin _ _)

/-- Emitting nibbles keeps the array at values the spec stores (R47, R217). -/
theorem Imgd.emitAll_pixelStored {ns : List Byte} (hns : ∀ n ∈ ns, n.toNat ≤ 15) {m : Imgd}
    (hm : ∀ v ∈ m.pixels, pixelStored v = true) : ∀ v ∈ (Imgd.emitAll ns m).pixels, pixelStored v = true := by
  induction ns generalizing m with
  | nil => exact hm
  | cons nib ns ih =>
    obtain ⟨hnib, hrest⟩ := List.forall_mem_cons.mp hns
    refine ih hrest fun v hv => ?_
    simp only [Imgd.emit] at hv
    split at hv
    · rename_i hset
      rcases List.mem_or_eq_of_mem_set hv with hv | rfl
      · exact hm v hv
      · have hpos : nib.toNat ≠ 0 := fun h0 => hset.2 (BitVec.eq_of_toNat_eq h0)
        simp only [pixelStored, Bool.and_eq_true, decide_eq_true_eq]
        omega
    · exact hm v hv

theorem Imgd.StoresKept.emitPairs {m : Imgd} (hk : m.StoresKept) (vs : List Byte) :
    (Imgd.emitPairs vs m).StoresKept := by
  obtain ⟨⟨hsubs, hparts, hpix⟩, hnum⟩ := hk
  have hemit := Imgd.emitAll_pixelStored (fun n hn => nibbles_le (vs := vs) hn) hpix
  rw [Imgd.emitPairs_eq_emitAll, Imgd.emitAll_eq]
  exact ⟨⟨hsubs, hparts, hemit⟩, hnum⟩

/-- A data item of a row emits pixels, and a cut one drops the part. -/
theorem Imgd.StoresKept.fetchData {caps : Caps} {m : Imgd} (hk : m.StoresKept) (hin : m.StoresIn .frame) {ctx : Ctx}
    (hctx : ctx = .pair ∨ ctx = .rle) :
    Answers Imgd.StoresKept ((m.fetchData caps ctx).perform (imgdOp · caps)) := by
  refine Fetch.answers_withBytes fun bs => ?_
  split
  · rename_i i rest hdec
    obtain ⟨-, hadm, -⟩ := decode_sound hdec
    rcases hctx with rfl | rfl <;> cases i <;> simp only [Ctx.admits, Bool.false_eq_true] at hadm
    case pair v =>
      exact answers_ok (Imgd.StoresKept.emitPairs (m := { m with v := v, s := m.s + 1 }) hk [v])
    case rep c v =>
      exact answers_ok (Imgd.StoresKept.emitPairs
        (m := { m with cmd := repCmd c, count := repCount c, v := v, s := m.s + 2 }) hk _)
    case litr vs =>
      exact answers_ok (Imgd.StoresKept.emitPairs
        (m := { m with
          cmd := litrCmd vs, count := vs.length, v := vs.getLastD m.v, s := m.s + 1 + vs.length }) hk vs)
  · refine answers_ok (Imgd.StoresKept.partError ?_ ?_ _ _)
    · exact hk
    · exact hin
  · exact answers_ok (hk.partError hin _ _)

/-- A part that ends is stored with its array, or its store is full (R215). -/
theorem Imgd.StoresKept.endPart {caps : Caps} {m : Imgd} (hk : m.StoresKept) (hin : m.StoresIn .frame)
    (hrows : m.InRows) : Answers Imgd.StoresKept ((m.endPart caps).perform (imgdOp · caps)) := by
  obtain ⟨-, -, -, hlen⟩ := hrows
  obtain ⟨⟨-, -, hpix⟩, -⟩ := id hin
  refine Fetch.answers_withBytes fun bs => ?_
  split <;> refine answers_ok ?_
  · exact hk
  · exact hin.storePart (p := ⟨m.i, m.comp, m.width, m.height, m.poff, bs, m.pixels⟩) ⟨hlen, hpix⟩ rfl

theorem Imgd.StoresKept.fetchRows {caps : Caps} {m : Imgd} (hk : m.StoresKept) (hi : m.Inv caps)
    (hp : m.phase = .rows) : Answers Imgd.StoresKept ((m.fetchRows caps).perform (imgdOp · caps)) := by
  have hin : m.StoresIn .frame := (hk.of_phase hp :)
  obtain ⟨-, -, hrows⟩ := (Imgd.inv_iff hp).mp hi
  unfold Imgd.fetchRows
  split
  · split
    · exact hk.fetchData hin (.inl rfl)
    · exact answers_ok hk
  · exact hk.endPart hin hrows

theorem Imgd.StoresKept.fetchRuns {caps : Caps} {m : Imgd} (hk : m.StoresKept) (hi : m.Inv caps)
    (hp : m.phase = .runs) : Answers Imgd.StoresKept ((m.fetchRuns caps).perform (imgdOp · caps)) := by
  have hin : m.StoresIn .frame := (hk.of_phase hp :)
  obtain ⟨-, -, hrows, -⟩ := (Imgd.inv_iff hp).mp hi
  unfold Imgd.fetchRuns
  split
  · split
    · exact hk.fetchData hin (.inr rfl)
    · exact answers_ok hk
  · exact hk.endPart hin hrows

/-- A step of IMGD keeps what its stores hold. -/
theorem Imgd.StoresKept.next {caps : Caps} {m : Imgd} (hk : m.StoresKept) (hi : m.Inv caps) :
    Answers Imgd.StoresKept (m.next caps) := by
  unfold Imgd.next
  split
  · cases hp : m.phase <;> simp only [fetchImgd, hp]
    case pointer => exact hk.fetchPointer hp
    case palette => exact hk.fetchPalette hp
    case offsets => exact hk.fetchOffsets hp
    case frame => exact hk.fetchFrame hp
    case header => exact hk.fetchHeader hp
    case rows => exact hk.fetchRows hi hp
    case runs => exact hk.fetchRuns hi hp
  · exact answers_ok hk

/-! ## TXTP -/

theorem Txtp.StoresKept.of_phase {x : Txtp} (hk : x.StoresKept) {p : TxtpPhase} (hp : x.phase = p) :
    x.StoresIn p :=
  hp ▸ hk

/-- A unit error in a sentence: the sentence is logged, or the log is full. -/
theorem Txtp.StoresKept.sentenceError {x : Txtp} (hk : x.StoresKept) (hin : x.StoresIn .frame) (caps : Caps)
    (cause : UnitCause) : (x.sentenceError caps cause).StoresKept := by
  unfold Txtp.sentenceError
  rcases x.unitError_cases caps _ _ _ with ⟨-, he⟩ | ⟨-, he⟩ <;> rw [he]
  · exact hk
  · exact hin.logSentence cause x.sstart

theorem Txtp.StoresKept.fetchIndex {caps : Caps} {x : Txtp} (hk : x.StoresKept) (hp : x.phase = .index) :
    Answers Txtp.StoresKept (x.fetchIndex.perform (txtpOp · caps)) := by
  obtain ⟨hrec, hord, hsent, hlog⟩ := hk.of_phase hp
  refine Fetch.answers_withBytes fun bs => ?_
  split
  · rename_i i rest hdec
    obtain ⟨-, hadm, -⟩ := decode_sound hdec
    cases i <;> simp only [Ctx.admits, Bool.false_eq_true] at hadm
    case tidx entries =>
      refine answers_ok ?_
      exact ⟨hrec, hord, by simp [Txtp.CountedIn, hsent, hlog]⟩
  · exact answers_ok hk
  · exact answers_ok hk

theorem Txtp.StoresKept.fetchFrame {caps : Caps} {x : Txtp} (hk : x.StoresKept) (hp : x.phase = .frame) :
    Answers Txtp.StoresKept ((x.fetchFrame caps).perform (txtpOp · caps)) := by
  have hin := hk.of_phase hp
  unfold Txtp.fetchFrame
  split
  · split
    · refine answers_ok ?_
      unfold Txtp.frameSentence
      dsimp only
      split
      · refine Txtp.StoresKept.sentenceError ?_ ?_ _ _
        · exact hk
        · exact hin
      · exact hin
    · exact answers_error _
    · exact answers_error _
  · exact answers_ok hk

theorem Txtp.StoresKept.putChar {x : Txtp} (hk : x.StoresKept) (ch : Char) : (x.putChar ch).StoresKept := by
  unfold Txtp.putChar
  split
  · exact hk
  · exact hk

/-- Every character instruction keeps what the stores hold. -/
theorem Txtp.StoresKept.charOp {caps : Caps} {x : Txtp} (hk : x.StoresKept) {charset : Charset} {i : Instr}
    (hadm : (Ctx.char charset).admits i = true) : Answers Txtp.StoresKept (txtpOp i caps x) := by
  obtain ⟨ch, hch⟩ := txtpOp_char hadm caps x
  rw [hch]
  exact answers_ok (hk.putChar ch)

theorem Txtp.StoresKept.fetchRaw {caps : Caps} {x : Txtp} (hk : x.StoresKept) (hp : x.phase = .raw) :
    Answers Txtp.StoresKept ((x.fetchRaw caps).perform (txtpOp · caps)) := by
  have hin := hk.of_phase hp
  unfold Txtp.fetchRaw
  split <;> refine Fetch.answers_withBytes fun bs => ?_
  · split
    · exact hk.charOp (decode_sound ‹_›).2.1
    · exact answers_error _
  · refine answers_ok ?_
    unfold Txtp.startExpansion
    split
    · exact hk
    · exact hin

theorem Txtp.StoresKept.fetchScan {caps : Caps} {x : Txtp} (hk : x.StoresKept) (hp : x.phase = .scan) :
    Answers Txtp.StoresKept (x.fetchScan.perform (txtpOp · caps)) := by
  have hin := hk.of_phase hp
  unfold Txtp.fetchScan
  split
  · exact answers_ok hin
  · split
    · exact answers_ok hk
    · split
      · rename_i i rest hdec
        obtain ⟨-, hadm, -⟩ := decodeItems_sound hdec
        cases i <;> simp only [ItemCtx.admits, Bool.false_eq_true] at hadm
        case tinstr t =>
          change Answers _ (tinstrOp t caps x)
          unfold tinstrOp
          split <;> exact answers_ok hin
      · exact answers_ok hk

theorem Txtp.StoresKept.fetchParams {caps : Caps} {x : Txtp} (hk : x.StoresKept) (hp : x.phase = .params) :
    Answers Txtp.StoresKept ((x.fetchParams caps).perform (txtpOp · caps)) := by
  have hin := hk.of_phase hp
  unfold Txtp.fetchParams
  split
  · exact answers_error _
  · split
    · refine answers_ok ?_
      unfold Txtp.closeExpansion
      dsimp only
      split
      · exact hk
      · exact hin
    · split
      · rename_i i rest hdec
        obtain ⟨-, hadm, -⟩ := decodeItems_sound hdec
        cases i <;> simp only [ItemCtx.admits, Bool.false_eq_true] at hadm <;> exact answers_ok hk
      · exact answers_ok (hk.sentenceError hin _ _)

/-- A sentence that ends is stored with its texts, or the store is full (R267, R282). -/
theorem Txtp.StoresKept.storeSentence {caps : Caps} {x : Txtp} (hk : x.StoresKept) (hin : x.StoresIn .frame)
    (hseq : x.InSequence) : (x.storeSentence caps).StoresKept := by
  obtain ⟨⟨-, -, hlo, -, -, hraw⟩, hend⟩ := hseq
  rw [hend] at hlo hraw
  unfold Txtp.storeSentence
  dsimp only
  split
  · exact hk
  · exact hin.storeSentence (r := ⟨x.i, x.sstart, x.send, x.rawText, x.outText⟩) ⟨hlo, hraw⟩ rfl

theorem Txtp.StoresKept.fetchFinal {caps : Caps} {x : Txtp} (hk : x.StoresKept) (hi : x.Inv caps)
    (hp : x.phase = .final) : Answers Txtp.StoresKept ((x.fetchFinal caps).perform (txtpOp · caps)) := by
  obtain ⟨-, hseq⟩ := (Txtp.inv_iff hp).mp hi
  unfold Txtp.fetchFinal
  split
  · exact answers_ok (hk.storeSentence (hk.of_phase hp :) hseq)
  · exact answers_ok hk
  · exact hk.charOp (decodeChar_sound x.charset _).2.1

/-- A step of TXTP keeps what its stores hold. -/
theorem Txtp.StoresKept.next {caps : Caps} {x : Txtp} (hk : x.StoresKept) (hi : x.Inv caps) :
    Answers Txtp.StoresKept (x.next caps) := by
  unfold Txtp.next
  split
  · cases hp : x.phase <;> simp only [fetchTxtp, hp]
    case index => exact hk.fetchIndex hp
    case frame => exact hk.fetchFrame hp
    case raw => exact hk.fetchRaw hp
    case scan => exact hk.fetchScan hp
    case params => exact hk.fetchParams hp
    case final => exact hk.fetchFinal hi hp
  · exact answers_ok hk

/-! ## The machine -/

/-- What the stores of a machine hold, by its two interpreters. -/
theorem State.StoresInv.engineStep {s t : State} (hk : s.StoresInv) (hi : s.Inv) {e : Engine}
    (h : engineStep e s = .next t) : t.StoresInv := by
  obtain ⟨hm, hx⟩ := s.storesInv_iff.mp hk
  obtain ⟨-, hmi, hxi, -⟩ := hi
  rw [State.storesInv_iff]
  cases e with
  | hsqd =>
    rw [engineStep_hsqd_eq] at h
    obtain ⟨h', -, rfl⟩ := onHsqd_next.mp h
    exact ⟨hm, hx⟩
  | imgd =>
    rw [engineStep_imgd_eq] at h
    obtain ⟨m', hm', rfl⟩ := onImgd_next.mp h
    exact ⟨hm.next hmi m' hm', hx⟩
  | txtp =>
    rw [engineStep_txtp_eq] at h
    obtain ⟨x', hx', rfl⟩ := onTxtp_next.mp h
    exact ⟨hm, hx.next hxi x' hx'⟩

/-- A launch on a payload that goes on has read its bytes. -/
theorem withPayload_next {p : Payload} {s t : State} {f : List Byte → Bool → State}
    (h : withPayload p s f = .next t) : ∃ bs bound, t = f bs bound := by
  cases p with
  | bytes bs => cases h; exact ⟨bs, false, rfl⟩
  | obuf =>
    simp only [withPayload] at h
    split at h
    · split at h <;> cases h
      exact ⟨_, true, rfl⟩
    · cases h

theorem State.StoresInv.launch {s t : State} (hk : s.StoresInv) {req : LaunchReq}
    (h : execLaunch req s = .next t) : t.StoresInv := by
  obtain ⟨hm, hx⟩ := s.storesInv_iff.mp hk
  replace h := (execLaunch_of_idle (idle_of_execLaunch_next h)).symm.trans h
  rw [State.storesInv_iff]
  cases req with
  | hsqd bytes verify =>
    cases h
    exact ⟨hm, hx⟩
  | imgd p =>
    obtain ⟨bs, bound, rfl⟩ := withPayload_next h
    exact ⟨launchedImgd_storesKept _ _ _, hx⟩
  | txtp p charset itab =>
    obtain ⟨bs, bound, rfl⟩ := withPayload_next h
    exact ⟨hm, launchedTxtp_storesKept _ _ _ _ _⟩

theorem State.StoresInv.hostStep {s t : State} (hk : s.StoresInv) (hi : s.Inv) {mv : HostMove}
    (h : hostStep mv s = .next t) : t.StoresInv := by
  cases mv with
  | reset =>
    cases h
    exact (State.storesInv_iff _).mpr reset_storesKept
  | launch req => exact hk.launch h
  | compose j dflt =>
    simp only [Machine.hostStep] at h
    split at h <;> cases h
    exact hk
  | run e => exact hk.engineStep hi h

/-- Settles O60: the engines' steps keep what their stores hold, a launch and RESET empty the stores, and the other
moves leave them. -/
theorem stepKeepsStores : Obligations.StepKeepsStores := by
  intro s t hi hk hstep
  unfold step at hstep
  split at hstep
  · rename_i mv q _
    exact State.StoresInv.hostStep (s := s.setHostq q) hk hi hstep
  · unfold freeStep at hstep
    split at hstep
    · exact hk.engineStep hi hstep
    · cases hstep
      exact hk

end Sys2Proof.Machine
end

section
/-! PROOFS. The steps of an engine read its inputs and only append: to `OBUF`, to the result stores and to the skip
logs (O52, O53; R71, R72, R74). One relation per engine, from a state to a later one, says both. Every operation
keeps it from any earlier state, whatever the machine holds, so no invariant is needed. -/

namespace Sys2Proof.Machine

/-! ## What a step fetches and performs -/

/-- The state an engine goes on from has the property `P`. -/
def Fetch.All {σ : Type} (P : σ → Prop) : Fetch σ → Prop
  | .instr _ e => P e
  | .control e => P e
  | .fault _ => True

theorem Fetch.all_withBytes {σ : Type} {P : σ → Prop} {w : Except Fault (List Byte)} {f : List Byte → Fetch σ}
    (h : ∀ bs, (f bs).All P) : (Fetch.withBytes w f).All P := by
  cases w with
  | ok bs => exact h bs
  | error r => trivial

/-- A property of what is fetched that every instruction keeps holds after the step. -/
theorem Fetch.All.perform {σ : Type} {P : σ → Prop} {op : Instr → σ → Except Fault σ} {f : Fetch σ}
    (hf : f.All P) (hop : ∀ i e, P e → Answers P (op i e)) : Answers P (f.perform op) := by
  cases f with
  | instr i e => exact hop i e hf
  | control e => exact answers_ok hf
  | fault r => exact answers_error r

/-! ## HSQD -/

/-- `h'` has the inputs of `h`, and every byte of its output. -/
def Hsqd.Extends (h h' : Hsqd) : Prop :=
  (h'.ibuf = h.ibuf ∧ h'.inLen = h.inLen ∧ h'.verify = h.verify) ∧
  h.olen ≤ h'.olen ∧ ∀ a < h.olen, h'.obuf.read a = h.obuf.read a

theorem Hsqd.Extends.refl (h : Hsqd) : h.Extends h := ⟨⟨rfl, rfl, rfl⟩, le_rfl, fun _ _ => rfl⟩

/-- The write of R72 is at `olen`, above every byte that is there. -/
theorem Hsqd.Extends.push {h₀ h : Hsqd} {b : Byte} (hx : h₀.Extends h) : h₀.Extends (h.push b) := by
  obtain ⟨hin, hlen, hread⟩ := hx
  refine ⟨hin, hlen.trans (Nat.le_succ _), fun a ha => ?_⟩
  rw [Hsqd.push_obuf, Memory.read_write_ne _ _ (ha.trans_le hlen).ne, hread a ha]

theorem Hsqd.Extends.append {h₀ h : Hsqd} {caps : Caps} {b : Byte} (hx : h₀.Extends h) :
    h₀.Extends (h.append caps b) := by
  rcases h.append_cases caps b with ⟨-, he⟩ | ⟨-, he⟩ <;> rw [he]
  · exact hx
  · exact hx.push

theorem Hsqd.Extends.backCopy {h₀ h : Hsqd} {caps : Caps} {dist : Int} {len : Nat} (hx : h₀.Extends h) :
    Answers h₀.Extends (Hsqd.backCopy caps dist len h) := by
  induction len generalizing h with
  | zero => exact answers_ok hx
  | succ len ih =>
    unfold Hsqd.backCopy
    dsimp only
    split
    · exact answers_ok hx
    · split
      · exact answers_error _
      · split
        · exact answers_ok hx
        · exact ih hx.push

/-- Every instruction of HSQD keeps the inputs and the bytes that are there. -/
theorem Hsqd.Extends.op {h₀ h : Hsqd} {caps : Caps} {i : Instr} (hx : h₀.Extends h) :
    Answers h₀.Extends (hsqdOp i caps h) := by
  cases i
  case hdr h0 h1 h2 h3 h4 h5 =>
    simp only [hsqdOp, hdrOp]
    split <;> exact answers_ok hx
  case lit b => exact answers_ok (Hsqd.Extends.append hx)
  case m0 b1 b2 d => exact Hsqd.Extends.backCopy hx
  case m1 raw => exact Hsqd.Extends.backCopy hx
  case m1x raw e => exact Hsqd.Extends.backCopy hx
  all_goals exact answers_ok hx

theorem Hsqd.Extends.begun {h₀ h : Hsqd} {ctx : Ctx} {bs : List Byte} (hx : h₀.Extends h) :
    h₀.Extends (h.begun ctx bs) := by
  rw [begun_eq]
  exact hx

theorem Hsqd.Extends.fetchIn {h₀ h : Hsqd} {ctx : Ctx} (hx : h₀.Extends h) : (h.fetchIn ctx).All h₀.Extends := by
  refine Fetch.all_withBytes fun bs => ?_
  split
  · exact hx
  · exact hx.begun
  · exact hx

theorem Hsqd.Extends.fetchCode {h₀ h : Hsqd} {p : List Bool} (hx : h₀.Extends h) :
    (h.fetchCode p).All h₀.Extends := by
  unfold Hsqd.fetchCode
  dsimp only
  split <;> exact Hsqd.Extends.fetchIn hx

theorem Hsqd.Extends.fetch {h₀ h : Hsqd} (hx : h₀.Extends h) : (fetchHsqd h).All h₀.Extends := by
  unfold fetchHsqd
  split
  · exact hx.fetchIn
  · split
    · exact hx.fetchCode
    · split
      · exact hx
      · exact hx.fetchCode

/-- A step of HSQD keeps its inputs and only appends to `OBUF`. -/
theorem Hsqd.next_extends (caps : Caps) (h : Hsqd) : Answers h.Extends (h.next caps) := by
  unfold Hsqd.next
  split
  · exact (Hsqd.Extends.refl h).fetch.perform fun _ _ hx => hx.op
  · exact answers_ok (.refl h)

/-! ## IMGD -/

/-- `m'` has the inputs of `m`, and every entry of its stores and its log. -/
def Imgd.Extends (m m' : Imgd) : Prop :=
  (m'.pbuf = m.pbuf ∧ m'.plen = m.plen) ∧
  m.subpals <+: m'.subpals ∧ m.imgparts <+: m'.imgparts ∧ m.unkparts <+: m'.unkparts ∧ m.skiplog <+: m'.skiplog

theorem Imgd.Extends.refl (m : Imgd) : m.Extends m := by simp [Imgd.Extends]

/-- A unit error appends one entry to the log, or raises the fault of a full one (R321, R322). -/
theorem Imgd.Extends.unitError {m₀ m : Imgd} {caps : Caps} {e : LogEntry} {cur : Nat} {next : Imgd → Imgd}
    (hx : m₀.Extends m) (hnext : ∀ u, m₀.Extends u → m₀.Extends (next u)) :
    m₀.Extends (m.unitError caps e cur next) := by
  rcases m.unitError_cases caps e cur next with ⟨-, he⟩ | ⟨-, he⟩ <;> rw [he]
  · exact hx
  · obtain ⟨hin, hsub, himg, hunk, hlog⟩ := hx
    exact hnext _ ⟨hin, hsub, himg, hunk, hlog.trans ⟨_, rfl⟩⟩

theorem Imgd.Extends.partError {m₀ m : Imgd} {caps : Caps} {cause : UnitCause} (hx : m₀.Extends m) :
    m₀.Extends (m.partError caps cause) :=
  hx.unitError fun _ hu => hu

theorem Imgd.Extends.palrec {m₀ m : Imgd} {caps : Caps} {loc : Byte} {raws : List Color} (hx : m₀.Extends m) :
    Answers m₀.Extends (palrecOp loc raws caps m) := by
  unfold palrecOp
  dsimp only
  split
  · exact answers_ok (Imgd.Extends.unitError hx fun _ hu => hu)
  · split <;> refine answers_ok ?_
    · exact hx
    · obtain ⟨hin, hsub, hrest⟩ := hx
      exact ⟨hin, hsub.trans ⟨_, rfl⟩, hrest⟩

theorem Imgd.Extends.partUnknown {m₀ m : Imgd} {caps : Caps} {rawBytes : List Byte} (hx : m₀.Extends m) :
    Answers m₀.Extends (partUnknownOp rawBytes caps m) := by
  unfold partUnknownOp
  dsimp only
  split <;> refine answers_ok ?_
  · exact hx
  · obtain ⟨hin, hsub, himg, hunk, hlog⟩ := hx
    exact ⟨hin, hsub, himg, hunk.trans ⟨_, rfl⟩, hlog⟩

theorem Imgd.Extends.openPart {m₀ m : Imgd} {caps : Caps} {rows : Imgd → Imgd} (hx : m₀.Extends m)
    (hrows : ∀ u, m₀.Extends u → m₀.Extends (rows u)) : m₀.Extends (m.openPart caps rows) := by
  unfold Imgd.openPart
  split
  · exact hx
  · exact hrows _ hx

/-- The bytes of a run write the pixel array and the row's counters alone (R217, R223). -/
theorem Imgd.Extends.run {m₀ m : Imgd} {vs : List Byte} {count : Nat} (hx : m₀.Extends m) :
    m₀.Extends ((Imgd.emitPairs vs m).afterRun count) := by
  rw [Imgd.emitPairs_eq]
  exact hx

/-- Every instruction of IMGD keeps the inputs, the stores' entries and the log's. -/
theorem Imgd.Extends.op {m₀ m : Imgd} {caps : Caps} {i : Instr} (hx : m₀.Extends m) :
    Answers m₀.Extends (imgdOp i caps m) := by
  cases i
  case oas v =>
    change Answers _ (oasOp _ caps m)
    unfold oasOp
    dsimp only
    split <;> refine answers_ok ?_ <;> exact hx
  case palrec loc raws => exact hx.palrec
  case offs entries =>
    change Answers _ (offsOp _ caps m)
    unfold offsOp
    dsimp only
    split <;> refine answers_ok ?_ <;> exact hx
  case partUnknown rawBytes => exact hx.partUnknown
  case partRaw width height poff =>
    refine answers_ok (Imgd.Extends.openPart hx fun u hu => ?_)
    dsimp only
    split
    · exact Imgd.Extends.partError hu
    · exact hu
  case partRle width height poff => exact answers_ok (Imgd.Extends.openPart hx fun _ hu => hu)
  case rep c v => exact answers_ok (Imgd.Extends.run hx)
  case litr vs => exact answers_ok (Imgd.Extends.run hx)
  all_goals exact answers_ok hx

theorem Imgd.Extends.fetchPalette {m₀ m : Imgd} {caps : Caps} (hx : m₀.Extends m) :
    (m.fetchPalette caps).All m₀.Extends := by
  refine Fetch.all_withBytes fun bs => ?_
  split
  · exact hx
  · exact Imgd.Extends.unitError hx fun _ hu => hu
  · exact hx

theorem Imgd.Extends.framePart {m₀ m : Imgd} {caps : Caps} {start stop : Nat} (hx : m₀.Extends m) :
    m₀.Extends (m.framePart caps start stop) := by
  unfold Imgd.framePart
  dsimp only
  split
  · exact Imgd.Extends.partError hx
  · exact hx

theorem Imgd.Extends.fetchFrame {m₀ m : Imgd} {caps : Caps} (hx : m₀.Extends m) :
    (m.fetchFrame caps).All m₀.Extends := by
  unfold Imgd.fetchFrame
  split
  · split
    · exact hx.framePart
    · trivial
    · trivial
  · exact hx

theorem Imgd.Extends.fetchHeader {m₀ m : Imgd} {caps : Caps} (hx : m₀.Extends m) :
    (m.fetchHeader caps).All m₀.Extends := by
  refine Fetch.all_withBytes fun bs => ?_
  split
  · exact hx
  · exact Imgd.Extends.partError hx
  · exact hx.partError

/-- A part that is over joins `IMGPARTS`, or its store is full (R215). -/
theorem Imgd.Extends.endPart {m₀ m : Imgd} {caps : Caps} (hx : m₀.Extends m) : (m.endPart caps).All m₀.Extends := by
  refine Fetch.all_withBytes fun bs => ?_
  split
  · exact hx
  · obtain ⟨hin, hsub, himg, hrest⟩ := hx
    exact ⟨hin, hsub, himg.trans ⟨_, rfl⟩, hrest⟩

theorem Imgd.Extends.fetchData {m₀ m : Imgd} {caps : Caps} {ctx : Ctx} (hx : m₀.Extends m) :
    (m.fetchData caps ctx).All m₀.Extends := by
  refine Fetch.all_withBytes fun bs => ?_
  split
  · exact hx
  · exact Imgd.Extends.partError hx
  · exact hx.partError

theorem Imgd.Extends.fetchRows {m₀ m : Imgd} {caps : Caps} (hx : m₀.Extends m) :
    (m.fetchRows caps).All m₀.Extends := by
  unfold Imgd.fetchRows
  split
  · split
    · exact hx.fetchData
    · exact hx
  · exact hx.endPart

theorem Imgd.Extends.fetchRuns {m₀ m : Imgd} {caps : Caps} (hx : m₀.Extends m) :
    (m.fetchRuns caps).All m₀.Extends := by
  unfold Imgd.fetchRuns
  split
  · split
    · exact hx.fetchData
    · exact hx
  · exact hx.endPart

theorem Imgd.Extends.fetch {m₀ m : Imgd} {caps : Caps} (hx : m₀.Extends m) : (fetchImgd caps m).All m₀.Extends := by
  unfold fetchImgd
  split
  · refine Fetch.all_withBytes fun bs => ?_
    split <;> exact hx
  · exact hx.fetchPalette
  · refine Fetch.all_withBytes fun bs => ?_
    split <;> exact hx
  · exact hx.fetchFrame
  · exact hx.fetchHeader
  · exact hx.fetchRows
  · exact hx.fetchRuns

/-- A step of IMGD keeps its inputs and only appends to its stores and its log. -/
theorem Imgd.next_extends (caps : Caps) (m : Imgd) : Answers m.Extends (m.next caps) := by
  unfold Imgd.next
  split
  · exact (Imgd.Extends.refl m).fetch.perform fun _ _ hx => hx.op
  · exact answers_ok (.refl m)

/-! ## TXTP -/

/-- `x'` has the inputs of `x`, and every entry of its store and its log. -/
def Txtp.Extends (x x' : Txtp) : Prop :=
  (x'.pbuf = x.pbuf ∧ x'.plen = x.plen ∧ x'.charset = x.charset ∧ x'.itab = x.itab) ∧
  x.sentences <+: x'.sentences ∧ x.skiplog <+: x'.skiplog

theorem Txtp.Extends.refl (x : Txtp) : x.Extends x := by simp [Txtp.Extends]

/-- A unit error in a sentence appends one entry to the log, or raises the fault of a full one (R321, R322). -/
theorem Txtp.Extends.sentenceError {x₀ x : Txtp} {caps : Caps} {cause : UnitCause} (hx : x₀.Extends x) :
    x₀.Extends (x.sentenceError caps cause) := by
  unfold Txtp.sentenceError
  rcases x.unitError_cases caps _ _ _ with ⟨-, he⟩ | ⟨-, he⟩ <;> rw [he]
  · exact hx
  · obtain ⟨hin, hsent, hlog⟩ := hx
    exact ⟨hin, hsent, hlog.trans ⟨_, rfl⟩⟩

theorem Txtp.Extends.putChar {x₀ x : Txtp} {ch : Char} (hx : x₀.Extends x) : x₀.Extends (x.putChar ch) := by
  unfold Txtp.putChar
  split <;> exact hx

/-- Every instruction of TXTP keeps the inputs, the store's entries and the log's. -/
theorem Txtp.Extends.op {x₀ x : Txtp} {caps : Caps} {i : Instr} (hx : x₀.Extends x) :
    Answers x₀.Extends (txtpOp i caps x) := by
  cases i
  case nlFe => exact answers_ok (hx.putChar)
  case nl0d => exact answers_ok (hx.putChar)
  case charOverride b => exact answers_ok (hx.putChar)
  case charDirect b => exact answers_ok (hx.putChar)
  case tinstr t =>
    simp only [txtpOp, tinstrOp]
    split <;> exact answers_ok hx
  all_goals exact answers_ok hx

theorem Txtp.Extends.frameSentence {x₀ x : Txtp} {caps : Caps} {start stop : Nat} (hx : x₀.Extends x) :
    x₀.Extends (x.frameSentence caps start stop) := by
  unfold Txtp.frameSentence
  dsimp only
  split
  · exact Txtp.Extends.sentenceError hx
  · exact hx

theorem Txtp.Extends.fetchFrame {x₀ x : Txtp} {caps : Caps} (hx : x₀.Extends x) :
    (x.fetchFrame caps).All x₀.Extends := by
  unfold Txtp.fetchFrame
  split
  · split
    · exact hx.frameSentence
    · trivial
    · trivial
  · exact hx

theorem Txtp.Extends.startExpansion {x₀ x : Txtp} {caps : Caps} {bytes : List Byte} (hx : x₀.Extends x) :
    x₀.Extends (x.startExpansion caps bytes) := by
  unfold Txtp.startExpansion
  split <;> exact hx

theorem Txtp.Extends.fetchRaw {x₀ x : Txtp} {caps : Caps} (hx : x₀.Extends x) : (x.fetchRaw caps).All x₀.Extends := by
  unfold Txtp.fetchRaw
  split <;> refine Fetch.all_withBytes fun bs => ?_
  · split
    · exact hx
    · trivial
  · exact hx.startExpansion

theorem Txtp.Extends.fetchScan {x₀ x : Txtp} (hx : x₀.Extends x) : x.fetchScan.All x₀.Extends := by
  unfold Txtp.fetchScan
  split
  · exact hx
  · split
    · exact hx
    · split <;> exact hx

theorem Txtp.Extends.closeExpansion {x₀ x : Txtp} {caps : Caps} {ins : TextInstruction} (hx : x₀.Extends x) :
    x₀.Extends (x.closeExpansion caps ins) := by
  unfold Txtp.closeExpansion
  dsimp only
  split <;> exact hx

theorem Txtp.Extends.fetchParams {x₀ x : Txtp} {caps : Caps} (hx : x₀.Extends x) :
    (x.fetchParams caps).All x₀.Extends := by
  unfold Txtp.fetchParams
  split
  · trivial
  · split
    · exact hx.closeExpansion
    · split
      · exact hx
      · exact hx.sentenceError

/-- A sentence that is over joins `SENTENCES`, or the store is full (R282). -/
theorem Txtp.Extends.storeSentence {x₀ x : Txtp} {caps : Caps} (hx : x₀.Extends x) :
    x₀.Extends (x.storeSentence caps) := by
  unfold Txtp.storeSentence
  dsimp only
  split
  · exact hx
  · obtain ⟨hin, hsent, hlog⟩ := hx
    exact ⟨hin, hsent.trans ⟨_, rfl⟩, hlog⟩

theorem Txtp.Extends.fetchFinal {x₀ x : Txtp} {caps : Caps} (hx : x₀.Extends x) :
    (x.fetchFinal caps).All x₀.Extends := by
  unfold Txtp.fetchFinal
  split
  · exact hx.storeSentence
  · exact hx
  · exact hx

theorem Txtp.Extends.fetch {x₀ x : Txtp} {caps : Caps} (hx : x₀.Extends x) : (fetchTxtp caps x).All x₀.Extends := by
  unfold fetchTxtp
  split
  · refine Fetch.all_withBytes fun bs => ?_
    split <;> exact hx
  · exact hx.fetchFrame
  · exact hx.fetchRaw
  · exact hx.fetchScan
  · exact hx.fetchParams
  · exact hx.fetchFinal

/-- A step of TXTP keeps its inputs and only appends to its store and its log. -/
theorem Txtp.next_extends (caps : Caps) (x : Txtp) : Answers x.Extends (x.next caps) := by
  unfold Txtp.next
  split
  · exact (Txtp.Extends.refl x).fetch.perform fun _ _ hx => hx.op
  · exact answers_ok (.refl x)

/-! ## The machine -/

/-- `t` has the capacities and the host's moves of `s`, and of every engine the inputs and what it has stored. -/
def State.Extends (s t : State) : Prop :=
  (t.caps = s.caps ∧ t.hostq = s.hostq) ∧ s.hsqd.Extends t.hsqd ∧ s.imgd.Extends t.imgd ∧ s.txtp.Extends t.txtp

theorem State.Extends.refl (s : State) : s.Extends s := ⟨⟨rfl, rfl⟩, .refl _, .refl _, .refl _⟩

/-- A step of an engine extends its own state and leaves the rest (R30). -/
theorem engineStep_extends {e : Engine} {s t : State} (h : engineStep e s = .next t) : s.Extends t := by
  cases e with
  | hsqd =>
    obtain ⟨h', hh', rfl⟩ := onHsqd_next.mp (engineStep_hsqd_eq s ▸ h)
    exact ⟨⟨rfl, rfl⟩, Hsqd.next_extends _ _ h' hh', .refl _, .refl _⟩
  | imgd =>
    obtain ⟨m', hm', rfl⟩ := onImgd_next.mp (engineStep_imgd_eq s ▸ h)
    exact ⟨⟨rfl, rfl⟩, .refl _, Imgd.next_extends _ _ m' hm', .refl _⟩
  | txtp =>
    obtain ⟨x', hx', rfl⟩ := onTxtp_next.mp (engineStep_txtp_eq s ▸ h)
    exact ⟨⟨rfl, rfl⟩, .refl _, .refl _, Txtp.next_extends _ _ x' hx'⟩

/-- Settles O53: the one write to `OBUF` is at `olen`, and every entry joins its store or log at the end. -/
theorem storesOnlyGrow : Obligations.StoresOnlyGrow := by
  intro e s t hstep
  obtain ⟨-, ⟨-, hlen, hread⟩, ⟨-, hsub, himg, hunk, hlogI⟩, ⟨-, hsent, hlogT⟩⟩ := engineStep_extends hstep
  exact ⟨hlen, hread, hsub, himg, hunk, hlogI, hsent, hlogT⟩

/-! ## A move of the host -/

/-- A launch that goes on writes the state of its own engine, and PALC with IMGD (R84, R352). -/
theorem execLaunch_frame {req : LaunchReq} {s t : State} (h : execLaunch req s = .next t) :
    (t.caps = s.caps ∧ t.hostq = s.hostq) ∧ (LaunchReq.engine req ≠ .hsqd → t.hsqd = s.hsqd) ∧
    (LaunchReq.engine req ≠ .imgd → t.imgd = s.imgd) ∧ (LaunchReq.engine req ≠ .txtp → t.txtp = s.txtp) := by
  replace h := (execLaunch_of_idle (idle_of_execLaunch_next h)).symm.trans h
  cases req with
  | hsqd bytes verify =>
    cases h
    exact ⟨⟨rfl, rfl⟩, fun hne => absurd rfl hne, fun _ => rfl, fun _ => rfl⟩
  | imgd p =>
    obtain ⟨bs, bound, rfl⟩ := withPayload_next h
    exact ⟨⟨rfl, rfl⟩, fun _ => rfl, fun hne => absurd rfl hne, fun _ => rfl⟩
  | txtp p charset itab =>
    obtain ⟨bs, bound, rfl⟩ := withPayload_next h
    exact ⟨⟨rfl, rfl⟩, fun _ => rfl, fun _ => rfl, fun hne => absurd rfl hne⟩

/-- The engines a move starts afresh: every one by RESET, its own by a launch (R62, R84). -/
def HostMove.Restarts : HostMove → Engine → Prop
  | .reset, _ => True
  | .launch req, e => LaunchReq.engine req = e
  | .compose _ _, _ => False
  | .run _, _ => False

theorem HostMove.launch_of_restarts {mv : HostMove} {e : Engine} (hr : mv.Restarts e) (hne : mv ≠ .reset) :
    ∃ req, mv = .launch req ∧ LaunchReq.engine req = e := by
  cases mv with
  | reset => exact absurd rfl hne
  | launch req => exact ⟨req, rfl, hr⟩
  | compose j dflt => exact hr.elim
  | run e' => exact hr.elim

/-- `t` extends `s`, but for the engines in `restarted`. -/
def State.ExtendsBut (restarted : Engine → Prop) (s t : State) : Prop :=
  (t.caps = s.caps ∧ t.hostq = s.hostq) ∧ (¬ restarted .hsqd → s.hsqd.Extends t.hsqd) ∧
  (¬ restarted .imgd → s.imgd.Extends t.imgd) ∧ (¬ restarted .txtp → s.txtp.Extends t.txtp)

theorem State.Extends.but {s t : State} (hx : s.Extends t) (restarted : Engine → Prop) :
    s.ExtendsBut restarted t := by
  obtain ⟨hframe, hh, hm, hx⟩ := hx
  exact ⟨hframe, fun _ => hh, fun _ => hm, fun _ => hx⟩

/-- A move of the host extends the machine, but for the engines it starts afresh. -/
theorem hostStep_extendsBut {mv : HostMove} {s t : State} (h : hostStep mv s = .next t) :
    s.ExtendsBut mv.Restarts t := by
  cases mv with
  | reset =>
    cases h
    exact ⟨⟨rfl, rfl⟩, fun hne => absurd trivial hne, fun hne => absurd trivial hne, fun hne => absurd trivial hne⟩
  | launch req =>
    obtain ⟨hframe, hh, hm, hx⟩ := execLaunch_frame h
    exact ⟨hframe, fun hne => hh hne ▸ .refl _, fun hne => hm hne ▸ .refl _, fun hne => hx hne ▸ .refl _⟩
  | compose j dflt =>
    simp only [hostStep] at h
    split at h <;> cases h
    exact (State.Extends.refl s).but _
  | run e => exact (engineStep_extends h).but _

theorem freeStep_extends {s t : State} (h : freeStep s = .next t) : s.Extends t := by
  unfold freeStep at h
  split at h
  · exact engineStep_extends h
  · cases h
    exact .refl s

/-- Settles O52: a host move starts afresh the engines it names, a step extends every other one. -/
theorem inputsAreNeverWritten : Obligations.InputsAreNeverWritten := by
  intro s t hstep
  unfold step at hstep
  split at hstep
  · rename_i mv q hq
    obtain ⟨⟨hcaps, hhostq⟩, hh, hm, hx⟩ := hostStep_extendsBut hstep
    refine ⟨hcaps, by rw [hhostq, hq]; rfl, fun hreset => ?_⟩
    have hlaunch : ∀ e, mv.Restarts e → ∃ req, mv = .launch req ∧ LaunchReq.engine req = e :=
      fun e hr => HostMove.launch_of_restarts hr fun hres => hreset q (hres ▸ hq)
    refine ⟨fun hne => (hh fun hr => ?_).1, fun hne => (hm fun hr => ?_).1, fun hne => (hx fun hr => ?_).1⟩
    · obtain ⟨⟨bytes, verify⟩ | _ | _, rfl, ⟨⟩⟩ := hlaunch .hsqd hr
      exact hne bytes verify q hq
    · obtain ⟨_ | p | _, rfl, ⟨⟩⟩ := hlaunch .imgd hr
      exact hne p q hq
    · obtain ⟨_ | _ | ⟨p, charset, itab⟩, rfl, ⟨⟩⟩ := hlaunch .txtp hr
      exact hne p charset itab q hq
  · rename_i hq
    obtain ⟨⟨hcaps, hhostq⟩, ⟨hh, -⟩, ⟨hm, -⟩, ⟨hx, -⟩⟩ := freeStep_extends hstep
    exact ⟨hcaps, by rw [hhostq, hq]; rfl, fun _ => ⟨fun _ => hh, fun _ => hm, fun _ => hx⟩⟩

end Sys2Proof.Machine
end

section
/-! PROOFS. The encodings: decoding and encoding are inverse to each other (O1, O2), the prefix code of R105 (O3),
the spec's examples (O4), and the fields of Method0 (O5). -/

namespace Sys2Proof

/-- The round trip of R101 to R122, assembled from its cases: every constructor has its own. -/
theorem roundTrip (i : Instr) : Laws.RoundTrip.Statement i := by
  cases i with
  | hdr => exact Laws.RoundTrip.hdr _ _ _ _ _ _
  | iw => exact Laws.RoundTrip.iw _
  | lit => exact Laws.RoundTrip.lit _
  | m0 => exact Laws.RoundTrip.m0 _ _ _
  | m1 => exact Laws.RoundTrip.m1 _
  | m1x => exact Laws.RoundTrip.m1x _ _
  | endMark => exact Laws.RoundTrip.endMark _
  | oas => exact Laws.RoundTrip.oas _
  | palterm => exact Laws.RoundTrip.palterm
  | palrec => exact Laws.RoundTrip.palrec _ _
  | offs => exact Laws.RoundTrip.offs _
  | partUnknown => exact Laws.RoundTrip.partUnknown _
  | partRaw => exact Laws.RoundTrip.partRaw _ _ _
  | partRle => exact Laws.RoundTrip.partRle _ _ _
  | rep => exact Laws.RoundTrip.rep _ _
  | litr => exact Laws.RoundTrip.litr _
  | pair => exact Laws.RoundTrip.pair _
  | compose => exact Laws.RoundTrip.compose _ _
  | tidx => exact Laws.RoundTrip.tidx _
  | nlFe => exact Laws.RoundTrip.nlFe
  | nl0d => exact Laws.RoundTrip.nl0d
  | charOverride => exact Laws.RoundTrip.charOverride _
  | charDirect => exact Laws.RoundTrip.charDirect _
  | tinstr => exact Laws.RoundTrip.tinstr _
  | paramRead8 => exact Laws.RoundTrip.paramRead8 _
  | paramRead16 => exact Laws.RoundTrip.paramRead16 _
  | paramReadUntil => exact Laws.RoundTrip.paramReadUntil _ _
  | reset => exact Laws.RoundTrip.reset
  | launch => exact Laws.RoundTrip.launch _

/-- Settles O1: the round trip holds of every constructor. -/
theorem decodeUndoesEncode : Obligations.DecodeUndoesEncode := roundTrip

/-- Settles O2: both decoders are sound. -/
theorem encodeUndoesDecode : Obligations.EncodeUndoesDecode :=
  ⟨fun _ _ _ _ h => decode_sound h, fun _ _ _ _ h => decodeItems_sound h⟩

/-! ## The prefix code -/

/-- R105: no code is longer than four bits. -/
theorem classify_isSome {bits : List Bool} (h : 4 ≤ bits.length) : (classify bits).isSome = true := by
  match bits, h with
  | true :: _, _ => rfl
  | false :: true :: _, _ => rfl
  | false :: false :: _ :: _ :: _, _ => rfl

/-- R108 with R105: the operand bytes of a Method1 instruction are its encoding. -/
theorem decode_method1 {i : Instr} (hwf : i.wf = true) (hadm : (Ctx.operands .method1).admits i = true)
    (rest : List Byte) : decode (.operands .method1) (i.encode ++ rest) = .ok (i, rest) :=
  (roundTrip i hwf).1 _ rest hadm fun raw hi => by subst hi; cases hadm

theorem halfBytes_le16 (lo hi : Byte) : halfBytes (le16 lo hi) = [lo, hi] := by simp [halfBytes]

/-- Settles O3: `classify` selects a kind by its code alone, and the operand bytes of Method1 are read back as
what encodes to them. -/
theorem prefixCodeIsComplete : Obligations.PrefixCodeIsComplete := by
  refine ⟨fun _ _ => classify_eq_some, fun _ => classify_isSome, fun _ _ _ _ _ _ => ⟨rfl, rfl, rfl, rfl, rfl⟩,
    fun _ _ => rfl, fun _ _ _ _ => rfl, fun l u rest hlen => ?_, fun l u e rest hlen he => ?_,
    fun l u rest hlen => ?_⟩
  · have hwf : (Instr.m1 (le16 l u)).wf = true := bne_iff_ne.mpr (mt (len3_eq_zero _).mp hlen)
    simpa [Instr.encode, halfBytes_le16] using decode_method1 hwf rfl rest
  · have hwf : (Instr.m1x (le16 l u) e).wf = true := by
      simpa [Instr.wf, (len3_eq_zero _).mpr hlen] using he
    simpa [Instr.encode, halfBytes_le16] using decode_method1 hwf rfl rest
  · have hwf : (Instr.endMark (le16 l u)).wf = true := beq_iff_eq.mpr ((len3_eq_zero _).mpr hlen)
    simpa [Instr.encode, halfBytes_le16] using decode_method1 hwf rfl rest

/-- Settles O4: the decoders evaluate to the instructions the spec names. -/
theorem specExamplesDecode : Obligations.SpecExamplesDecode :=
  ⟨rfl, rfl, rfl, rfl, rfl, rfl, rfl, rfl, rfl, rfl, rfl, rfl, rfl, rfl, rfl, rfl, rfl⟩

end Sys2Proof

namespace Sys2Proof.Machine

/-! ## The fields of Method0 -/

/-- R107: `d` stands below eight one bits. -/
theorem signExtended_toNat (d : Byte) : (0xFF00#16 ||| d.setWidth 16).toNat = 0xFF00 + d.toNat := by
  have hd := d.isLt
  rw [BitVec.toNat_or, BitVec.toNat_setWidth, Nat.mod_eq_of_lt (by omega)]
  exact (Nat.shiftLeft_add_eq_or_of_lt hd 0xFF).symm

/-- R107: the sign-extended value is the distance. -/
theorem m0Dist_eq_signExtended (d : Byte) : m0Dist d = (0xFF00#16 ||| d.setWidth 16).toInt := by
  have hd := d.isLt
  rw [BitVec.toInt_eq_toNat_cond, signExtended_toNat, m0Dist, if_neg (by omega)]
  omega

theorem m0Len_eq (b1 b2 : Bool) : m0Len b1 b2 = 2 + (if b1 then 2 else 0) + (if b2 then 1 else 0) := by
  cases b1 <;> cases b2 <;> rfl

/-- Settles O5: the length by its two bits, the distance by `m0Dist_eq_signExtended`. -/
theorem method0Fields : Obligations.Method0Fields := by
  refine ⟨fun _ _ _ _ _ => ⟨rfl, rfl⟩, m0Len_eq, rfl, rfl, rfl, rfl, fun d => ?_, rfl, rfl⟩
  have hneg := m0Dist_neg d
  exact ⟨m0Dist_eq_signExtended d, rfl, by unfold m0Dist; omega, by omega⟩

end Sys2Proof.Machine
end

section
/-! PROOFS. The checksum of the header (O7) and the reload of an instruction word (O10). -/

namespace Sys2Proof.Machine

/-! ## The checksum -/

theorem checksumOk_iff {h0 h1 h2 h3 h4 h5 : Byte} : checksumOk h0 h1 h2 h3 h4 h5 = true ↔
    (h0.toNat + h1.toNat + h2.toNat + h3.toNat + h4.toNat + h5.toNat) % 256 = 0xAB := by
  simp [checksumOk, headerSum]

/-- R102 as an equation between bytes, whose sum is taken modulo 256. -/
theorem checksumOk_iff_sum {h0 h1 h2 h3 h4 h5 : Byte} :
    checksumOk h0 h1 h2 h3 h4 h5 = true ↔ h0 + h1 + h2 + h3 + h4 + h5 = 0xAB := by
  rw [checksumOk_iff, ← BitVec.toNat_inj]
  simp

/-- Settles O7: the sum of the bytes, in which every summand is fixed by the others. -/
theorem checksumRelation : Obligations.ChecksumRelation := by
  refine ⟨fun _ _ _ _ _ _ => checksumOk_iff, fun h0 h1 h2 h3 h4 h5 => ?_, fun h0 h1 h2 h3 h4 h5 v hok => ?_⟩
  · have hlt := h5.isLt
    rw [checksumOk_iff]
    omega
  · rw [checksumOk_iff_sum] at hok
    simp only [← Bool.not_eq_true, checksumOk_iff_sum]
    refine ⟨?_, ?_, ?_, ?_, ?_, ?_⟩ <;> exact fun hne hok' => hne (by linear_combination hok' - hok)

/-! ## The reload -/

/-- Before the end of the input, at an instruction boundary or inside an instruction, HSQD goes on with the bits
that `pfx` holds (R144 to R146). -/
theorem fetchHsqd_body {h : Hsqd} (hphase : h.phase = .body) (hpos : h.pos ≠ h.inLen) :
    fetchHsqd h = h.fetchCode (h.pfx.getD []) := by
  cases hpfx : h.pfx <;> simp [fetchHsqd, hphase, hpfx, hpos]

/-- What the bytes at the cursor decode to is fetched. -/
theorem Hsqd.fetchIn_instr {h : Hsqd} {ctx : Ctx} {bs rest : List Byte} {i : Instr}
    (hwin : window .ibuf h.ibuf h.pos h.inLen = .ok bs) (hdec : decode ctx bs = .ok (i, rest)) :
    h.fetchIn ctx = .instr i h := by
  simp only [Hsqd.fetchIn, Fetch.withBytes, hwin, hdec]

/-- Bits that complete no code are consumed, and an instruction word is fetched (R104, R145). -/
theorem Hsqd.fetchCode_iw {h : Hsqd} {p : List Bool} {l u : Byte} {rest : List Byte}
    (hnone : classify (p ++ bufferBits h.bitbuf h.bitcnt) = none)
    (hwin : window .ibuf h.ibuf h.pos h.inLen = .ok (l :: u :: rest)) :
    h.fetchCode p = .instr (.iw (le16 l u))
      { h with
        bitbuf := h.bitbuf >>> h.bitcnt
        bitcnt := 0
        pfx := some (p ++ bufferBits h.bitbuf h.bitcnt) } := by
  simp only [Hsqd.fetchCode, takePrefix_none hnone, hnone]
  exact Hsqd.fetchIn_instr hwin rfl

/-- A cursor with a byte left to read is not at the end of the input. -/
theorem pos_ne_of_window_cons {sp : Space} {m : Memory} {pos lim : Nat} {b : Byte} {bs : List Byte}
    (hwin : window sp m pos lim = .ok (b :: bs)) : pos ≠ lim := by
  have hlen := window_length hwin
  rw [List.length_cons] at hlen
  omega

/-- Settles O10: the bits left are consumed into `pfx`, and IW is fetched. -/
theorem instructionWordReload : Obligations.InstructionWordReload := by
  refine ⟨fun _ _ => rfl, fun s q l u rest hq hrun hphase hnone hwin => ?_⟩
  rw [step_run hq, engineStep_hsqd (s := s.setHostq q) hrun, State.setHostq_hsqd,
    fetchHsqd_body hphase (pos_ne_of_window_cons hwin), Hsqd.fetchCode_iw hnone hwin]
  rfl

end Sys2Proof.Machine
end

section
/-! PROOFS. The two nibbles of a pixel pair (O27). -/

namespace Sys2Proof.Machine

theorem loNib_toNat (v : Byte) : (loNib v).toNat = v.toNat % 16 := by
  rw [loNib, BitVec.toNat_and]
  exact Nat.and_two_pow_sub_one_eq_mod v.toNat 4

theorem hiNib_toNat (v : Byte) : (hiNib v).toNat = v.toNat / 16 := by
  rw [hiNib, BitVec.toNat_ushiftRight, Nat.shiftRight_eq_div_pow]

/-- The column that the nibble `ns[k]` reaches (R217): a zero nibble leaves it, another one is its value. -/
theorem EmitResult.reached {m : Imgd} {ns : List Byte} {px : List (Option Byte)} (hpx : EmitResult m ns px)
    {k : Nat} {nib : Byte} (hnib : ns[k]? = some nib) (hcol : m.x + k < m.width.toNat)
    (hlen : m.y * m.width.toNat + m.x + k < m.pixels.length) :
    px[m.y * m.width.toNat + m.x + k]? =
      if nib.toNat = 0 then m.pixels[m.y * m.width.toNat + m.x + k]?
      else some (some (BitVec.ofNat 8 nib.toNat)) := by
  rw [hpx.2 _ hlen, if_pos (by omega), Nat.add_sub_cancel_left, hnib, BitVec.ofNat_toNat, BitVec.setWidth_eq]
  exact if_congr BitVec.toNat_inj.symm rfl rfl

/-- PAIR emits the two nibbles of its byte (R217, R221). -/
theorem exec_pair (v : Byte) (s : State) : ∃ m, exec (.pair v) s = .next (s.setImgd m) ∧
    EmitResult s.imgd [loNib v, hiNib v] m.pixels :=
  ⟨_, rfl, Imgd.emitAll_pixels [loNib v, hiNib v] { s.imgd with v := v, s := s.imgd.s + 1 }⟩

/-- Settles O27: the left nibble reaches column `x`, the right one column `x + 1`. -/
theorem pixelPairNibbles : Obligations.PixelPairNibbles := by
  intro v
  refine ⟨by simp [nibbles, loNib_toNat, hiNib_toNat], fun s hcol hlen => ?_⟩
  obtain ⟨m, hexec, hpx⟩ := exec_pair v s
  have hleft := hpx.reached (k := 0) (nib := loNib v) rfl (by omega) (by omega)
  have hright := hpx.reached (k := 1) (nib := hiNib v) rfl hcol hlen
  rw [loNib_toNat] at hleft
  rw [hiNib_toNat] at hright
  exact ⟨m, hexec, hleft, hright⟩

end Sys2Proof.Machine
end

section
/-! PROOFS. Back-references: the distance of Method1 (O6), what CopyByte and the copies append (O11, O12, O14), and
where they underflow (O13). -/

namespace Sys2Proof.Machine

/-! ## The fields of Method1 -/

theorem dist13_toNat (raw : Half) : (dist13 raw).toNat = raw.toNat / 8 := by
  have hlt := raw.isLt
  rw [dist13, BitVec.toNat_setWidth, BitVec.toNat_ushiftRight, Nat.shiftRight_eq_div_pow]
  omega

/-- R152: the distance of Method1, with `raw[15:3]` as a quotient. -/
theorem m1Dist_eq (raw : Half) : m1Dist raw = (raw.toNat / 8 : Nat) - 8192 := by rw [m1Dist, dist13_toNat]

theorem m1Len_eq (raw : Half) : m1Len raw = raw.toNat % 8 + 2 := by rw [m1Len, len3_toNat]

/-- R152: `raw` read as signed, and shifted arithmetically. -/
theorem sshiftRight_toInt (raw : Half) : (raw.sshiftRight 3).toInt = raw.toInt / 8 := by
  rw [BitVec.toInt_sshiftRight, Int.shiftRight_eq_div_pow]
  rfl

/-- Settles O6: each reading is the distance by its value as an integer. -/
theorem method1DistanceFold : Obligations.Method1DistanceFold := by
  intro raw
  have hlt := raw.isLt
  have hneg := m1Dist_neg raw
  have hshift : (raw >>> 3).toNat = raw.toNat / 8 := by
    rw [BitVec.toNat_ushiftRight, Nat.shiftRight_eq_div_pow]
  have hsigned := BitVec.toInt_eq_toNat_cond raw
  rw [m1Dist_eq] at hneg ⊢
  rw [hshift, sshiftRight_toInt, BitVec.toInt_ofInt]
  refine ⟨rfl, by omega, by omega, Int.bmod_eq_of_le (by omega) (by omega), ?_, ?_⟩
  · rw [if_pos (by omega)]
  · split at hsigned <;> split <;> omega

/-! ## Appending -/

theorem exec_lit (b : Byte) (s : State) : exec (.lit b) s =
    .next (s.setHsqd (Hsqd.append s.caps b { s.hsqd with pos := s.hsqd.pos + 1, kind := .copyByte })) := rfl

/-- Settles O11: the two cases of `Append` (R155), and the laws of a write. -/
theorem copyByteAppends : Obligations.CopyByteAppends := by
  intro b s
  refine ⟨fun hroom => ⟨?_, Memory.read_write_same _ _ _, fun a ha => Memory.read_write_ne _ _ ha⟩,
    fun hfull => ?_⟩
  · rw [exec_lit, Hsqd.append, if_neg (Bool.eq_false_iff.mp hroom)]
    rfl
  · rw [exec_lit, Hsqd.append, if_pos hfull]
    rfl

/-! ## Copies -/

/-- Method0 (R148) is a copy from `256 − d` bytes back, with its registers written. -/
theorem m0Op_eq (b1 b2 : Bool) (d : Byte) (caps : Caps) (h : Hsqd) :
    m0Op b1 b2 d caps h = Hsqd.backCopy caps (-((256 - d.toNat : Nat) : Int)) (2 + 2 * b1.toNat + b2.toNat)
      { h with
        pos := h.pos + 1, kind := .method0, len := BitVec.ofNat 16 (2 + 2 * b1.toNat + b2.toNat),
        dist := BitVec.ofInt 16 ((d.toNat : Int) - 256) } := by
  have hback : (-((256 - d.toNat : Nat) : Int)) = m0Dist d := by
    have hd := d.isLt
    rw [m0Dist]
    omega
  rw [hback]
  rfl

/-- How far back Method1 copies (R152). -/
theorem m1Dist_eq_neg (raw : Half) : m1Dist raw = -((8192 - raw.toNat / 8 : Nat) : Int) := by
  have hraw := raw.isLt
  rw [m1Dist_eq]
  omega

/-- Method1 with short length (R149) is a copy from `8192 − raw[15:3]` bytes back. -/
theorem m1Op_eq (raw : Half) (caps : Caps) (h : Hsqd) :
    m1Op raw caps h = Hsqd.backCopy caps (-((8192 - raw.toNat / 8 : Nat) : Int)) (raw.toNat % 8 + 2)
      { h with
        pos := h.pos + 2, kind := .method1, raw := raw, len := BitVec.ofNat 16 (raw.toNat % 8 + 2),
        dist := BitVec.ofInt 16 ((raw.toNat / 8 : Nat) - 8192) } := by
  rw [← m1Dist_eq_neg, ← m1Dist_eq, ← m1Len_eq]
  rfl

/-- Method1 with extended length (R150) is a copy from as far back, of `e + 2` bytes. -/
theorem m1xOp_eq (raw : Half) (e : Byte) (caps : Caps) (h : Hsqd) :
    m1xOp raw e caps h = Hsqd.backCopy caps (-((8192 - raw.toNat / 8 : Nat) : Int)) (e.toNat + 2)
      { h with
        pos := h.pos + 3, kind := .method1, raw := raw, len := BitVec.ofNat 16 (e.toNat + 2),
        dist := BitVec.ofInt 16 ((raw.toNat / 8 : Nat) - 8192) } := by
  rw [← m1Dist_eq_neg, ← m1Dist_eq]
  rfl

/-- An operation that is a copy with enough output behind it and room before it appends that copy (R153). -/
theorem onHsqd_copies {op : Caps → Hsqd → Except Fault Hsqd} {s : State} {h : Hsqd} {len back : Nat}
    (hop : op s.caps s.hsqd = Hsqd.backCopy s.caps (-(back : Int)) len h) (hb : 1 ≤ back) (hle : back ≤ h.olen)
    (hfill : h.obuf.filled h.olen) (hcap : exceeds s.caps.outCap (h.olen + len) = false) :
    ∃ m, CopyResult h len back m ∧ onHsqd op s = .next (s.setHsqd { h with obuf := m, olen := h.olen + len }) := by
  obtain ⟨m, hm, hcopy⟩ := Hsqd.backCopy_copies len hb hle hfill hcap
  exact ⟨m, hcopy, onHsqd_ok (hop.trans hm)⟩

/-- An operation that is a copy from before the output raises the fault (R154). -/
theorem onHsqd_underflow {op : Caps → Hsqd → Except Fault Hsqd} {s : State} {h : Hsqd} {len back : Nat}
    (hop : op s.caps s.hsqd = Hsqd.backCopy s.caps (-(back : Int)) len h) (hlen : 1 ≤ len) (hlt : h.olen < back) :
    onHsqd op s = .next (s.setHsqd (h.fatal .backRefUnderflow h.pos)) :=
  onHsqd_ok (hop.trans (Hsqd.backCopy_underflow hlen (by omega)))

/-- Settles O12: each back-reference is a copy, and a copy appends. -/
theorem backReferencesCopy : Obligations.BackReferencesCopy := by
  refine fun s hfill => ⟨fun b1 b2 d hback hcap => ?_, fun raw _ hback hcap => ?_, fun raw e _ _ hback hcap => ?_⟩
  · exact onHsqd_copies (m0Op_eq b1 b2 d _ _) (by have := d.isLt; omega) hback hfill hcap
  · exact onHsqd_copies (m1Op_eq raw _ _) (by have := raw.isLt; omega) hback hfill hcap
  · exact onHsqd_copies (m1xOp_eq raw e _ _) (by have := raw.isLt; omega) hback hfill hcap

/-! ## Underflow -/

/-- An append keeps the output filled. -/
theorem Hsqd.filled_push {h : Hsqd} (hfill : h.obuf.filled h.olen) (b : Byte) :
    (h.push b).obuf.filled (h.push b).olen := by
  intro a ha
  rw [Hsqd.push_olen] at ha
  rw [Hsqd.push_obuf]
  by_cases hlast : a = h.olen
  · rw [hlast, Memory.read_write_same]
    rfl
  · rw [Memory.read_write_ne _ _ hlast]
    exact hfill a (by omega)

/-- A copy that starts inside the output never underflows: the source index only grows (R154). -/
theorem Hsqd.backCopy_in_range {caps : Caps} {dist : Int} (len : Nat) {h : Hsqd} (hfill : h.obuf.filled h.olen)
    (hneg : dist < 0) (hin : 0 ≤ (h.olen : Int) + dist) :
    ∃ h', Hsqd.backCopy caps dist len h = .ok h' ∧
      (h'.st = h.st ∨ h'.st = ⟨.fault, .capacityExceeded, h.pos⟩) := by
  induction len generalizing h with
  | zero => exact ⟨h, rfl, .inl rfl⟩
  | succ len ih =>
    obtain ⟨b, hread⟩ := Option.isSome_iff_exists.mp (hfill ((h.olen : Int) + dist).toNat (by omega))
    simp only [Hsqd.backCopy, if_neg (Int.not_lt.mpr hin), hread]
    split
    · exact ⟨_, rfl, .inr rfl⟩
    · exact ih (h := h.push b) (Hsqd.filled_push hfill b) (by rw [Hsqd.push_olen]; omega)

/-- Settles O13: each back-reference is a copy, which underflows exactly when its first source is out of range. -/
theorem backReferenceUnderflow : Obligations.BackReferenceUnderflow := by
  refine ⟨fun s b1 b2 d hlt => ?_, fun s raw hlt => ?_, fun s raw e hlt => ?_,
    fun caps h dist len hfill hneg hin => Hsqd.backCopy_in_range len hfill hneg hin⟩
  · exact onHsqd_underflow (m0Op_eq b1 b2 d _ _) (by omega) hlt
  · exact onHsqd_underflow (m1Op_eq raw _ _) (by omega) hlt
  · exact onHsqd_underflow (m1xOp_eq raw e _ _) (by omega) hlt

/-! ## The copy loop -/

/-- Settles O14: the serial and the cyclic description are of one and the same copy. -/
theorem serialCopyIsCyclic : Obligations.SerialCopyIsCyclic := by
  refine fun caps h len back hlen hb hfill => ⟨fun hle hcap => ?_, fun hlt => ?_⟩
  · obtain ⟨m, hm, hserial, hframe⟩ := Hsqd.backCopy_serial len hb hle hfill hcap
    obtain ⟨m', hm', hcyclic, -⟩ := Hsqd.backCopy_copies len hb hle hfill hcap
    cases hm.symm.trans hm'
    exact ⟨m, hm, hserial, hcyclic, hframe⟩
  · exact Hsqd.backCopy_underflow (by omega) (by omega)

end Sys2Proof.Machine
end

section
/-! PROOFS. The steps of HSQD: the header (O8), the instruction that a step decodes (O9), and the two ends of a run
(O15). -/

namespace Sys2Proof.Machine

/-- A step in which the host lets a RUNNING HSQD move runs what it fetches. -/
theorem step_hsqd {s : State} {q : List HostMove} (hq : s.hostq = .run .hsqd :: q)
    (hrun : s.hsqd.st.status = .running) : step s = (fetchHsqd s.hsqd).run (s.setHostq q).setHsqd := by
  rw [step_run hq, engineStep_hsqd (s := s.setHostq q) hrun, State.setHostq_hsqd]

/-- A byte that the context needs is missing: the instruction is abandoned (R311). -/
theorem Hsqd.fetchIn_short {h : Hsqd} {ctx : Ctx} {bs : List Byte} {k : Nat}
    (hwin : window .ibuf h.ibuf h.pos h.inLen = .ok bs) (hdec : decode ctx bs = .error (.short k)) :
    h.fetchIn ctx = .control ((h.begun ctx bs).overrun k) := by
  simp only [Hsqd.fetchIn, Fetch.withBytes, hwin, hdec]

/-- In the header phase the header is next (R141). -/
theorem fetchHsqd_header {h : Hsqd} (hphase : h.phase = .header) : fetchHsqd h = h.fetchIn .hdr := by
  rw [fetchHsqd, hphase]

/-! ## The header -/

/-- The header registers of R141 hold the values of R101: `csize` sixteen bits, `usize` thirty-two. -/
theorem le16_eq_ofNat (lo hi : Byte) : le16 lo hi = BitVec.ofNat 16 (lo.toNat + 256 * hi.toNat) := by
  rw [← le16_toNat, BitVec.ofNat_toNat, BitVec.setWidth_eq]

theorem le16_setWidth_eq_ofNat (lo hi : Byte) :
    (le16 lo hi).setWidth 32 = BitVec.ofNat 32 (lo.toNat + 256 * hi.toNat) := by
  rw [← le16_toNat, BitVec.ofNat_toNat]

/-- A header of fewer than six bytes. -/
theorem decodeHdr_short {bs : List Byte} (hshort : bs.length < 6) : decode .hdr bs = .error (.short 0) := by
  match bs, hshort with
  | [], _ => rfl
  | [_], _ => rfl
  | [_, _], _ => rfl
  | [_, _, _], _ => rfl
  | [_, _, _, _], _ => rfl
  | [_, _, _, _, _], _ => rfl

/-- Settles O8: the checksum decides between the two ends of the header step, and a short header is an overrun. -/
theorem headerStepChecksSum : Obligations.HeaderStepChecksSum := by
  refine ⟨fun h0 h1 h2 h3 h4 h5 s => ⟨fun hpass => ?_, fun hverify hsum => ?_⟩,
    fun s q bs hq hrun hphase hwin hshort => ?_⟩
  · have hok : (s.hsqd.verify && !checksumOk h0 h1 h2 h3 h4 h5) = false := by
      rcases hpass with hverify | hsum
      · rw [hverify, Bool.false_and]
      · rw [checksumOk_iff.mpr hsum, Bool.not_true, Bool.and_false]
    rw [← le16_setWidth_eq_ofNat, ← le16_eq_ofNat]
    exact onHsqd_ok (if_neg (Bool.eq_false_iff.mp hok))
  · have hbad : (s.hsqd.verify && !checksumOk h0 h1 h2 h3 h4 h5) = true := by
      rw [hverify, Bool.eq_false_iff.mpr (mt checksumOk_iff.mp hsum)]
      rfl
    rw [← le16_setWidth_eq_ofNat, ← le16_eq_ofNat]
    exact onHsqd_ok (if_pos hbad)
  · rw [step_hsqd hq hrun, fetchHsqd_header hphase, Hsqd.fetchIn_short hwin (decodeHdr_short hshort)]
    exact ⟨_, rfl, rfl, rfl⟩

/-! ## The body -/

/-- An instruction with a prefix code has the code of one kind, and its bytes are operands of that kind (R105). -/
theorem kind_of_prefixBits {i : Instr} (hbits : 0 < i.prefixBits.length) :
    ∃ k : PrefixKind, i.prefixBits = k.bits ∧ (Ctx.operands k).admits i = true ∧ 0 < i.encode.length := by
  cases i with
  | lit b => exact ⟨.copyByte, rfl, rfl, Nat.succ_pos _⟩
  | m0 b1 b2 d => exact ⟨.method0 b1 b2, rfl, beq_self_eq_true _, Nat.succ_pos _⟩
  | m1 raw => exact ⟨.method1, rfl, rfl, Nat.succ_pos _⟩
  | m1x raw e => exact ⟨.method1, rfl, rfl, Nat.succ_pos _⟩
  | endMark raw => exact ⟨.method1, rfl, rfl, Nat.succ_pos _⟩
  | _ => cases hbits

/-- Operand bytes decode to the instruction they encode (R106 to R108). -/
theorem decode_operands {i : Instr} {k : PrefixKind} (hwf : i.wf = true) (hadm : (Ctx.operands k).admits i = true)
    (rest : List Byte) : decode (.operands k) (i.encode ++ rest) = .ok (i, rest) :=
  (roundTrip i hwf).1 _ rest hadm fun raw hi => by subst hi; cases hadm

/-- Decode (R146) fetches the instruction whose code the bits begin with and whose bytes stand at the cursor. -/
theorem Hsqd.fetchCode_instr {h : Hsqd} {i : Instr} {k : PrefixKind} {p more : List Bool} {rest : List Byte}
    (hwf : i.wf = true) (hadm : (Ctx.operands k).admits i = true) (hlen : p.length < k.bits.length)
    (hbits : p ++ bufferBits h.bitbuf h.bitcnt = k.bits ++ more)
    (hwin : window .ibuf h.ibuf h.pos h.inLen = .ok (i.encode ++ rest)) :
    h.fetchCode p = .instr i
      { h with bitbuf := h.bitbuf >>> (k.bits.length - p.length), bitcnt := more.length, pfx := none } := by
  have hcode : classify k.bits = some k := classify_eq_some.mpr ⟨[], (List.append_nil _).symm⟩
  simp only [Hsqd.fetchCode, takePrefix_some hlen hbits, hcode]
  exact Hsqd.fetchIn_instr hwin (decode_operands hwf hadm rest)

/-- Settles O9: the prefix bits select the kind, and the round trip gives back the operands. -/
theorem hsqdStepRunsDecoded : Obligations.HsqdStepRunsDecoded := by
  refine ⟨fun s q i more rest hq hrun hphase hwf hlen hbits hwin => ?_,
    fun s q h0 h1 h2 h3 h4 h5 rest hq hrun hphase hwin => ?_⟩
  · obtain ⟨k, hk, hadm, hbytes⟩ := kind_of_prefixBits (Nat.zero_lt_of_lt hlen)
    have hpos : s.hsqd.pos ≠ s.hsqd.inLen := by
      have := window_length hwin
      rw [List.length_append] at this
      omega
    rw [hk] at hlen hbits ⊢
    rw [step_hsqd hq hrun, fetchHsqd_body hphase hpos, Hsqd.fetchCode_instr hwf hadm hlen hbits hwin]
    rfl
  · have hdec : decode .hdr (h0 :: h1 :: h2 :: h3 :: h4 :: h5 :: rest) = .ok (.hdr h0 h1 h2 h3 h4 h5, rest) := rfl
    rw [step_hsqd hq hrun, fetchHsqd_header hphase, Hsqd.fetchIn_instr hwin hdec]
    rfl

/-! ## The ends of a run -/

/-- At an instruction boundary at the end of the input the run ends (R144). -/
theorem fetchHsqd_endInput {h : Hsqd} (hphase : h.phase = .body) (hpfx : h.pfx = none) (hpos : h.pos = h.inLen) :
    fetchHsqd h = .control h.endInput := by
  simp only [fetchHsqd, hphase, hpfx, if_pos hpos]

/-- Settles O15: the end marker's operation, the control step at the end of input, and R59 for an engine that is
DONE. -/
theorem hsqdRunEndsTwoWays : Obligations.HsqdRunEndsTwoWays := by
  refine ⟨fun raw s => rfl, fun s q hq hrun hphase hpfx hpos => ?_, fun s hdone => ?_⟩
  · rw [step_hsqd hq hrun, fetchHsqd_endInput hphase hpfx hpos]
    rfl
  · exact engineStep_of_not_running (e := .hsqd) (by rw [statusOf, hdone]; decide)

end Sys2Proof.Machine
end

section
/-! PROOFS. The small steps of HSQD refine the body step of the spec (O17; R144 to R146). `Hsqd.decodeFrom` reads
Decode bit by bit, from the prefix bits consumed so far: the body step is its start, and one step of the model goes
either to its end or to its reload. -/

namespace Sys2Proof.Machine

/-! ## Reading at the cursor -/

/-- A window that begins with a byte: the byte is at its first address, and the others are the next window. -/
theorem window_cons {sp : Space} {m : Memory} {a lim : Nat} {b : Byte} {bs : List Byte}
    (hwin : window sp m a lim = .ok (b :: bs)) :
    a < lim ∧ m.read a = some b ∧ window sp m (a + 1) lim = .ok bs := by
  have hlen := window_length hwin
  obtain ⟨n, hn⟩ : ∃ n, lim - a = n + 1 := ⟨lim - a - 1, by rw [List.length_cons] at hlen; omega⟩
  have hnext : lim - (a + 1) = n := by omega
  simp only [window, hn, Memory.slice] at hwin
  cases hread : m.read a <;> cases hslice : Memory.slice m (a + 1) n <;> simp [hread, hslice] at hwin
  obtain ⟨rfl, rfl⟩ := hwin
  exact ⟨by omega, rfl, by simp only [window, hnext, hslice]⟩

/-- What a window holds after its first two bytes. -/
theorem window_drop_two {sp : Space} {m : Memory} {a lim : Nat} {b b' : Byte} {bs : List Byte}
    (hwin : window sp m a lim = .ok (b :: b' :: bs)) : window sp m (a + 2) lim = .ok bs := by
  obtain ⟨-, -, hwin'⟩ := window_cons hwin
  obtain ⟨-, -, hwin''⟩ := window_cons hwin'
  exact hwin''

theorem Hsqd.rd8_nil {h : Hsqd} (hwin : window .ibuf h.ibuf h.pos h.inLen = .ok []) :
    h.rd8 = .ok (.inr (h.fatal .unexpectedEnd h.pos)) := by
  have hlen := window_length hwin
  rw [List.length_nil] at hlen
  rw [Hsqd.rd8, if_pos (by omega)]

theorem Hsqd.rd8_cons {h : Hsqd} {b : Byte} {bs : List Byte}
    (hwin : window .ibuf h.ibuf h.pos h.inLen = .ok (b :: bs)) :
    h.rd8 = .ok (.inl (b, { h with pos := h.pos + 1 })) := by
  obtain ⟨hlt, hread, -⟩ := window_cons hwin
  rw [Hsqd.rd8, if_neg (by omega), hread]

theorem Hsqd.rd16_short {h : Hsqd} {bs : List Byte} (hwin : window .ibuf h.ibuf h.pos h.inLen = .ok bs)
    (hshort : bs.length < 2) : h.rd16 = .ok (.inr (h.fatal .unexpectedEnd h.pos)) := by
  have hlen := window_length hwin
  rw [Hsqd.rd16, if_pos (by omega)]

theorem Hsqd.rd16_cons {h : Hsqd} {l u : Byte} {bs : List Byte}
    (hwin : window .ibuf h.ibuf h.pos h.inLen = .ok (l :: u :: bs)) :
    h.rd16 = .ok (.inl (le16 l u, { h with pos := h.pos + 2 })) := by
  obtain ⟨-, hlo, hwin'⟩ := window_cons hwin
  obtain ⟨hlt, hhi, -⟩ := window_cons hwin'
  rw [Hsqd.rd16, if_neg (by omega), hlo, hhi]

/-- GetBit (R145) with the buffer empty takes the first bit of the word it reads. -/
theorem Hsqd.getBit_word {h h' : Hsqd} {w : Half} (hcnt : h.bitcnt = 0) (hread : h.rd16 = .ok (.inl (w, h'))) :
    h.getBit = .ok (.inl ({ h' with bitbuf := w, bitcnt := 16 } : Hsqd).shiftBit) := by
  simp only [Hsqd.getBit, if_pos hcnt, hread]

/-- GetBit (R145) with the buffer empty raises what its read raises. -/
theorem Hsqd.getBit_fault {h h' : Hsqd} (hcnt : h.bitcnt = 0) (hread : h.rd16 = .ok (.inr h')) :
    h.getBit = .ok (.inr h') := by
  simp only [Hsqd.getBit, if_pos hcnt, hread]

/-! ## Operands -/

/-- An operand byte is missing: the fault stands at the cursor of the failing read (R311). -/
theorem Hsqd.fetchIn_operands_short {h : Hsqd} {kind : PrefixKind} {bs : List Byte} {k : Nat}
    (hwin : window .ibuf h.ibuf h.pos h.inLen = .ok bs) (hpfx : h.pfx = none)
    (hdec : decode (.operands kind) bs = .error (.short k)) :
    h.fetchIn (.operands kind) =
      .control (({ h.begun (.operands kind) bs with pos := h.pos + k } : Hsqd).fatal .unexpectedEnd (h.pos + k)) := by
  rw [Hsqd.fetchIn_short hwin hdec, begun_eq, Hsqd.overrun, ← hpfx]

/-- Method1 with `raw[2:0] = 0` reads one byte more, which tells a copy from the end marker (R150, R151). -/
theorem Hsqd.perform_extended {h : Hsqd} {l u : Byte} {rest : List Byte} (caps : Caps)
    (hwin : window .ibuf h.ibuf h.pos h.inLen = .ok (l :: u :: rest)) (hpfx : h.pfx = none)
    (hlen : len3 (le16 l u) = 0) :
    (h.fetchIn (.operands .method1)).perform (hsqdOp · caps) = h.execute caps .method1 := by
  have hwin' := window_drop_two hwin
  rw [Hsqd.execute, Hsqd.rd16_cons (h := { h with kind := .method1 }) hwin, Reading.andThen,
    if_neg (not_not.mpr ((len3_eq_zero _).mp hlen)), ← m1Dist_eq]
  cases rest with
  | nil =>
    have hdec : decode (.operands .method1) [l, u] = .error (.short 2) := if_pos hlen
    rw [Hsqd.fetchIn_operands_short hwin hpfx hdec,
      Hsqd.rd8_nil (h := { h with pos := h.pos + 2, kind := .method1, raw := le16 l u }) hwin']
    rfl
  | cons e rest =>
    rw [Hsqd.rd8_cons (h := { h with pos := h.pos + 2, kind := .method1, raw := le16 l u }) hwin', Reading.andThen]
    by_cases he : e = 0
    case pos =>
      have hdec : decode (.operands .method1) (l :: u :: e :: rest) = .ok (.endMark (le16 l u), rest) :=
        (if_pos hlen).trans (if_pos he)
      rw [Hsqd.fetchIn_instr hwin hdec, if_pos he]
      rfl
    case neg =>
      have hdec : decode (.operands .method1) (l :: u :: e :: rest) = .ok (.m1x (le16 l u) e, rest) :=
        (if_pos hlen).trans (if_neg he)
      rw [Hsqd.fetchIn_instr hwin hdec, if_neg he]
      rfl

/-- What HSQD does with the operands of Method1 is what the rules R149 to R151 do, read byte by byte. -/
theorem Hsqd.perform_method1 {h : Hsqd} {bs : List Byte} (caps : Caps)
    (hwin : window .ibuf h.ibuf h.pos h.inLen = .ok bs) (hpfx : h.pfx = none) :
    (h.fetchIn (.operands .method1)).perform (hsqdOp · caps) = h.execute caps .method1 := by
  match bs, hwin with
  | [], hwin =>
    rw [Hsqd.fetchIn_operands_short hwin hpfx rfl, Hsqd.execute,
      Hsqd.rd16_short (h := { h with kind := .method1 }) hwin Nat.zero_lt_two]
    rfl
  | [_], hwin =>
    rw [Hsqd.fetchIn_operands_short hwin hpfx rfl, Hsqd.execute,
      Hsqd.rd16_short (h := { h with kind := .method1 }) hwin Nat.one_lt_two]
    rfl
  | l :: u :: rest, hwin =>
    by_cases hlen : len3 (le16 l u) = 0
    case pos => exact Hsqd.perform_extended caps hwin hpfx hlen
    case neg =>
      have hdec : decode (.operands .method1) (l :: u :: rest) = .ok (.m1 (le16 l u), rest) := if_neg hlen
      rw [Hsqd.fetchIn_instr hwin hdec, Hsqd.execute, Hsqd.rd16_cons (h := { h with kind := .method1 }) hwin,
        Reading.andThen, if_pos (mt (len3_eq_zero _).mpr hlen), ← m1Dist_eq, ← m1Len_eq]
      rfl

/-- What HSQD does with the operands of a kind is what the rules R147 to R151 do, read byte by byte. -/
theorem Hsqd.perform_operands {h : Hsqd} {bs : List Byte} (caps : Caps) (k : PrefixKind)
    (hwin : window .ibuf h.ibuf h.pos h.inLen = .ok bs) (hpfx : h.pfx = none) :
    (h.fetchIn (.operands k)).perform (hsqdOp · caps) = h.execute caps k := by
  cases k with
  | copyByte =>
    rw [Hsqd.execute]
    cases bs with
    | nil =>
      rw [Hsqd.fetchIn_operands_short hwin hpfx rfl, Hsqd.rd8_nil (h := { h with kind := .copyByte }) hwin]
      rfl
    | cons b rest =>
      rw [Hsqd.fetchIn_instr hwin rfl, Hsqd.rd8_cons (h := { h with kind := .copyByte }) hwin]
      rfl
  | method0 b1 b2 =>
    rw [Hsqd.execute, ← m0Len_eq]
    cases bs with
    | nil =>
      rw [Hsqd.fetchIn_operands_short hwin hpfx rfl,
        Hsqd.rd8_nil (h := { h with kind := .method0, len := BitVec.ofNat 16 (m0Len b1 b2) }) hwin]
      rfl
    | cons d rest =>
      rw [Hsqd.fetchIn_instr hwin rfl,
        Hsqd.rd8_cons (h := { h with kind := .method0, len := BitVec.ofNat 16 (m0Len b1 b2) }) hwin]
      rfl
  | method1 => exact Hsqd.perform_method1 caps hwin hpfx

/-! ## Decode, bit by bit -/

/-- A prefix that selects nothing yet is shorter than the longest code. -/
theorem length_of_classify_none {p : List Bool} (hcode : classify p = none) : p.length < 4 := by
  by_contra hge
  have hsome := classify_isSome (Nat.le_of_not_lt hge)
  rw [hcode] at hsome
  cases hsome

/-- Decode (R146) from the prefix bits `p` on: a complete code is executed, else GetBit (R145) adds a bit. -/
def Hsqd.decodeFrom (caps : Caps) (p : List Bool) (h : Hsqd) : Except Fault Hsqd :=
  match _ : classify p with
  | some k => h.execute caps k
  | none => Reading.andThen h.getBit fun b h => Hsqd.decodeFrom caps (p ++ [b]) h
termination_by 4 - p.length
decreasing_by
  have hlt := length_of_classify_none ‹_›
  rw [List.length_append, List.length_singleton]
  omega

theorem Hsqd.decodeFrom_some {caps : Caps} {p : List Bool} {h : Hsqd} {k : PrefixKind} (hcode : classify p = some k) :
    h.decodeFrom caps p = h.execute caps k := by
  rw [Hsqd.decodeFrom]
  split <;> simp_all

theorem Hsqd.decodeFrom_none {caps : Caps} {p : List Bool} {h : Hsqd} (hcode : classify p = none) :
    h.decodeFrom caps p = Reading.andThen h.getBit fun b h => h.decodeFrom caps (p ++ [b]) := by
  rw [Hsqd.decodeFrom]
  split <;> simp_all

/-- The body step (R144) before the end of the input is Decode with no bit consumed. -/
theorem Hsqd.bodyStep_eq {caps : Caps} {h : Hsqd} (hpos : h.pos ≠ h.inLen) :
    h.bodyStep caps = h.decodeFrom caps [] := by
  rw [Hsqd.bodyStep, if_neg hpos, Hsqd.decodeFrom_none rfl]
  congr 1
  funext b h
  cases b
  case true => exact (Hsqd.decodeFrom_some (p := [true]) rfl).symm
  case false =>
    rw [if_neg Bool.false_ne_true, Hsqd.decodeFrom_none rfl]
    congr 1
    funext b h
    cases b
    case true => exact (Hsqd.decodeFrom_some (p := [false, true]) rfl).symm
    case false =>
      rw [if_neg Bool.false_ne_true, Hsqd.decodeFrom_none rfl]
      congr 1
      funext b1 h
      rw [Hsqd.decodeFrom_none rfl]
      congr 1
      funext b2 h
      exact (Hsqd.decodeFrom_some rfl).symm

/-- The state in which Decode has consumed the bits it asks for, as far as the buffer has them. -/
def Hsqd.taken (p : List Bool) (h : Hsqd) : Hsqd :=
  { h with
    bitbuf := (takePrefix h.bitcnt h.bitbuf p).2.1
    bitcnt := (takePrefix h.bitcnt h.bitbuf p).2.2 }

/-- Taking the bits that are left one by one, as GetBit does, or at once is the same. -/
theorem Hsqd.decodeFrom_taken (caps : Caps) (p : List Bool) (h : Hsqd) :
    h.decodeFrom caps p = (h.taken p).decodeFrom caps (takePrefix h.bitcnt h.bitbuf p).1 := by
  unfold Hsqd.taken
  generalize hcnt : h.bitcnt = n
  induction n generalizing h p with
  | zero => rw [takePrefix, ← hcnt]
  | succ n ih =>
    cases hcode : classify p with
    | some k => rw [takePrefix_of_classify (by rw [hcode]; rfl), ← hcnt]
    | none =>
      have hbit : h.getBit = .ok (.inl (h.bitbuf.getLsbD 0, { h with bitbuf := h.bitbuf >>> 1, bitcnt := n })) := by
        rw [Hsqd.getBit, if_neg (by omega), Hsqd.shiftBit, hcnt]
        rfl
      have hstep : takePrefix (n + 1) h.bitbuf p = takePrefix n (h.bitbuf >>> 1) (p ++ [h.bitbuf.getLsbD 0]) := by
        rw [takePrefix, hcode]
        rfl
      rw [Hsqd.decodeFrom_none hcode, hbit, hstep]
      exact ih _ { h with bitbuf := h.bitbuf >>> 1, bitcnt := n } rfl

/-- Where the buffer completes a code, so do the bits that are taken from it. -/
theorem takePrefix_isSome {n : Nat} {bb : Half} {p : List Bool} (h : (classify (p ++ bufferBits bb n)).isSome = true) :
    (classify (takePrefix n bb p).1).isSome = true := by
  induction n generalizing bb p with
  | zero => simpa [bufferBits, takePrefix] using h
  | succ n ih =>
    rw [takePrefix]
    split
    · assumption
    · rw [bufferBits_succ] at h
      exact ih (by simpa using h)

/-- A step whose buffer completes the prefix is Decode from there on. -/
theorem Hsqd.perform_complete {h : Hsqd} {bs : List Byte} {p : List Bool} (caps : Caps)
    (hwin : window .ibuf h.ibuf h.pos h.inLen = .ok bs)
    (hbits : (classify (p ++ bufferBits h.bitbuf h.bitcnt)).isSome = true) :
    (h.fetchCode p).perform (hsqdOp · caps) = ({ h with pfx := none } : Hsqd).decodeFrom caps p := by
  obtain ⟨k, hcode⟩ := Option.isSome_iff_exists.mp (takePrefix_isSome hbits)
  rw [Hsqd.decodeFrom_taken, Hsqd.decodeFrom_some hcode, Hsqd.fetchCode]
  simp only [hcode]
  exact Hsqd.perform_operands (h := ({ h with pfx := none } : Hsqd).taken p) caps k hwin rfl

/-- The state in which every bit of the buffer is consumed. -/
def Hsqd.drained (h : Hsqd) : Hsqd := { h with bitbuf := h.bitbuf >>> h.bitcnt, bitcnt := 0 }

/-- Decode on bits that complete no code goes on with the empty buffer. -/
theorem Hsqd.decodeFrom_drained {h : Hsqd} {p : List Bool} (caps : Caps)
    (hnone : classify (p ++ bufferBits h.bitbuf h.bitcnt) = none) :
    h.decodeFrom caps p = h.drained.decodeFrom caps (p ++ bufferBits h.bitbuf h.bitcnt) := by
  rw [Hsqd.decodeFrom_taken, Hsqd.taken, takePrefix_none hnone, Hsqd.drained]

/-- A missing byte of an instruction word (R311). -/
theorem Hsqd.fetchIn_iw_short {h : Hsqd} {bs : List Byte} (hwin : window .ibuf h.ibuf h.pos h.inLen = .ok bs)
    (hshort : bs.length < 2) :
    h.fetchIn .iw = .control (({ h with pfx := none } : Hsqd).fatal .unexpectedEnd h.pos) := by
  match bs, hshort with
  | [], _ => exact Hsqd.fetchIn_short (ctx := .iw) (k := 0) hwin rfl
  | [_], _ => exact Hsqd.fetchIn_short (ctx := .iw) (k := 0) hwin rfl

/-- No instruction word is there: the step ends where Decode does (R311). -/
theorem Hsqd.perform_no_word {h : Hsqd} {bs : List Byte} {p : List Bool} (caps : Caps)
    (hwin : window .ibuf h.ibuf h.pos h.inLen = .ok bs) (hshort : bs.length < 2) (hpfx : h.pfx = none)
    (hnone : classify (p ++ bufferBits h.bitbuf h.bitcnt) = none) :
    (h.fetchCode p).perform (hsqdOp · caps) = h.decodeFrom caps p := by
  have hfetch : h.fetchCode p = .control (({ h.drained with pfx := none } : Hsqd).fatal .unexpectedEnd h.pos) := by
    simp only [Hsqd.fetchCode, takePrefix_none hnone, hnone]
    exact Hsqd.fetchIn_iw_short hwin hshort
  have hbit := Hsqd.getBit_fault (h := h.drained) rfl (Hsqd.rd16_short (h := h.drained) hwin hshort)
  rw [hfetch, Hsqd.decodeFrom_drained caps hnone, Hsqd.decodeFrom_none hnone, hbit, ← hpfx]
  rfl

/-- The state after the reload of R145. -/
def Hsqd.reloaded (w : Half) (h : Hsqd) : Hsqd := { h with pos := h.pos + 2, bitbuf := w, bitcnt := 16 }

/-- An instruction word is there: the step stops after the reload, with the bits consumed before it in `pfx`. -/
theorem Hsqd.perform_word {h : Hsqd} {l u : Byte} {rest : List Byte} {p : List Bool} (caps : Caps)
    (hwin : window .ibuf h.ibuf h.pos h.inLen = .ok (l :: u :: rest))
    (hnone : classify (p ++ bufferBits h.bitbuf h.bitcnt) = none) :
    (h.fetchCode p).perform (hsqdOp · caps) =
      .ok { h.reloaded (le16 l u) with pfx := some (p ++ bufferBits h.bitbuf h.bitcnt) } := by
  rw [Hsqd.fetchCode_iw hnone hwin]
  rfl

/-- An instruction word is there: Decode goes on after the reload, with the bits consumed before it. -/
theorem Hsqd.decodeFrom_word {h : Hsqd} {l u : Byte} {rest : List Byte} {p : List Bool} (caps : Caps)
    (hwin : window .ibuf h.ibuf h.pos h.inLen = .ok (l :: u :: rest))
    (hnone : classify (p ++ bufferBits h.bitbuf h.bitcnt) = none) :
    h.decodeFrom caps p = (h.reloaded (le16 l u)).decodeFrom caps (p ++ bufferBits h.bitbuf h.bitcnt) := by
  have hbit : h.drained.getBit = (h.reloaded (le16 l u)).getBit :=
    Hsqd.getBit_word rfl (Hsqd.rd16_cons (h := h.drained) hwin)
  rw [Hsqd.decodeFrom_drained caps hnone, Hsqd.decodeFrom_none hnone, hbit, Hsqd.decodeFrom_none hnone]

/-! ## The steps of the machine -/

/-- Inside an instruction, a step whose buffer completes the prefix ends where Decode does. -/
theorem Hsqd.next_inside {h : Hsqd} {bs : List Byte} {p : List Bool} (caps : Caps) (hrun : h.st.status = .running)
    (hphase : h.phase = .body) (hpfx : h.pfx = some p) (hwin : window .ibuf h.ibuf h.pos h.inLen = .ok bs)
    (hbits : (classify (p ++ bufferBits h.bitbuf h.bitcnt)).isSome = true) :
    h.next caps = ({ h with pfx := none } : Hsqd).decodeFrom caps p := by
  rw [Hsqd.next, if_pos hrun, ← Hsqd.perform_complete caps hwin hbits]
  simp only [fetchHsqd, hphase, hpfx]

/-- A word of sixteen bits completes every prefix. -/
theorem classify_word (p : List Bool) (w : Half) : (classify (p ++ bufferBits w 16)).isSome = true := by
  apply classify_isSome
  rw [List.length_append, bufferBits_length]
  omega

/-- From an instruction boundary, one step of HSQD is the body step, or it stops after the reload and the next one
goes on to where the body step ends. -/
theorem Hsqd.next_refines {caps : Caps} {h : Hsqd} (hi : h.Inv caps) (hrun : h.st.status = .running)
    (hphase : h.phase = .body) (hpfx : h.pfx = none) :
    h.next caps = h.bodyStep caps ∨ ∃ h', h.next caps = .ok h' ∧ h'.next caps = h.bodyStep caps := by
  rw [Hsqd.next, if_pos hrun]
  by_cases hpos : h.pos = h.inLen
  case pos =>
    rw [fetchHsqd_endInput hphase hpfx hpos, Hsqd.bodyStep, if_pos hpos]
    exact .inl rfl
  obtain ⟨hib, -⟩ := hi
  obtain ⟨bs, hwin, -, -⟩ := window_ok (sp := .ibuf) (a := h.pos) hib.filled le_rfl
  rw [fetchHsqd_body hphase hpos, hpfx, Option.getD_none, Hsqd.bodyStep_eq hpos]
  cases hbits : classify ([] ++ bufferBits h.bitbuf h.bitcnt) with
  | some k =>
    left
    rw [Hsqd.perform_complete caps hwin (by rw [hbits]; rfl), ← hpfx]
  | none =>
    match bs, hwin with
    | [], hwin => exact .inl (Hsqd.perform_no_word caps hwin Nat.zero_lt_two hpfx hbits)
    | [_], hwin => exact .inl (Hsqd.perform_no_word caps hwin Nat.one_lt_two hpfx hbits)
    | l :: u :: rest, hwin =>
      have hwin' := window_drop_two hwin
      refine .inr ⟨_, Hsqd.perform_word caps hwin hbits, ?_⟩
      refine (Hsqd.next_inside (h := { h.reloaded (le16 l u) with pfx := some _ }) caps hrun hphase rfl hwin'
        (classify_word _ _)).trans ?_
      rw [Hsqd.decodeFrom_word caps hwin hbits, Hsqd.reloaded, hpfx]

/-- Settles O17: the one or two steps of `Hsqd.next_refines`, which answer a state since the invariant is kept. -/
theorem smallStepsRefineBodyStep : Obligations.SmallStepsRefineBodyStep := by
  intro s hi hrun hphase hpfx
  obtain ⟨hh, -⟩ := hi
  obtain ⟨h₁, hnext, hh₁⟩ := hh.next
  have hstep : engineStep .hsqd s = .next (s.setHsqd h₁) := by rw [engineStep_hsqd_eq, onHsqd_ok hnext]
  rcases Hsqd.next_refines hh hrun hphase hpfx with hone | ⟨h', hfirst, hsecond⟩
  · refine ⟨h₁, 1, hone.symm.trans hnext, le_rfl, one_le_two, ?_⟩
    rw [runEngine, hstep]
    rfl
  · cases hfirst.symm.trans hnext
    obtain ⟨h₂, hnext₂, -⟩ := hh₁.next
    refine ⟨h₂, 2, hsecond.symm.trans hnext₂, one_le_two, le_rfl, ?_⟩
    have hstep₂ : engineStep .hsqd (s.setHsqd h₁) = .next (s.setHsqd h₂) := by
      rw [engineStep_hsqd_eq, onHsqd_ok (s := s.setHsqd h₁) hnext₂, State.setHsqd_setHsqd]
    rw [runEngine, hstep]
    simp only [runEngine, hstep₂]

end Sys2Proof.Machine
end

section
/-! PROOFS. What a run of pixel pairs and a byte of a packed row emit (O26). -/

namespace Sys2Proof.Machine

theorem repCount_eq (c : BitVec 7) : repCount c = 129 - c.toNat := by
  rw [repCount, repCmd, repByte_toNat]
  omega

theorem repCmd_eq (c : BitVec 7) : repCmd c = BitVec.ofNat 8 (128 + c.toNat) := by
  rw [repCmd, ← repByte_toNat, BitVec.ofNat_toNat, BitVec.setWidth_eq]

/-- Emitting pairs writes the pixel array, as R217 says, and the column counter. -/
theorem Imgd.emitPairs_emits (vs : List Byte) (m : Imgd) : ∃ px, EmitResult m (nibbles vs) px ∧
    Imgd.emitPairs vs m = { m with pixels := px, x := m.x + 2 * vs.length } := by
  refine ⟨_, ?_, Imgd.emitPairs_eq vs m⟩
  rw [Imgd.emitPairs_eq_emitAll]
  exact Imgd.emitAll_pixels _ _

/-- RLE_REPEAT (R225) emits its byte `129 − c` times. -/
theorem exec_rep (c : BitVec 7) (v : Byte) (s : State) :
    ∃ px, EmitResult s.imgd (nibbles (List.replicate (129 - c.toNat) v)) px ∧
      exec (.rep c v) s = .next (s.setImgd
        { s.imgd with
          cmd := BitVec.ofNat 8 (128 + c.toNat), count := 129 - c.toNat, v := v, s := s.imgd.s + 2,
          x := s.imgd.x + 2 * (129 - c.toNat), pixels := px,
          lineRemain := s.imgd.lineRemain - 2 * (129 - c.toNat : Nat) }) := by
  obtain ⟨px, hpx, hemit⟩ := Imgd.emitPairs_emits (List.replicate (129 - c.toNat) v)
    { s.imgd with cmd := repCmd c, count := repCount c, v := v, s := s.imgd.s + 2 }
  rw [List.length_replicate] at hemit
  refine ⟨px, hpx, onImgd_ok (f := repOp c v) ?_⟩
  simp only [repOp, repCount_eq, repCmd_eq] at hemit ⊢
  rw [hemit, Imgd.afterRun]

/-- RLE_LITERAL (R226) emits its bytes in turn. -/
theorem exec_litr (v0 : Byte) (vs : List Byte) (s : State) :
    ∃ px, EmitResult s.imgd (nibbles (v0 :: vs)) px ∧
      exec (.litr (v0 :: vs)) s = .next (s.setImgd
        { s.imgd with
          cmd := BitVec.ofNat 8 vs.length, count := vs.length + 1, v := (v0 :: vs).getLastD 0,
          s := s.imgd.s + 2 + vs.length, x := s.imgd.x + 2 * (vs.length + 1), pixels := px,
          lineRemain := s.imgd.lineRemain - 2 * (vs.length + 1 : Nat) }) := by
  obtain ⟨px, hpx, hemit⟩ := Imgd.emitPairs_emits (v0 :: vs)
    { s.imgd with
      cmd := litrCmd (v0 :: vs), count := vs.length + 1, v := (v0 :: vs).getLastD s.imgd.v,
      s := s.imgd.s + 1 + (vs.length + 1) }
  have hcur : s.imgd.s + 1 + (vs.length + 1) = s.imgd.s + 2 + vs.length := by omega
  refine ⟨px, hpx, onImgd_ok (f := litrOp (v0 :: vs)) ?_⟩
  rw [litrOp, List.length_cons, hemit, Imgd.afterRun, hcur]
  rfl

/-- Settles O26: each emits the nibbles of its bytes (`Imgd.emitPairs_emits`). -/
theorem pixelRunsEmit : Obligations.PixelRunsEmit := by
  refine ⟨exec_rep, fun v0 vs s _ => exec_litr v0 vs s, fun v s => ?_⟩
  obtain ⟨px, hpx, hemit⟩ := Imgd.emitPairs_emits [v] { s.imgd with v := v, s := s.imgd.s + 1 }
  exact ⟨px, hpx, onImgd_ok (f := pairOp v) (congrArg Except.ok hemit)⟩

end Sys2Proof.Machine
end

section
/-! PROOFS. The palette that COMPOSE fills (O30). -/

namespace Sys2Proof.Machine

/-- The composed palette is `composeSlot` at each of its 256 slots (R232). -/
theorem composed_palette_getElem? (sp : SubPalette) (dflt : Color) {j : Nat} (hj : j < 256) :
    (composed sp dflt).palette[j]? = some (composeSlot sp dflt j) := by
  simp [composed, hj]

theorem slotRange_iff {sp : SubPalette} : slotRange sp = true ↔ 256 < sp.loc.toNat + sp.colors.length := by
  rw [slotRange, decide_eq_true_eq]

/-- The slots of a subpalette that fits hold its colours (R232). -/
theorem composeSlot_color {sp : SubPalette} (dflt : Color) {j : Nat} (hj : j < sp.colors.length)
    (hfit : sp.loc.toNat + sp.colors.length ≤ 256) :
    some (composeSlot sp dflt (sp.loc.toNat + j)) = sp.colors[j]? := by
  rw [composeSlot, if_neg (slotRange_iff.not.mpr (Nat.not_lt.mpr hfit)), if_pos (Nat.le_add_right _ _),
    Nat.add_sub_cancel_left, List.getD_eq_getElem _ _ hj, List.getElem?_eq_getElem hj]

/-- Every other slot holds the default, and so do all of them where the colours do not fit (R232, R233). -/
theorem composeSlot_default {sp : SubPalette} (dflt : Color) {j : Nat}
    (h : 256 < sp.loc.toNat + sp.colors.length ∨ j < sp.loc.toNat ∨ sp.loc.toNat + sp.colors.length ≤ j) :
    composeSlot sp dflt j = dflt := by
  rw [composeSlot]
  split
  · rfl
  · rename_i hfit
    rw [slotRange_iff] at hfit
    split
    · exact List.getD_eq_default _ _ (by omega)
    · rfl

/-- R353: the records of a run that is DONE are readable, and no others. -/
theorem readSubpal_eq (j : Nat) (s : State) :
    readSubpal j s = if s.imgd.st.status = .done then s.imgd.subpals[j]? else none := by
  by_cases hdone : s.imgd.st.status = .done
  · simp only [readSubpal, readImgd, if_pos hdone]
  · simp only [readSubpal, readImgd, if_neg hdone]

/-- A step in which the host has a move pending is that move. -/
theorem step_host {s : State} {mv : HostMove} {q : List HostMove} (hq : s.hostq = mv :: q) :
    step s = hostStep mv (s.setHostq q) := by
  rw [step, hq]

/-- Settles O30: slot by slot, and the move by what it may read. -/
theorem composeFillsPalette : Obligations.ComposeFillsPalette := by
  refine ⟨fun sp dflt s => ⟨composed sp dflt, rfl, slotRange_iff, fun j hj hfit => ?_, fun j hj hslot => ?_⟩,
    fun s q j dflt hq => ⟨fun sp hdone hget => ?_, fun hnot => ?_⟩⟩
  · rw [composed_palette_getElem? sp dflt (by omega), composeSlot_color dflt hj hfit]
  · rw [composed_palette_getElem? sp dflt hj, composeSlot_default dflt hslot]
  · have hread : readSubpal j (s.setHostq q) = some sp := by
      rw [readSubpal_eq, State.setHostq_imgd, if_pos hdone, hget]
    simp only [step_host hq, hostStep, hread]
  · have hread : readSubpal j (s.setHostq q) = none := by
      rw [readSubpal_eq, State.setHostq_imgd]
      split
      · rename_i hdone
        exact List.getElem?_eq_none (hnot.resolve_left (not_not_intro hdone))
      · rfl
    simp only [step_host hq, hostStep, hread]

end Sys2Proof.Machine
end

section
/-! PROOFS. What the decoders of IMGD answer where bytes are missing, and the header of an image part (R113). -/

namespace Sys2Proof

/-- Where the first two bytes are not there, nothing has been read (R12). -/
theorem decode_word_short {ctx : Ctx} {bs : List Byte} (hctx : ctx ∈ [Ctx.oas, .pal, .offs, .part])
    (hshort : bs.length < 2) : decode ctx bs = .error (.short 0) := by
  simp only [List.mem_cons, List.not_mem_nil, or_false] at hctx
  match bs, hshort with
  | [], _ => rcases hctx with rfl | rfl | rfl | rfl <;> rfl
  | [_], _ => rcases hctx with rfl | rfl | rfl | rfl <;> rfl

/-! ## The range of a part -/

theorem le16_ne_zero {l u : Byte} (h : l ≠ 0 ∨ u ≠ 0) : le16 l u ≠ 0 := by
  intro hz
  have hl : l = 0 := by rw [← loByte_le16 l u, hz]; rfl
  have hu : u = 0 := by rw [← hiByte_le16 l u, hz]; rfl
  exact h.elim (· hl) (· hu)

/-- An image part's header (R113, R213): bit 15 of `cw` selects its kind. -/
theorem decodePart_image {l u : Byte} (h p : Byte) (d : List Byte) (hcw : l ≠ 0 ∨ u ≠ 0) :
    decode .part (l :: u :: h :: p :: d) = .ok
      (if 0x7FFF < l.toNat + 256 * u.toNat
        then .partRle (BitVec.ofNat 15 (l.toNat + 256 * u.toNat)) h p
        else .partRaw (BitVec.ofNat 15 (l.toNat + 256 * u.toNat)) h p, d) := by
  have hmsb : (le16 l u).msb = decide (0x7FFF < l.toNat + 256 * u.toNat) := by
    rw [BitVec.msb_eq_decide, le16_toNat]
    rfl
  have hwidth : (le16 l u).setWidth 15 = BitVec.ofNat 15 (l.toNat + 256 * u.toNat) := by
    rw [← le16_toNat, BitVec.ofNat_toNat]
  simp only [decode, decodePart, if_neg (le16_ne_zero hcw), hmsb, hwidth, decide_eq_true_eq]
  split <;> rfl

/-- A range that ends inside an image part's header. -/
theorem decodePart_cut {l u : Byte} {d : List Byte} (hcw : l ≠ 0 ∨ u ≠ 0) (hshort : d.length < 2) :
    decode .part (l :: u :: d) = .error (.short 2) := by
  simp only [decode, decodePart, if_neg (le16_ne_zero hcw)]
  match d, hshort with
  | [], _ => rfl
  | [_], _ => rfl

/-! ## The palette -/

theorem takeColors_eq_none {n : Nat} {bs : List Byte} (h : bs.length < 3 * n) : takeColors n bs = none := by
  match n, bs, h with
  | _ + 1, [], _ => rfl
  | _ + 1, [_], _ => rfl
  | _ + 1, [_, _], _ => rfl
  | n + 1, _ :: _ :: _ :: bs, h =>
    have ih : takeColors n bs = none := takeColors_eq_none (by simp only [List.length_cons] at h; omega)
    simp only [takeColors, ih]

/-- A record longer than the palette area (R206). -/
theorem decodePal_cut {loc cnt : Byte} {rest : List Byte} (hterm : ¬(loc = 0xFF ∧ cnt = 0xFF))
    (hcut : rest.length < 3 * cnt.toNat) : decode .pal (loc :: cnt :: rest) = .error (.short 2) := by
  simp only [decode, decodePal, if_neg hterm, takeColors_eq_none hcut]

/-! ## Tables of entries -/

/-- A table cut short: its whole entries have been read. -/
theorem takeHalves_cut {n : Nat} {bs : List Byte} (h : bs.length < 2 * n) :
    takeHalves n bs = .error (bs.length / 2) := by
  match n, bs, h with
  | _ + 1, [], _ => rfl
  | _ + 1, [_], _ => simp [takeHalves]
  | n + 1, _ :: _ :: bs, h =>
    have ih : takeHalves n bs = .error (bs.length / 2) :=
      takeHalves_cut (by simp only [List.length_cons] at h; omega)
    simp only [takeHalves, ih, List.length_cons, Nat.add_div_right _ Nat.zero_lt_two]

/-- R208 and R261: a table that announces more entries than there are bytes for. -/
theorem decodeEntries_cut (mk : List Half → Instr) {bs : List Byte}
    (hcut : bs.length < 2 ∨ bs.length < 2 * (((bs.getD 0 0).toNat + 256 * (bs.getD 1 0).toNat) / 2)) :
    decodeEntries mk bs = .error (.short (2 * (bs.length / 2))) := by
  match bs, hcut with
  | [], _ => rfl
  | [_], _ => simp [decodeEntries]
  | l :: u :: rest, hcut =>
    simp only [List.getD_cons_zero, List.getD_cons_succ, List.length_cons, ← le16_toNat] at hcut
    have htake : takeHalves (max ((le16 l u).toNat / 2) 1 - 1) rest = .error (rest.length / 2) :=
      takeHalves_cut (by omega)
    simp only [decodeEntries, htake, List.length_cons, Nat.add_div_right _ Nat.zero_lt_two]

end Sys2Proof
end

section
/-! PROOFS. A step of IMGD that reads an instruction runs it (O19), and the header of a part (O23, O24). -/

namespace Sys2Proof.Machine

/-- A step in which the host lets a RUNNING IMGD move runs what it fetches. -/
theorem step_imgd {s : State} {q : List HostMove} (hq : s.hostq = .run .imgd :: q)
    (hrun : s.imgd.st.status = .running) : step s = (fetchImgd s.caps s.imgd).run (s.setHostq q).setImgd := by
  rw [step_run hq, engineStep_imgd (s := s.setHostq q) hrun, State.setHostq_caps, State.setHostq_imgd]

/-- What the bytes of the range that the phase reads decode to is fetched, and the state is left as it is. -/
theorem fetchImgd_instr {caps : Caps} {m : Imgd} {ctx : Ctx} {a lim : Nat} {bs rest : List Byte} {i : Instr}
    (hreads : m.reads = some (ctx, a, lim)) (hwin : window .pbufImgd m.pbuf a lim = .ok bs)
    (hdec : decode ctx bs = .ok (i, rest)) : fetchImgd caps m = .instr i m := by
  cases hp : m.phase <;> simp only [Imgd.reads, hp] at hreads
  case frame => cases hreads
  case pointer | palette | offsets | header =>
    cases hreads
    simp only [fetchImgd, hp, Imgd.fetchPointer, Imgd.fetchPalette, Imgd.fetchOffsets, Imgd.fetchHeader,
      Fetch.withBytes, hwin, hdec]
  case rows | runs =>
    split at hreads <;> cases hreads
    rename_i hin
    simp only [fetchImgd, hp, Imgd.fetchRows, Imgd.fetchRuns, if_pos hin.1, if_pos hin.2, Imgd.fetchData,
      Fetch.withBytes, hwin, hdec]

/-- A step of IMGD is `exec` of the instruction that the bytes of its range decode to. -/
theorem step_imgd_instr {s : State} {q : List HostMove} {ctx : Ctx} {a lim : Nat} {bs rest : List Byte} {i : Instr}
    (hq : s.hostq = .run .imgd :: q) (hrun : s.imgd.st.status = .running)
    (hreads : s.imgd.reads = some (ctx, a, lim)) (hwin : window .pbufImgd s.imgd.pbuf a lim = .ok bs)
    (hdec : decode ctx bs = .ok (i, rest)) : step s = exec i (s.setHostq q) := by
  rw [step_imgd hq hrun, fetchImgd_instr hreads hwin hdec]
  rfl

/-- Settles O19: the round trip gives back the instruction, which the step runs. -/
theorem imgdStepRunsDecoded : Obligations.ImgdStepRunsDecoded :=
  fun _ _ i _ _ _ rest hq hrun hreads hadm hwf hunk hwin =>
    step_imgd_instr hq hrun hreads hwin ((roundTrip i hwf).1 _ rest hadm hunk)

/-! ## The header of a part -/

theorem Imgd.reads_header {m : Imgd} (hp : m.phase = .header) : m.reads = some (.part, m.pstart, m.pend) := by
  rw [Imgd.reads, hp]

/-- A unit error with room in the log (R321). -/
theorem Imgd.unitError_logged {caps : Caps} {e : LogEntry} {cur : Nat} {next : Imgd → Imgd} {m : Imgd}
    (hroom : full caps.logCap m.skiplog.length = false) :
    m.unitError caps e cur next = next { m with skiplog := m.skiplog ++ [e] } :=
  if_neg (Bool.eq_false_iff.mp hroom)

/-- A unit error of a part with room in the log (R211, R321). -/
theorem Imgd.partError_logged {caps : Caps} {m : Imgd} (cause : UnitCause)
    (hroom : full caps.logCap m.skiplog.length = false) :
    m.partError caps cause =
      { m with
        skiplog := m.skiplog ++ [⟨.part, m.i, cause, m.pstart⟩], pixels := [], i := m.i + 1, phase := .frame } :=
  Imgd.unitError_logged hroom

/-- A range too short for `cw` (R213). -/
theorem fetchImgd_no_cw {caps : Caps} {m : Imgd} {bs : List Byte} (hp : m.phase = .header)
    (hwin : window .pbufImgd m.pbuf m.pstart m.pend = .ok bs) (hshort : bs.length < 2) :
    fetchImgd caps m = .control (m.partError caps .truncated) := by
  simp only [fetchImgd, hp, Imgd.fetchHeader, Fetch.withBytes, hwin,
    decode_word_short (ctx := .part) (by simp) hshort]
  match bs, hshort with
  | [], _ => rfl
  | [_], _ => rfl

/-- A range too short for the rest of an image part's header (R215). -/
theorem fetchImgd_header_cut {caps : Caps} {m : Imgd} {l u : Byte} {d : List Byte} (hp : m.phase = .header)
    (hwin : window .pbufImgd m.pbuf m.pstart m.pend = .ok (l :: u :: d)) (hcw : l ≠ 0 ∨ u ≠ 0)
    (hshort : d.length < 2) :
    fetchImgd caps m = .control (({ m with cw := le16 l u } : Imgd).partError caps .truncated) := by
  simp only [fetchImgd, hp, Imgd.fetchHeader, Fetch.withBytes, hwin, decodePart_cut hcw hshort]

/-- A range that begins with a zero `cw` is an UNKNOWN part (R213). -/
theorem step_partUnknown {s : State} {q : List HostMove} {raw : List Byte} (hq : s.hostq = .run .imgd :: q)
    (hrun : s.imgd.st.status = .running) (hp : s.imgd.phase = .header)
    (hwin : window .pbufImgd s.imgd.pbuf s.imgd.pstart s.imgd.pend = .ok (0 :: 0 :: raw)) :
    step s = exec (.partUnknown raw) (s.setHostq q) :=
  step_imgd_instr hq hrun (Imgd.reads_header hp) hwin (rest := []) rfl

/-- Settles O23: the decoder of a part's range, by its length and its first word. -/
theorem partHeaderDispatch : Obligations.PartHeaderDispatch := by
  intro s q bs hq hrun hp hwin
  refine ⟨fun hshort hroom => ?_, fun rest hbs => ?_, fun l u h p d hbs hcw => ?_,
    fun l u d hbs hcw hshort hroom => ?_⟩
  · rw [step_imgd_control hq hrun (fetchImgd_no_cw hp hwin hshort), Imgd.partError_logged _ hroom]
  · exact step_partUnknown hq hrun hp (hbs ▸ hwin)
  · exact step_imgd_instr hq hrun (Imgd.reads_header hp) (hbs ▸ hwin) (decodePart_image h p d hcw)
  · rw [step_imgd_control hq hrun (fetchImgd_header_cut hp (hbs ▸ hwin) hcw hshort),
      Imgd.partError_logged (m := { s.imgd with cw := le16 l u }) _ hroom, le16_eq_ofNat]

theorem exec_partUnknown {raw : List Byte} {s : State}
    (hroom : full s.caps.nPartCap s.imgd.unkparts.length = false) :
    exec (.partUnknown raw) s = .next (s.setImgd
      { s.imgd with
        cw := 0, s := s.imgd.pstart + 2 + raw.length,
        unkparts := s.imgd.unkparts ++ [⟨s.imgd.i, raw⟩], i := s.imgd.i + 1, phase := .frame }) :=
  onImgd_ok (if_neg (Bool.eq_false_iff.mp hroom))

/-- Settles O24: the step of an UNKNOWN part stores it. -/
theorem unknownPartStored : Obligations.UnknownPartStored := by
  refine ⟨fun _ _ hroom => exec_partUnknown hroom, fun s q raw hq hrun hp hwin hroom => ?_⟩
  rw [step_partUnknown hq hrun hp hwin, exec_partUnknown (s := s.setHostq q) hroom]
  exact ⟨_, rfl, rfl, rfl, rfl⟩

end Sys2Proof.Machine
end

section
/-! PROOFS. The tables of an image: the pointer and the offsets array (O20), and the palette loop (O21). -/

namespace Sys2Proof.Machine

/-! ## The pointer and the offsets array -/

theorem badOffsetsStart_iff {v plen : Nat} : badOffsetsStart v plen = true ↔ v < 2 ∨ plen < v := by
  rw [badOffsetsStart, Bool.or_eq_true, decide_eq_true_eq, decide_eq_true_eq]

/-- What R209 derives: the entries read are consistent where the first one is even and at least 2. -/
theorem arrayMismatch_iff {e0 : Half} {es : List Half} (hlen : es.length + 1 = max (e0.toNat / 2) 1) (oas : Nat) :
    arrayMismatch (((e0 :: es).take (e0.toNat / 2)).map (fun e => oas + e.toNat))
        (oas + 2 * (es.length + 1)) = true ↔
      e0.toNat % 2 = 1 ∨ e0.toNat < 2 := by
  cases hn : e0.toNat / 2 with
  | zero =>
    rw [List.take_zero, List.map_nil, arrayMismatch]
    exact iff_of_true rfl (.inr (by omega))
  | succ n =>
    rw [List.take_succ_cons, List.map_cons, arrayMismatch, bne_iff_ne]
    omega

/-- The pointer's bytes are not there (R201, R312). -/
theorem fetchImgd_pointer_cut {caps : Caps} {m : Imgd} {bs : List Byte} (hp : m.phase = .pointer)
    (hwin : window .pbufImgd m.pbuf 0 m.plen = .ok bs) (hshort : bs.length < 2) :
    fetchImgd caps m = .control (m.overrun 0 0) := by
  simp only [fetchImgd, hp, Imgd.fetchPointer, Fetch.withBytes, hwin,
    decode_word_short (ctx := .oas) (by simp) hshort]

/-- The offsets array is cut short (R208, R312). -/
theorem fetchImgd_offsets_cut {caps : Caps} {m : Imgd} {bs : List Byte} (hp : m.phase = .offsets)
    (hwin : window .pbufImgd m.pbuf m.oas.toNat m.plen = .ok bs)
    (hcut : bs.length < 2 ∨ bs.length < 2 * (((bs.getD 0 0).toNat + 256 * (bs.getD 1 0).toNat) / 2)) :
    fetchImgd caps m = .control (m.overrun m.oas.toNat (2 * (bs.length / 2))) := by
  simp only [fetchImgd, hp, Imgd.fetchOffsets, Fetch.withBytes, hwin, decode, decodeEntries_cut .offs hcut]

/-- An array whose first entry is even and at least 2 is read whole (R208, R209). -/
theorem exec_offs {e0 : Half} {es : List Half} (s : State) (hlen : es.length + 1 = max (e0.toNat / 2) 1)
    (heven : e0.toNat % 2 = 0) (htwo : 2 ≤ e0.toNat) :
    exec (.offs (e0 :: es)) s = .next (s.setImgd
      { s.imgd with
        tbs := e0, n := e0.toNat / 2, abs := (e0 :: es).map (fun e => s.imgd.oas.toNat + e.toNat),
        c := s.imgd.oas.toNat + 2 * (e0.toNat / 2), i := 0, phase := .frame }) := by
  have hcount : (e0 :: es).length = e0.toNat / 2 := by rw [List.length_cons]; omega
  have htake : (e0 :: es).take (e0.toNat / 2) = e0 :: es := List.take_of_length_le hcount.le
  have hmatch := (arrayMismatch_iff hlen s.imgd.oas.toNat).not.mpr (by omega)
  refine onImgd_ok ((if_neg hmatch).trans ?_)
  rw [List.headD_cons, htake, hcount]

/-- Settles O20: the checks of the two tables by what they test, and each table cut short is an overrun. -/
theorem imageTablesAreChecked : Obligations.ImageTablesAreChecked := by
  refine ⟨fun v s => ⟨fun hin => ?_, fun hout => ?_⟩, fun e0 es s hlen => ⟨fun hok => ?_, fun hbad => ?_⟩,
    fun s q bs hq hrun => ⟨fun hp hwin hshort => ?_, fun hp hwin hcut => ?_⟩⟩
  · exact onImgd_ok (if_neg (badOffsetsStart_iff.not.mpr (by omega)))
  · exact onImgd_ok (if_pos (badOffsetsStart_iff.mpr hout))
  · exact exec_offs s hlen hok.1 hok.2
  · exact ⟨_, onImgd_ok (if_pos ((arrayMismatch_iff hlen s.imgd.oas.toNat).mpr hbad)), rfl, rfl⟩
  · exact step_imgd_control hq hrun (fetchImgd_pointer_cut hp hwin hshort)
  · exact step_imgd_control hq hrun (fetchImgd_offsets_cut hp hwin hcut)

/-! ## The palette loop -/

theorem channelOut_iff {c : Color} :
    channelOut c = true ↔ 64 ≤ c.r.toNat ∨ 64 ≤ c.g.toNat ∨ 64 ≤ c.b.toNat := by
  simp only [channelOut, Bool.or_eq_true, decide_eq_true_eq, or_assoc]

/-- R203: a raw channel is stored times 4. -/
theorem scaleChannel_eq (v : Byte) : scaleChannel v = BitVec.ofNat 8 (4 * v.toNat) := by
  apply BitVec.eq_of_toNat_eq
  rw [scaleChannel, BitVec.toNat_shiftLeft, BitVec.toNat_ofNat, Nat.shiftLeft_eq, Nat.mul_comm]

theorem not_any_channelOut {raws : List Color}
    (hin : ∀ c ∈ raws, c.r.toNat < 64 ∧ c.g.toNat < 64 ∧ c.b.toNat < 64) : ¬raws.any channelOut = true := by
  rw [List.any_eq_true]
  rintro ⟨c, hc, hout⟩
  have hlt := hin c hc
  rw [channelOut_iff] at hout
  omega

/-- Fewer than two bytes are left of the palette area (R205). -/
theorem fetchImgd_palEnd {caps : Caps} {m : Imgd} {bs : List Byte} (hp : m.phase = .palette)
    (hwin : window .pbufImgd m.pbuf m.pcur m.oas.toNat = .ok bs) (hshort : bs.length < 2) :
    fetchImgd caps m = .control m.palEnd := by
  simp only [fetchImgd, hp, Imgd.fetchPalette, Fetch.withBytes, hwin,
    decode_word_short (ctx := .pal) (by simp) hshort]
  match bs, hshort with
  | [], _ => rfl
  | [_], _ => rfl

/-- A record is longer than the palette area (R206). -/
theorem fetchImgd_palOverrun {caps : Caps} {m : Imgd} {loc cnt : Byte} {rest : List Byte} (hp : m.phase = .palette)
    (hwin : window .pbufImgd m.pbuf m.pcur m.oas.toNat = .ok (loc :: cnt :: rest))
    (hterm : ¬(loc = 0xFF ∧ cnt = 0xFF)) (hcut : rest.length < 3 * cnt.toNat) :
    fetchImgd caps m = .control (m.palOverrun caps loc cnt) := by
  simp only [fetchImgd, hp, Imgd.fetchPalette, Fetch.withBytes, hwin, decodePal_cut hterm hcut]

/-- Settles O21: a record by its channels and the store, and the ends of the loop by the bytes that are left. -/
theorem paletteLoop : Obligations.PaletteLoop := by
  refine ⟨fun loc raws s => ⟨fun hin => ⟨fun hroom => ?_, fun hfull => ?_⟩, fun hout hroom => ?_⟩, fun _ => rfl,
    fun s q hq hrun hp => ⟨fun bs hwin hshort => ?_, fun loc cnt rest hwin hterm hcut hroom => ?_⟩⟩
  · simp only [← scaleChannel_eq]
    exact onImgd_ok ((if_neg (not_any_channelOut hin)).trans (if_neg (Bool.eq_false_iff.mp hroom)))
  · exact onImgd_ok ((if_neg (not_any_channelOut hin)).trans (if_pos hfull))
  · obtain ⟨c, hc, hlarge⟩ := hout
    have hany : raws.any channelOut = true := List.any_eq_true.mpr ⟨c, hc, channelOut_iff.mpr hlarge⟩
    exact onImgd_ok ((if_pos hany).trans (congrArg Except.ok (Imgd.unitError_logged hroom)))
  · exact step_imgd_control hq hrun (fetchImgd_palEnd hp hwin hshort)
  · exact step_imgd_control hq hrun ((fetchImgd_palOverrun hp hwin hterm hcut).trans
      (congrArg Fetch.control (Imgd.unitError_logged hroom)))

end Sys2Proof.Machine
end

section
/-! PROOFS. The parts of an image: their framing (O22), what an image part's header sets up (O25), and
`line_remain` (O28). -/

namespace Sys2Proof.Machine

/-! ## Framing -/

theorem badRange_iff {start stop len : Nat} : badRange start stop len = true ↔ stop < start ∨ len < stop := by
  rw [badRange, Bool.or_eq_true, decide_eq_true_eq, decide_eq_true_eq]

/-- The address pair of part `i` (R210): the last part ends where the payload does. -/
theorem fetchImgd_frame {caps : Caps} {m : Imgd} {start stop : Nat} (hp : m.phase = .frame) (hin : m.i < m.n)
    (hstart : m.abs[m.i]? = some start)
    (hstop : m.i + 1 < m.n ∧ m.abs[m.i + 1]? = some stop ∨ m.n = m.i + 1 ∧ stop = m.plen) :
    fetchImgd caps m = .control (m.framePart caps start stop) := by
  have hpair : (if m.i + 1 < m.n then m.abs[m.i + 1]? else some m.plen) = some stop := by
    rcases hstop with ⟨hnext, habs⟩ | ⟨hlast, rfl⟩
    · rw [if_pos hnext, habs]
    · rw [if_neg (by omega)]
  simp only [fetchImgd, hp, Imgd.fetchFrame, if_pos hin, hstart, hpair]

/-- After the last part the run ends (R230). -/
theorem fetchImgd_finish {caps : Caps} {m : Imgd} (hp : m.phase = .frame) (hout : m.n ≤ m.i) :
    fetchImgd caps m = .control { m with st := m.st.finish } := by
  simp only [fetchImgd, hp, Imgd.fetchFrame, if_neg (Nat.not_lt.mpr hout)]

theorem Imgd.framePart_badRange {caps : Caps} {m : Imgd} {start stop : Nat} (hbad : stop < start ∨ m.plen < stop)
    (hroom : full caps.logCap m.skiplog.length = false) :
    m.framePart caps start stop =
      { m with
        pstart := start, pend := stop, s := start, skiplog := m.skiplog ++ [⟨.part, m.i, .badRange, start⟩],
        pixels := [], i := m.i + 1, phase := .frame } :=
  (if_pos (badRange_iff.mpr hbad)).trans (Imgd.partError_logged _ hroom)

/-- Settles O22: the pair is checked, and there is none after the last part. -/
theorem partFraming : Obligations.PartFraming := by
  refine fun s q hq hrun hp => ⟨fun start stop hin hstart hstop => ?_, fun hout => ?_⟩
  · rw [step_imgd_control hq hrun (fetchImgd_frame hp hin hstart hstop)]
    refine ⟨fun hok => ?_, fun hbad hroom => ?_⟩
    · rw [Imgd.framePart, if_neg (badRange_iff.not.mpr (by omega))]
    · have hskip := Imgd.framePart_badRange (caps := s.caps) hbad hroom
      rw [← hp] at hskip
      rw [hskip]
  · exact step_imgd_control hq hrun (fetchImgd_finish hp hout)

/-! ## The header of an image part -/

/-- `cw` of a packed part (R213): bit 15 is clear. -/
theorem partWord_false (width : BitVec 15) : partWord false width = BitVec.ofNat 16 width.toNat := by
  apply BitVec.eq_of_toNat_eq
  have hlt := width.isLt
  rw [partWord_toNat, BitVec.toNat_ofNat, Bool.toNat_false, Nat.mod_eq_of_lt (by omega)]
  omega

/-- `cw` of an RLE part (R213): bit 15 is set. -/
theorem partWord_true (width : BitVec 15) : partWord true width = BitVec.ofNat 16 (0x8000 + width.toNat) := by
  apply BitVec.eq_of_toNat_eq
  have hlt := width.isLt
  rw [partWord_toNat, BitVec.toNat_ofNat, Bool.toNat_true, Nat.mod_eq_of_lt (by omega)]

/-- R220 with D26: two times the quarter of the width, rounded up. -/
theorem bplOf_eq (width : BitVec 15) : bplOf width = 2 * ((width.toNat + 3) / 4) := by
  rw [bplOf]
  omega

theorem lineQuantum_cast (width : BitVec 15) : (lineQuantum width : Int) = 4 * ((width.toNat + 3) / 4 : Nat) := by
  rw [lineQuantum, Nat.cast_mul]
  rfl

/-- The array is made, empty, and the rows are next (R215, R217). -/
theorem Imgd.openPart_made {caps : Caps} {rows : Imgd → Imgd} {m : Imgd}
    (hroom : exceeds caps.pixCap (m.width.toNat * m.height.toNat) = false) :
    m.openPart caps rows =
      rows { m with y := 0, x := 0, pixels := List.replicate (m.width.toNat * m.height.toNat) none } :=
  if_neg (Bool.eq_false_iff.mp hroom)

/-- The array passes `PIX_CAP` (R215, R317). -/
theorem Imgd.openPart_exceeds {caps : Caps} {rows : Imgd → Imgd} {m : Imgd}
    (hbig : exceeds caps.pixCap (m.width.toNat * m.height.toNat) = true) :
    m.openPart caps rows = m.fatal .capacityExceeded m.s :=
  if_pos hbig

/-- What the header of an RLE part sets up (R215, R223, R224). -/
theorem exec_partRle {width : BitVec 15} {height poff : Byte} {s : State}
    (hroom : exceeds s.caps.pixCap (width.toNat * height.toNat) = false) :
    exec (.partRle width height poff) s = .next (s.setImgd
      { s.imgd with
        cw := partWord true width, comp := true, width := width, height := height, poff := poff,
        s := s.imgd.pstart + 4, y := 0, x := 0, lineRemain := lineQuantum width,
        pixels := List.replicate (width.toNat * height.toNat) none, phase := .runs }) :=
  onImgd_ok (f := partRleOp width height poff)
    (congrArg Except.ok (Imgd.openPart_made (m := s.imgd.setHeader true width height poff) hroom))

/-- Settles O25: the array is made or passes `PIX_CAP`, and the rows of a packed part fit its range or do not. -/
theorem imagePartOpens : Obligations.ImagePartOpens := by
  intro width height poff s
  rw [← partWord_false, ← partWord_true, ← bplOf_eq, ← lineQuantum_cast]
  refine ⟨fun hroom => ⟨fun hfits => ?_, fun hshort hlog => ?_, exec_partRle hroom⟩, fun hbig => ⟨?_, ?_⟩⟩
  · refine onImgd_ok (f := partRawOp width height poff) (congrArg Except.ok ?_)
    exact (Imgd.openPart_made hroom).trans (if_neg (Nat.not_lt.mpr hfits))
  · refine onImgd_ok (f := partRawOp width height poff) (congrArg Except.ok ?_)
    exact (Imgd.openPart_made hroom).trans ((if_pos hshort).trans (Imgd.partError_logged _ hlog))
  · refine onImgd_ok (f := partRawOp width height poff) (congrArg Except.ok ?_)
    exact Imgd.openPart_exceeds hbig
  · refine onImgd_ok (f := partRleOp width height poff) (congrArg Except.ok ?_)
    exact Imgd.openPart_exceeds hbig

/-! ## `line_remain` -/

/-- A row of an RLE part is over when `line_remain` is used up (R223, R227). -/
theorem fetchImgd_row_end {caps : Caps} {m : Imgd} (hp : m.phase = .runs) (hy : m.y < m.height.toNat)
    (hline : m.lineRemain ≤ 0) :
    fetchImgd caps m = .control { m with y := m.y + 1, x := 0, lineRemain := lineQuantum m.width } := by
  simp only [fetchImgd, hp, Imgd.fetchRuns, if_pos hy, if_neg (Int.not_lt.mpr hline)]

/-- A run lowers `line_remain` by `2 · count`, and its count is at most 129 (R115, R225, R226). -/
theorem exec_run_lineRemain {i : Instr} {count : Nat} (s : State) (hwf : i.wf = true)
    (hrun : (∃ c v, i = .rep c v ∧ count = 129 - c.toNat) ∨ ∃ vs, i = .litr vs ∧ count = vs.length) :
    count ≤ 129 ∧ ∃ m, exec i s = .next (s.setImgd m) ∧ m.lineRemain = s.imgd.lineRemain - 2 * count := by
  rcases hrun with ⟨c, v, rfl, rfl⟩ | ⟨vs, rfl, rfl⟩
  · obtain ⟨px, -, hexec⟩ := exec_rep c v s
    exact ⟨Nat.sub_le _ _, _, hexec, rfl⟩
  · simp only [Instr.wf, Bool.and_eq_true, decide_eq_true_eq] at hwf
    cases vs with
    | nil => exact absurd hwf.1 (Nat.not_succ_le_zero 0)
    | cons v0 vs =>
      obtain ⟨px, -, hexec⟩ := exec_litr v0 vs s
      exact ⟨hwf.2.trans (by decide), _, hexec, rfl⟩

/-- Settles O28: the header and the end of a row give a fresh `line_remain`, and the count of a run bounds what it
leaves. -/
theorem lineRemainRule : Obligations.LineRemainRule := by
  refine ⟨fun width => ?_, fun width height poff s hroom => ⟨_, exec_partRle hroom, rfl⟩,
    fun s q hq hrun hp hy hline => step_imgd_control hq hrun (fetchImgd_row_end hp hy hline),
    fun i count s hwf hrun => ?_⟩
  · have hlt := width.isLt
    rw [lineQuantum]
    omega
  · obtain ⟨hcount, m, hexec, hline⟩ := exec_run_lineRemain s hwf hrun
    refine ⟨m, hexec, hline, fun hpos heven hmax => ?_⟩
    rw [hline]
    omega

end Sys2Proof.Machine
end

section
/-! PROOFS. A step of TXTP that reads an instruction runs it (O31). -/

namespace Sys2Proof.Machine

/-- A step in which the host lets a RUNNING TXTP move runs what it fetches. -/
theorem step_txtp {s : State} {q : List HostMove} (hq : s.hostq = .run .txtp :: q)
    (hrun : s.txtp.st.status = .running) : step s = (fetchTxtp s.caps s.txtp).run (s.setHostq q).setTxtp := by
  rw [step_run hq, engineStep_txtp (s := s.setHostq q) hrun, State.setHostq_caps, State.setHostq_txtp]

theorem step_txtp_instr {s : State} {q : List HostMove} {i : Instr} (hq : s.hostq = .run .txtp :: q)
    (hrun : s.txtp.st.status = .running) (hf : fetchTxtp s.caps s.txtp = .instr i s.txtp) :
    step s = exec i (s.setHostq q) := by
  rw [step_txtp hq hrun, hf]
  rfl

theorem step_txtp_control {s : State} {q : List HostMove} {x : Txtp} (hq : s.hostq = .run .txtp :: q)
    (hrun : s.txtp.st.status = .running) (hf : fetchTxtp s.caps s.txtp = .control x) :
    step s = .next ((s.setHostq q).setTxtp x) := by
  rw [step_txtp hq hrun, hf]
  rfl

/-- What the bytes of the range that the phase reads decode to is fetched (R261, R267). -/
theorem fetchTxtp_instr {caps : Caps} {x : Txtp} {ctx : Ctx} {a lim : Nat} {bs rest : List Byte} {i : Instr}
    (hreads : x.reads = some (ctx, a, lim)) (hwin : window .pbufTxtp x.pbuf a lim = .ok bs)
    (hdec : decode ctx bs = .ok (i, rest)) : fetchTxtp caps x = .instr i x := by
  cases hp : x.phase <;> simp only [Txtp.reads, hp] at hreads
  case index =>
    cases hreads
    simp only [fetchTxtp, hp, Txtp.fetchIndex, Fetch.withBytes, hwin, hdec]
  case raw =>
    split at hreads <;> cases hreads
    rename_i hlt
    simp only [fetchTxtp, hp, Txtp.fetchRaw, if_pos hlt, Fetch.withBytes, hwin, hdec]
  all_goals cases hreads

/-- What the items that the phase reads decode to is fetched (R270, R271). -/
theorem fetchTxtp_instr_items {caps : Caps} {x : Txtp} {ctx : ItemCtx} {a : Nat} {rest : List Item} {i : Instr}
    (hreads : x.readsItems = some (ctx, a)) (hdec : decodeItems ctx (x.w.drop a) = .ok (i, rest)) :
    fetchTxtp caps x = .instr i x := by
  cases hp : x.phase <;> simp only [Txtp.readsItems, hp] at hreads
  case scan =>
    split at hreads
    · rename_i ins hins
      obtain ⟨p, hfind, hpair⟩ := Option.map_eq_some_iff.mp hreads
      cases hpair
      simp only [fetchTxtp, hp, Txtp.fetchScan, hins, hfind, hdec]
    · cases hreads
  case params =>
    split at hreads
    · rename_i ins hins
      obtain ⟨prm, hprm, hpair⟩ := Option.map_eq_some_iff.mp hreads
      cases hpair
      simp only [fetchTxtp, hp, Txtp.fetchParams, hins, hprm, hdec]
    · cases hreads
  all_goals cases hreads

/-- The contexts that TXTP reads from its payload are its own. -/
theorem Txtp.reads_engine {x : Txtp} {ctx : Ctx} {a lim : Nat} (hreads : x.reads = some (ctx, a, lim)) :
    ctx.engine = .txtp := by
  unfold Txtp.reads at hreads
  split at hreads
  · cases hreads
    rfl
  · split at hreads <;> cases hreads
    rfl
  · cases hreads

/-- An instruction of one character byte is the one its byte decodes to (R121). -/
theorem eq_decodeChar {charset : Charset} {b : Byte} {i : Instr} (hwf : i.wf = true)
    (hadm : (Ctx.char charset).admits i = true) (henc : i.encode = [b]) : i = decodeChar charset b := by
  have hdec := (roundTrip i hwf).1 (.char charset) [] hadm fun _ _ => rfl
  rw [henc] at hdec
  exact (congrArg Prod.fst (Except.ok.inj hdec)).symm

theorem fetchTxtp_final_byte {caps : Caps} {x : Txtp} {b : Byte} (hp : x.phase = .final)
    (hat : x.w[x.outText.length]? = some (.B b)) : fetchTxtp caps x = .instr (decodeChar x.charset b) x := by
  simp only [fetchTxtp, hp, Txtp.fetchFinal, hat]

/-- Settles O31: the round trip gives back the instruction, which the step runs. -/
theorem txtpStepRunsDecoded : Obligations.TxtpStepRunsDecoded := by
  refine ⟨fun s q i ctx a lim rest hq hrun hreads hadm hwf hwin => ?_,
    fun s q i ctx a rest hq hrun hreads hadm hwf hitems => ?_, fun s q i b hq hrun hp hat hwf hadm henc => ?_⟩
  · have hown := engineOf_of_admits hadm
    rw [Txtp.reads_engine hreads] at hown
    have hunk : ∀ raw, i = .partUnknown raw → rest = [] := by
      rintro raw rfl
      cases hown
    exact step_txtp_instr hq hrun (fetchTxtp_instr hreads hwin ((roundTrip i hwf).1 ctx rest hadm hunk))
  · have hdec := (roundTrip i hwf).2 ctx rest hadm
    rw [← hitems] at hdec
    exact step_txtp_instr hq hrun (fetchTxtp_instr_items hreads hdec)
  · rw [eq_decodeChar hwf hadm henc]
    exact step_txtp_instr hq hrun (fetchTxtp_final_byte hp hat)

end Sys2Proof.Machine
end

section
/-! PROOFS. Characters: what a character byte decodes to (O34), the charset decode of a sentence (O35), and the
final decode of the working sequence (O42). -/

namespace Sys2Proof.Machine

/-! ## One character -/

theorem isNewline_eq_false {b : Byte} (hfe : b ≠ 0xFE) (h0d : b ≠ 0x0D) : isNewline b = false := by
  rw [isNewline, beq_false_of_ne hfe, beq_false_of_ne h0d]
  rfl

theorem charDecode_override {charset : Charset} {b : Byte} {ch : Char} (hnl : isNewline b = false)
    (hget : Charset.get charset b = some ch) : charDecode charset b = ch := by
  rw [charDecode, hnl, hget]
  rfl

theorem charDecode_direct {charset : Charset} {b : Byte} (hnl : isNewline b = false)
    (hget : Charset.get charset b = none) : charDecode charset b = chr b := by
  rw [charDecode, hnl, hget]
  rfl

theorem chr_eq {b : Byte} {ch : Char} (hch : ch.toNat = b.toNat) : chr b = ch := by
  rw [chr, ← hch, Char.ofNat_toNat]

/-- Every character instruction puts the character of its byte (R266). -/
theorem exec_char {charset : Charset} {i : Instr} {b : Byte} (hadm : (Ctx.char charset).admits i = true)
    (henc : i.encode = [b]) (s : State) :
    exec i s = .next (s.setTxtp (s.txtp.putChar (charDecode s.txtp.charset b))) := by
  cases i <;> simp only [Ctx.admits, Bool.false_eq_true] at hadm <;> cases henc <;> rfl

theorem Txtp.putChar_final {x : Txtp} (hp : x.phase = .final) (ch : Char) :
    x.putChar ch = { x with outText := x.outText ++ [ch] } :=
  if_pos hp

theorem Txtp.putChar_raw {x : Txtp} (hp : x.phase ≠ .final) (ch : Char) :
    x.putChar ch = { x with rawText := x.rawText ++ [ch], c := x.c + 1 } :=
  if_neg hp

/-- Settles O34: each case is the instruction of a byte whose character is the one given. -/
theorem charactersDecode : Obligations.CharactersDecode := by
  intro s i ch hi
  obtain ⟨b, hadm, henc, hch⟩ : ∃ b, (Ctx.char s.txtp.charset).admits i = true ∧ i.encode = [b] ∧
      charDecode s.txtp.charset b = ch := by
    rcases hi with ⟨rfl, rfl⟩ | ⟨rfl, rfl⟩ | ⟨b, rfl, hfe, h0d, hget⟩ | ⟨b, rfl, hfe, h0d, hget, hcode⟩
    · exact ⟨0xFE, rfl, rfl, rfl⟩
    · exact ⟨0x0D, rfl, rfl, rfl⟩
    · exact ⟨b, by rw [Ctx.admits, hget]; rfl, rfl, charDecode_override (isNewline_eq_false hfe h0d) hget⟩
    · exact ⟨b, by rw [Ctx.admits, hget]; rfl, rfl,
        (charDecode_direct (isNewline_eq_false hfe h0d) hget).trans (chr_eq hcode)⟩
  rw [exec_char hadm henc, hch]
  exact ⟨fun hp => by rw [Txtp.putChar_raw hp], fun hp => by rw [Txtp.putChar_final hp]⟩

/-! ## The charset decode of a sentence -/

theorem runEngine_succ_of_next {e : Engine} {n : Nat} {s t : State} (hstep : engineStep e s = .next t) :
    runEngine e (n + 1) s = runEngine e n t := by
  rw [runEngine, hstep]

/-- A step that fetches the character of a byte puts it. -/
theorem engineStep_char {s : State} {b : Byte} (hrun : s.txtp.st.status = .running)
    (hf : fetchTxtp s.caps s.txtp = .instr (decodeChar s.txtp.charset b) s.txtp) :
    engineStep .txtp s = .next (s.setTxtp (s.txtp.putChar (charDecode s.txtp.charset b))) := by
  obtain ⟨-, hadm, henc⟩ := decodeChar_sound s.txtp.charset b
  rw [engineStep_txtp hrun, hf]
  exact exec_char hadm henc s

/-- The steps that decode the bytes left of a sentence (R267), one a byte. -/
theorem runEngine_raw {bs : List Byte} {s : State} (hrun : s.txtp.st.status = .running)
    (hp : s.txtp.phase = .raw) (hwin : window .pbufTxtp s.txtp.pbuf s.txtp.c s.txtp.send = .ok bs) :
    runEngine .txtp bs.length s = .next (s.setTxtp
      { s.txtp with
        rawText := s.txtp.rawText ++ bs.map (charDecode s.txtp.charset), c := s.txtp.c + bs.length }) := by
  induction bs generalizing s with
  | nil =>
    rw [List.map_nil, List.append_nil]
    rfl
  | cons b bs ih =>
    obtain ⟨hlt, -, hwin'⟩ := window_cons hwin
    have hreads : s.txtp.reads = some (.char s.txtp.charset, s.txtp.c, s.txtp.send) := by
      simp only [Txtp.reads, hp, if_pos hlt]
    have hstep := engineStep_char hrun (fetchTxtp_instr hreads hwin (rest := bs) rfl)
    rw [Txtp.putChar_raw (by rw [hp]; nofun)] at hstep
    rw [List.length_cons, runEngine_succ_of_next hstep, ih]
    · simp only [State.setTxtp_txtp, State.setTxtp_setTxtp, List.append_assoc, List.singleton_append,
        List.map_cons, Nat.add_assoc, Nat.add_comm 1]
    · exact hrun
    · exact hp
    · exact hwin'

/-- Settles O35: the run from the start of the range. -/
theorem rawTextIsCharsetDecode : Obligations.RawTextIsCharsetDecode := by
  intro s bs hrun hp hc hraw hwin
  have hdone := runEngine_raw hrun hp (hc ▸ hwin)
  rw [hraw, hc, List.nil_append] at hdone
  exact ⟨window_length hwin, hdone⟩

/-! ## The final decode -/

/-- The character an item gives in the final decode (R280). -/
def finalChar (charset : Charset) : Item → Char
  | .B b => charDecode charset b
  | .C ch => ch

/-- A step of the final decode puts the character of its item. -/
theorem engineStep_final {s : State} {it : Item} (hrun : s.txtp.st.status = .running) (hp : s.txtp.phase = .final)
    (hat : s.txtp.w[s.txtp.outText.length]? = some it) :
    engineStep .txtp s = .next (s.setTxtp
      { s.txtp with outText := s.txtp.outText ++ [finalChar s.txtp.charset it] }) := by
  cases it with
  | B b => rw [engineStep_char hrun (fetchTxtp_final_byte hp hat), Txtp.putChar_final hp, finalChar]
  | C ch =>
    have hfetch : fetchTxtp s.caps s.txtp = .control { s.txtp with outText := s.txtp.outText ++ [ch] } := by
      simp only [fetchTxtp, hp, Txtp.fetchFinal, hat]
    rw [engineStep_txtp hrun, hfetch]
    rfl

/-- The steps that decode the items left of the working sequence (R280), one an item. -/
theorem runEngine_final {items : List Item} {s : State} (hrun : s.txtp.st.status = .running)
    (hp : s.txtp.phase = .final) (hleft : s.txtp.w.drop s.txtp.outText.length = items) :
    runEngine .txtp items.length s = .next (s.setTxtp
      { s.txtp with outText := s.txtp.outText ++ items.map (finalChar s.txtp.charset) }) := by
  induction items generalizing s with
  | nil =>
    rw [List.map_nil, List.append_nil]
    rfl
  | cons it items ih =>
    have hat : s.txtp.w[s.txtp.outText.length]? = some it := by rw [← List.head?_drop, hleft, List.head?_cons]
    have hrest : s.txtp.w.drop (s.txtp.outText.length + 1) = items := by
      rw [← List.tail_drop, hleft, List.tail_cons]
    rw [List.length_cons, runEngine_succ_of_next (engineStep_final hrun hp hat), ih]
    · simp only [State.setTxtp_txtp, State.setTxtp_setTxtp, List.append_assoc, List.singleton_append, List.map_cons]
    · exact hrun
    · exact hp
    · rw [State.setTxtp_txtp, List.length_append, List.length_singleton, hrest]

/-- Settles O42: the run from the first item. -/
theorem finalDecode : Obligations.FinalDecode := by
  intro s hrun hp hout
  have hdone := runEngine_final hrun hp (items := s.txtp.w) (by rw [hout]; rfl)
  rw [hout, List.nil_append] at hdone
  refine ⟨hdone, fun bs hw => ?_⟩
  rw [hw, List.length_map, List.map_map] at hdone
  exact ⟨_, hdone, rfl⟩

end Sys2Proof.Machine
end

section
/-! PROOFS. The sentences: their index (O32), their framing (O33), and how each is stored (O43). -/

namespace Sys2Proof.Machine

/-! ## The index -/

/-- The entries of a table that R261 reads, of which the first `n` are kept (R262). -/
theorem take_entries {e0 : Half} {es : List Half} (hlen : es.length + 1 = max (e0.toNat / 2) 1) :
    (e0 :: es).take (e0.toNat / 2) = if e0.toNat < 2 then [] else e0 :: es := by
  split
  · rw [Nat.div_eq_of_lt ‹_›, List.take_zero]
  · exact List.take_of_length_le (by rw [List.length_cons]; omega)

/-- An index that does not fit (R263): the cursor stands behind its whole entries. -/
theorem fetchTxtp_index_cut {caps : Caps} {x : Txtp} {bs : List Byte} (hp : x.phase = .index)
    (hwin : window .pbufTxtp x.pbuf 0 x.plen = .ok bs)
    (hcut : bs.length < 2 ∨ bs.length < 2 * (((bs.getD 0 0).toNat + 256 * (bs.getD 1 0).toNat) / 2)) :
    fetchTxtp caps x =
      .control (({ x with c := 2 * (bs.length / 2) } : Txtp).fatal .unexpectedEnd (2 * (bs.length / 2))) := by
  simp only [fetchTxtp, hp, Txtp.fetchIndex, Fetch.withBytes, hwin, decode, decodeEntries_cut .tidx hcut]

/-- Settles O32: the entries kept, and the index cut short is an overrun. -/
theorem sentenceIndexRead : Obligations.SentenceIndexRead := by
  refine ⟨fun e0 es s hlen => ?_, fun s q bs hq hrun hp hwin hcut => ?_⟩
  · rw [← take_entries hlen]
    exact onTxtp_ok (f := tidxOp (e0 :: es)) rfl
  · exact step_txtp_control hq hrun (fetchTxtp_index_cut hp hwin hcut)

/-! ## Framing -/

/-- A unit error of a sentence with room in the log (R264, R321). -/
theorem Txtp.sentenceError_logged {caps : Caps} {x : Txtp} (cause : UnitCause)
    (hroom : full caps.logCap x.skiplog.length = false) :
    x.sentenceError caps cause =
      { x with
        skiplog := x.skiplog ++ [⟨.sentence, x.i, cause, x.sstart⟩], w := [], vals := [], rawText := [],
        outText := [], i := x.i + 1, phase := .frame } :=
  if_neg (Bool.eq_false_iff.mp hroom)

/-- The address pair of sentence `i` (R262). -/
theorem fetchTxtp_frame {caps : Caps} {x : Txtp} {start stop : Half} (hp : x.phase = .frame) (hin : x.i + 1 < x.n)
    (hstart : x.addr[x.i]? = some start) (hstop : x.addr[x.i + 1]? = some stop) :
    fetchTxtp caps x = .control (x.frameSentence caps start.toNat stop.toNat) := by
  simp only [fetchTxtp, hp, Txtp.fetchFrame, if_pos hin, hstart, hstop]

/-- After the last sentence the run ends (R282). -/
theorem fetchTxtp_finish {caps : Caps} {x : Txtp} (hp : x.phase = .frame) (hout : x.n ≤ x.i + 1) :
    fetchTxtp caps x = .control { x with st := x.st.finish } := by
  simp only [fetchTxtp, hp, Txtp.fetchFrame, if_neg (Nat.not_lt.mpr hout)]

theorem Txtp.frameSentence_badRange {caps : Caps} {x : Txtp} {start stop : Nat}
    (hbad : stop < start ∨ x.plen < stop) (hroom : full caps.logCap x.skiplog.length = false) :
    x.frameSentence caps start stop =
      { x with
        sstart := start, send := stop, c := start, skiplog := x.skiplog ++ [⟨.sentence, x.i, .badRange, start⟩],
        w := [], vals := [], rawText := [], outText := [], i := x.i + 1, phase := .frame } :=
  (if_pos (badRange_iff.mpr hbad)).trans (Txtp.sentenceError_logged _ hroom)

/-- Settles O33: the pair is checked, and there is none after the last sentence. -/
theorem sentenceFraming : Obligations.SentenceFraming := by
  refine fun s q hq hrun hp => ⟨fun start stop hin hstart hstop => ?_, fun hout => ?_⟩
  · rw [step_txtp_control hq hrun (fetchTxtp_frame hp hin hstart hstop)]
    refine ⟨fun hok => ?_, fun hbad hroom => ?_⟩
    · rw [Txtp.frameSentence, if_neg (badRange_iff.not.mpr (by omega))]
    · have hskip := Txtp.frameSentence_badRange (caps := s.caps) hbad hroom
      rw [← hp] at hskip
      rw [hskip]
  · exact step_txtp_control hq hrun (fetchTxtp_finish hp hout)

/-! ## Storing -/

theorem startTaken_iff {sentences : List Sentence} {start : Nat} :
    startTaken sentences start = true ↔ ∃ r ∈ sentences, r.startAddress = start := by
  simp only [startTaken, List.any_eq_true, beq_iff_eq]

/-- After the last item of the final decode the sentence is stored (R280, R282). -/
theorem fetchTxtp_store {caps : Caps} {x : Txtp} (hp : x.phase = .final) (hend : x.w.length ≤ x.outText.length) :
    fetchTxtp caps x = .control (x.storeSentence caps) := by
  simp only [fetchTxtp, hp, Txtp.fetchFinal, List.getElem?_eq_none hend]

theorem Txtp.storeSentence_stored {caps : Caps} {x : Txtp}
    (hroom : full caps.nSentCap x.sentences.length = false) :
    x.storeSentence caps =
      { x with
        dupStart := x.dupStart || startTaken x.sentences x.sstart,
        sentences := x.sentences ++ [⟨x.i, x.sstart, x.send, x.rawText, x.outText⟩], i := x.i + 1,
        phase := .frame } :=
  if_neg (Bool.eq_false_iff.mp hroom)

/-- Settles O43: the record that is stored, and the end of the run. -/
theorem sentenceStored : Obligations.SentenceStored := by
  refine fun s q hq hrun => ⟨fun hp hend hroom => ?_, fun hp hout => ?_⟩
  · rw [step_txtp_control hq hrun (fetchTxtp_store hp hend), Txtp.storeSentence_stored hroom]
    exact ⟨_, rfl, rfl, Bool.or_eq_true_iff.trans (or_congr_right startTaken_iff), rfl, rfl, rfl⟩
  · exact ⟨_, step_txtp_control hq hrun (fetchTxtp_finish hp hout), rfl, rfl⟩

end Sys2Proof.Machine
end

section
/-! PROOFS. Expansions: the loop over the table (O36), the parameters (O37, O38), the placeholder and how it takes
the place of the span (O39, O40), and the raw bytes that an expansion consumes (O41). -/

namespace Sys2Proof.Machine

/-! ## The loop over the table -/

theorem findByte_of_leftmost {t : Byte} {w : List Item} {p : Nat} (hat : w[p]? = some (.B t))
    (hleft : ∀ j < p, w[j]? ≠ some (.B t)) : findByte t w = some p := by
  cases hfind : findByte t w with
  | none => exact absurd (List.mem_of_getElem? hat) (findByte_none hfind)
  | some p' =>
    obtain ⟨hat', hleft'⟩ := findByte_some hfind
    rcases Nat.lt_trichotomy p' p with hlt | rfl | hgt
    · exact absurd hat' (hleft p' hlt)
    · rfl
    · exact absurd hat (hleft' p hgt)

theorem findByte_of_not_mem {t : Byte} {w : List Item} (hnot : Item.B t ∉ w) : findByte t w = none := by
  cases hfind : findByte t w with
  | none => rfl
  | some p => exact absurd (List.mem_of_getElem? (findByte_some hfind).1) hnot

/-- After the last byte of the sentence its working sequence is made (R267, R268). -/
theorem fetchTxtp_raw_end {caps : Caps} {x : Txtp} {bs : List Byte} (hp : x.phase = .raw) (hc : x.send ≤ x.c)
    (hwin : window .pbufTxtp x.pbuf x.sstart x.send = .ok bs) :
    fetchTxtp caps x = .control (x.startExpansion caps bs) := by
  simp only [fetchTxtp, hp, Txtp.fetchRaw, if_neg (Nat.not_lt.mpr hc), Fetch.withBytes, hwin]

/-- The items from an index on, where one stands there. -/
theorem drop_of_getElem? {w : List Item} {a : Nat} {it : Item} (hat : w[a]? = some it) :
    w.drop a = it :: w.drop (a + 1) := by
  obtain ⟨hlt, rfl⟩ := List.getElem?_eq_some_iff.mp hat
  exact List.drop_eq_getElem_cons hlt

/-- The items from an index on, cut at a later one. -/
theorem drop_eq_append {w : List Item} {q r : Nat} (hqr : q ≤ r) : w.drop q = (w.take r).drop q ++ w.drop r := by
  have hrest : (w.drop q).drop (r - q) = w.drop r := by rw [List.drop_drop, Nat.add_sub_cancel' hqr]
  rw [List.drop_take, ← hrest, List.take_append_drop]

/-- The leftmost raw trigger opens an expansion (R269, R270). -/
theorem fetchTxtp_trigger {caps : Caps} {x : Txtp} {ins : TextInstruction} {p : Nat} (hp : x.phase = .scan)
    (hins : x.itab[x.entry]? = some ins) (hat : x.w[p]? = some (.B ins.triggerByte))
    (hleft : ∀ j < p, x.w[j]? ≠ some (.B ins.triggerByte)) :
    fetchTxtp caps x = .instr (.tinstr ins.triggerByte) x := by
  have hreads : x.readsItems = some (.trigger ins.triggerByte, p) := by
    simp only [Txtp.readsItems, hp, hins, findByte_of_leftmost hat hleft, Option.map_some]
  refine fetchTxtp_instr_items hreads (rest := x.w.drop (p + 1)) ?_
  rw [drop_of_getElem? hat, decodeItems, decodeTrigger, if_pos rfl]

/-- With no raw trigger the loop goes on to the next entry (R269). -/
theorem fetchTxtp_scan_miss {caps : Caps} {x : Txtp} {ins : TextInstruction} (hp : x.phase = .scan)
    (hins : x.itab[x.entry]? = some ins) (hnot : Item.B ins.triggerByte ∉ x.w) :
    fetchTxtp caps x = .control { x with t := ins.triggerByte, entry := x.entry + 1 } := by
  simp only [fetchTxtp, hp, Txtp.fetchScan, hins, findByte_of_not_mem hnot]

/-- After the last entry comes the final decode (R269, R280). -/
theorem fetchTxtp_scan_end {caps : Caps} {x : Txtp} (hp : x.phase = .scan) (hend : x.itab.length ≤ x.entry) :
    fetchTxtp caps x = .control { x with outText := [], phase := .final } := by
  simp only [fetchTxtp, hp, Txtp.fetchScan, List.getElem?_eq_none hend]

theorem exec_tinstr {t : Byte} {s : State} {p : Nat} (hfind : findByte t s.txtp.w = some p) :
    exec (.tinstr t) s = .next (s.setTxtp
      { s.txtp with t := t, p := p, q := p + 1, vals := [], prm := 0, phase := .params }) := by
  apply onTxtp_ok (f := tinstrOp t)
  rw [tinstrOp, hfind]

/-- Settles O36: the start, the leftmost trigger, the miss and the end of the table, each by what is fetched. -/
theorem expansionLoop : Obligations.ExpansionLoop := by
  refine ⟨fun t p s hat hleft => exec_tinstr (findByte_of_leftmost hat hleft), fun s q hq hrun =>
    ⟨fun bs hp hc hwin => ?_, fun ins p hp hins hat hleft => ?_, fun ins hp hins hnot => ?_, fun hp hend => ?_⟩⟩
  · rw [step_txtp_control hq hrun (fetchTxtp_raw_end hp hc hwin)]
    exact ⟨fun hroom => by rw [Txtp.startExpansion, if_neg (Bool.eq_false_iff.mp hroom)],
      fun hbig => by rw [Txtp.startExpansion, if_pos hbig]; rfl⟩
  · exact step_txtp_instr hq hrun (fetchTxtp_trigger hp hins hat hleft)
  · exact step_txtp_control hq hrun (fetchTxtp_scan_miss hp hins hnot)
  · exact step_txtp_control hq hrun (fetchTxtp_scan_end hp hend)

/-! ## Parameters -/

theorem Txtp.readsItems_param {x : Txtp} {ins : TextInstruction} {prm : Param} (hp : x.phase = .params)
    (hins : x.itab[x.entry]? = some ins) (hprm : ins.params[x.prm]? = some prm) :
    x.readsItems = some (.param prm.mode, x.q) := by
  simp only [Txtp.readsItems, hp, hins, hprm, Option.map_some]

/-- A parameter that cannot be read (R281). -/
theorem fetchTxtp_param_overrun {caps : Caps} {x : Txtp} {ins : TextInstruction} {prm : Param} {e : DecodeError}
    (hp : x.phase = .params) (hins : x.itab[x.entry]? = some ins) (hprm : ins.params[x.prm]? = some prm)
    (hdec : decodeItems (.param prm.mode) (x.w.drop x.q) = .error e) :
    fetchTxtp caps x = .control (x.sentenceError caps .paramOverrun) := by
  simp only [fetchTxtp, hp, Txtp.fetchParams, hins, hprm, hdec]

theorem decodeParam_read8_error {items : List Item} (hno : ∀ b, items[0]? ≠ some (.B b)) :
    decodeParam .read8 items = .error .noRawByte := by
  match items, hno with
  | [], _ => rfl
  | .C _ :: _, _ => rfl
  | .B b :: _, hno => exact absurd rfl (hno b)

theorem decodeParam_read16_error {items : List Item}
    (hno : (∀ b, items[0]? ≠ some (.B b)) ∨ ∀ b, items[1]? ≠ some (.B b)) :
    decodeParam .read16 items = .error .noRawByte := by
  match items, hno with
  | [], _ => rfl
  | .C _ :: _, _ => rfl
  | [.B _], _ => rfl
  | .B _ :: .C _ :: _, _ => rfl
  | .B lo :: .B hi :: _, hno => exact hno.elim (fun h => absurd rfl (h lo)) (fun h => absurd rfl (h hi))

theorem exec_paramRead8 (v : Byte) (s : State) : exec (.paramRead8 v) s = .next (s.setTxtp
    { s.txtp with
      vals := s.txtp.vals ++ [numericValue (v.setWidth 16)], prm := s.txtp.prm + 1, q := s.txtp.q + 1 }) := rfl

theorem exec_paramRead16 (v : Half) (s : State) : exec (.paramRead16 v) s = .next (s.setTxtp
    { s.txtp with vals := s.txtp.vals ++ [numericValue v], prm := s.txtp.prm + 1, q := s.txtp.q + 2 }) := rfl

/-- Settles O37: the two reads, and a read that its decoder refuses drops the sentence. -/
theorem numericParameters : Obligations.NumericParameters := by
  refine ⟨fun v s => ?_, exec_paramRead16, fun s q ins prm hq hrun hp hins hprm hroom hno => ?_⟩
  · rw [BitVec.ofNat_toNat]
    exact exec_paramRead8 v s
  · have hdec : decodeItems (.param prm.mode) (s.txtp.w.drop s.txtp.q) = .error .noRawByte := by
      rcases hno with ⟨hmode, hno⟩ | ⟨hmode, hno⟩ <;> rw [hmode, decodeItems]
      · exact decodeParam_read8_error (by simpa using hno)
      · exact decodeParam_read16_error (by simpa using hno)
    rw [step_txtp_control hq hrun (fetchTxtp_param_overrun hp hins hprm hdec), Txtp.sentenceError_logged _ hroom]

theorem exec_paramReadUntil (captured : List Item) (t : Byte) (s : State) :
    exec (.paramReadUntil captured t) s = .next (s.setTxtp
      { s.txtp with
        vals := s.txtp.vals ++ [captured], prm := s.txtp.prm + 1, r := s.txtp.q + captured.length,
        q := s.txtp.q + captured.length + 1 }) := rfl

/-- The items from `q` on, cut at a raw byte `t` with none before it. -/
theorem splitAtByte_drop {t : Byte} {w : List Item} {q r : Nat} (hqr : q ≤ r) (hat : w[r]? = some (.B t))
    (hleft : ∀ j, q ≤ j → j < r → w[j]? ≠ some (.B t)) :
    splitAtByte t (w.drop q) = some ((w.take r).drop q, w.drop (r + 1)) := by
  have hnot : Item.B t ∉ (w.take r).drop q := by
    intro hmem
    obtain ⟨j, hj⟩ := List.mem_iff_getElem?.mp hmem
    rw [List.getElem?_drop, List.getElem?_take] at hj
    split at hj
    · exact hleft (q + j) (Nat.le_add_right q j) ‹_› hj
    · cases hj
  rw [drop_eq_append hqr, drop_of_getElem? hat, splitAtByte_append hnot]

theorem splitAtByte_drop_none {t : Byte} {w : List Item} {q : Nat} (hno : ∀ r, q ≤ r → w[r]? ≠ some (.B t)) :
    splitAtByte t (w.drop q) = none := by
  cases hsplit : splitAtByte t (w.drop q) with
  | none => rfl
  | some d =>
    obtain ⟨captured, rest⟩ := d
    have hat : (w.drop q)[captured.length]? = some (.B t) := by simp [(splitAtByte_some hsplit).1]
    rw [List.getElem?_drop] at hat
    exact absurd hat (hno _ (Nat.le_add_right q _))

/-- Settles O38: the items up to the terminator, or none and the sentence is dropped. -/
theorem readUntilCaptures : Obligations.ReadUntilCaptures := by
  refine ⟨exec_paramReadUntil, fun s q ins name t hq hrun hp hins hprm =>
    ⟨fun r hqr hat hleft => ?_, fun hno hroom => ?_⟩⟩
  · have hdec : decodeItems (.param (.readUntil t)) (s.txtp.w.drop s.txtp.q) =
        .ok (.paramReadUntil ((s.txtp.w.take r).drop s.txtp.q) t, s.txtp.w.drop (r + 1)) := by
      simp only [decodeItems, decodeParam, splitAtByte_drop hqr hat hleft]
    obtain ⟨hlt, -⟩ := List.getElem?_eq_some_iff.mp hat
    have hlen : s.txtp.q + ((s.txtp.w.take r).drop s.txtp.q).length = r := by
      rw [List.length_drop, List.length_take]
      omega
    rw [step_txtp_instr hq hrun (fetchTxtp_instr_items (Txtp.readsItems_param hp hins hprm) hdec),
      exec_paramReadUntil, State.setHostq_txtp, hlen]
  · have hdec : decodeItems (.param (.readUntil t)) (s.txtp.w.drop s.txtp.q) = .error .noTerminator := by
      simp only [decodeItems, decodeParam, splitAtByte_drop_none hno]
    rw [step_txtp_control hq hrun (fetchTxtp_param_overrun hp hins hprm hdec), Txtp.sentenceError_logged _ hroom]

/-! ## The placeholder -/

theorem usesElementForm_iff {prms : List Param} :
    usesElementForm prms = true ↔ ∃ name t, prms = [⟨name, .readUntil t⟩] := by
  constructor
  · intro h
    unfold usesElementForm at h
    split at h
    · exact ⟨_, _, rfl⟩
    · cases h
  · rintro ⟨name, t, rfl⟩
    rfl

/-- Settles O39: the element form by its parts, and the one shape of the parameters that takes it. -/
theorem elementFormPlaceholder : Obligations.ElementFormPlaceholder := by
  refine ⟨fun trigger t fn name val => ?_, fun prms => usesElementForm_iff⟩
  have hform : usesElementForm [⟨name, .readUntil t⟩] = true := rfl
  rw [placeholder, if_pos hform, elementForm, List.headD_cons]
  simp only [textItems, List.map_append, List.append_assoc]

/-- The attributes are those of the parameters with a value, in order (R276). -/
theorem attributes_eq (prms : List Param) (vals : List (List Item)) :
    attributes prms vals = ((prms.zip vals).map fun pv => attrItems pv.1 pv.2).flatten := by
  induction prms, vals using attributes.induct with
  | case1 prm prms val vals ih => rw [attributes, ih, List.zip_cons_cons, List.map_cons, List.flatten_cons]
  | case2 prms vals hnone =>
    match prms, vals, hnone with
    | [], _, _ => rfl
    | _ :: _, [], _ => rfl
    | prm :: prms, val :: vals, hnone => exact (hnone prm prms val vals rfl rfl).elim

/-- After the last parameter the expansion is closed (R271). -/
theorem fetchTxtp_close {caps : Caps} {x : Txtp} {ins : TextInstruction} (hp : x.phase = .params)
    (hins : x.itab[x.entry]? = some ins) (hend : ins.params.length ≤ x.prm) :
    fetchTxtp caps x = .control (x.closeExpansion caps ins) := by
  simp only [fetchTxtp, hp, Txtp.fetchParams, hins, List.getElem?_eq_none hend]

/-- The working sequence with the placeholder in the place of the span (R271). -/
def Txtp.replaced (ins : TextInstruction) (x : Txtp) : List Item :=
  x.w.take x.p ++ placeholder ins x.vals ++ x.w.drop x.q

theorem Txtp.closeExpansion_replaced {caps : Caps} {x : Txtp} {ins : TextInstruction}
    (hroom : exceeds caps.textCap (x.replaced ins).length = false) :
    x.closeExpansion caps ins = { x with w := x.replaced ins, phase := .scan } :=
  if_neg (Bool.eq_false_iff.mp hroom)

theorem Txtp.closeExpansion_exceeds {caps : Caps} {x : Txtp} {ins : TextInstruction}
    (hbig : exceeds caps.textCap (x.replaced ins).length = true) :
    x.closeExpansion caps ins = x.fatal .capacityExceeded x.c :=
  if_pos hbig

/-- Settles O40: the other form by its parts, and the placeholder takes the place of the span or does not fit. -/
theorem expansionReplacesSpan : Obligations.ExpansionReplacesSpan := by
  refine ⟨fun trigger fn prms vals hother => ?_, fun s q ins hq hrun hp hins hend => ?_⟩
  · rw [placeholder, if_neg (usesElementForm_iff.not.mpr hother), attributeForm, attributes_eq]
    simp only [attrItems, textItems, List.map_append]
  · rw [step_txtp_control hq hrun (fetchTxtp_close hp hins hend)]
    exact ⟨fun hroom => by rw [Txtp.closeExpansion_replaced hroom]; rfl,
      fun hbig => by rw [Txtp.closeExpansion_exceeds hbig]; rfl⟩

/-! ## The raw bytes an expansion consumes -/

theorem rawItems_attributes_le (prms : List Param) (vals : List (List Item)) :
    rawItems (attributes prms vals) ≤ (vals.map rawItems).sum := by
  induction prms, vals using attributes.induct with
  | case1 prm prms val vals ih =>
    simp only [attributes, attrItems, rawItems_append, rawItems_textItems, List.map_cons, List.sum_cons]
    omega
  | case2 prms vals hnone =>
    rw [attributes]
    · exact Nat.zero_le _
    · exact hnone

/-- A placeholder holds no raw byte that the values do not (R275, R276). -/
theorem rawItems_placeholder_le (ins : TextInstruction) (vals : List (List Item)) :
    rawItems (placeholder ins vals) ≤ (vals.map rawItems).sum := by
  unfold placeholder
  split
  · simp only [elementForm, rawItems_append, rawItems_textItems]
    cases vals with
    | nil => exact Nat.le_refl 0
    | cons val vals =>
      simp only [List.headD_cons, List.map_cons, List.sum_cons]
      omega
  · have hattrs := rawItems_attributes_le ins.params vals
    simp only [attributeForm, rawItems_append, rawItems_textItems]
    omega

theorem rawItems_cons_raw (t : Byte) (w : List Item) : rawItems (.B t :: w) = rawItems w + 1 :=
  List.countP_cons_of_pos rfl

/-- The span of an expansion is its trigger and the items read after it. -/
theorem rawItems_span {w : List Item} {p q : Nat} {t : Byte} (hpq : p < q) (hat : w[p]? = some (.B t)) :
    rawItems w = rawItems (w.take p) + (rawItems ((w.take q).drop (p + 1)) + rawItems (w.drop q) + 1) := by
  have hw : w.take p ++ .B t :: ((w.take q).drop (p + 1) ++ w.drop q) = w := by
    rw [← drop_eq_append hpq, ← drop_of_getElem? hat, List.take_append_drop]
  rw [← rawItems_append, ← rawItems_cons_raw t, ← rawItems_append, hw]

/-- Closing an expansion loses its trigger, and its values held no more raw bytes than the rest of the span. -/
theorem Txtp.Expanding.rawItems_lt {x : Txtp} (hx : x.Expanding) (ins : TextInstruction) :
    rawItems (x.replaced ins) < rawItems x.w := by
  obtain ⟨-, hpq, -, hat, hsum⟩ := hx
  have hph := rawItems_placeholder_le ins x.vals
  rw [rawItems_span hpq hat, Txtp.replaced, rawItems_append, rawItems_append]
  omega

/-- A unit error leaves the sentence, or the phase as it is where the log is full. -/
theorem Txtp.sentenceError_phase (caps : Caps) (cause : UnitCause) (x : Txtp) :
    (x.sentenceError caps cause).phase = x.phase ∨ (x.sentenceError caps cause).phase = .frame := by
  unfold Txtp.sentenceError
  rcases x.unitError_cases caps _ _ _ with ⟨-, he⟩ | ⟨-, he⟩ <;> rw [he]
  · exact .inl rfl
  · exact .inr rfl

theorem txtpOp_param_phase {caps : Caps} {x x' : Txtp} {mode : ParamMode} {i : Instr}
    (hadm : (ItemCtx.param mode).admits i = true) (hop : txtpOp i caps x = .ok x') : x'.phase = x.phase := by
  cases i <;> simp only [ItemCtx.admits, Bool.false_eq_true] at hadm <;> cases hop <;> rfl

/-- Of the steps among the parameters only the closing of the expansion goes back to the scan (R270, R271). -/
theorem Txtp.next_closed {caps : Caps} {x x' : Txtp} (hrun : x.st.status = .running) (hp : x.phase = .params)
    (hnext : x.next caps = .ok x') (hscan : x'.phase = .scan) : ∃ ins, x'.w = x.replaced ins := by
  have hstay : x'.phase ≠ x.phase := by rw [hscan, hp]; nofun
  rw [Txtp.next, if_pos hrun, fetchTxtp, hp] at hnext
  dsimp only at hnext
  unfold Txtp.fetchParams at hnext
  split at hnext
  · cases hnext
  · rename_i ins _
    split at hnext
    · obtain rfl := Except.ok.inj hnext
      refine ⟨ins, ?_⟩
      cases hbig : exceeds caps.textCap (x.replaced ins).length with
      | false => rw [Txtp.closeExpansion_replaced hbig]
      | true =>
        rw [Txtp.closeExpansion_exceeds hbig] at hstay
        exact absurd rfl hstay
    · split at hnext
      · rename_i i rest hdec
        have hop : txtpOp i caps x = .ok x' := hnext
        exact absurd (txtpOp_param_phase (decodeItems_sound hdec).2.1 hop) hstay
      · obtain rfl := Except.ok.inj hnext
        rcases x.sentenceError_phase caps .paramOverrun with hsame | hframe
        · exact absurd hsame hstay
        · rw [hframe] at hscan
          cases hscan

/-- Settles O41: the closed expansion loses raw bytes. -/
theorem expansionConsumesRawBytes : Obligations.ExpansionConsumesRawBytes := by
  intro s t hi hrun hp hstep hscan
  rw [engineStep_txtp_eq] at hstep
  obtain ⟨x', hnext, rfl⟩ := onTxtp_next.mp hstep
  obtain ⟨-, -, hexp⟩ := (Txtp.inv_iff hp).mp hi.2.2.1
  obtain ⟨ins, hw⟩ := Txtp.next_closed hrun hp hnext hscan
  rw [State.setTxtp_txtp, hw]
  exact hexp.rawItems_lt ins

end Sys2Proof.Machine
end

section
/-! PROOFS. The unit errors (O44; R321) and the appends that find their store full (O45; R317, R322). -/

namespace Sys2Proof.Machine

/-! ## Unit errors with room in the log -/

/-- Settles O44: each unit error is one entry more, the unit dropped and the engine's next phase. -/
theorem unitErrorIsolatesUnit : Obligations.UnitErrorIsolatesUnit := by
  refine fun caps => ⟨fun m cause hroom => ?_, fun m loc cnt hroom => ?_, fun m loc raws hroom hout => ?_,
    fun x cause hroom => ?_⟩
  · exact Imgd.partError_logged cause hroom
  · exact Imgd.unitError_logged hroom
  · exact (if_pos hout).trans (congrArg Except.ok (Imgd.unitError_logged hroom))
  · exact Txtp.sentenceError_logged cause hroom

/-! ## A copy that meets the capacity -/

/-- A copy that appends its first `n` bytes goes on from there with the rest (R153). -/
theorem Hsqd.backCopy_add {caps : Caps} {dist : Int} {n : Nat} (len : Nat) {h h' : Hsqd}
    (hfirst : Hsqd.backCopy caps dist n h = .ok h') (hall : h'.olen = h.olen + n) :
    Hsqd.backCopy caps dist (n + len) h = Hsqd.backCopy caps dist len h' := by
  induction n generalizing h with
  | zero =>
    cases hfirst
    rw [Nat.zero_add]
  | succ n ih =>
    have hstop (cause : Cause) : Except.ok (h.fatal cause h.pos) ≠ (.ok h' : Except Fault Hsqd) := by
      rintro ⟨⟩
      exact absurd hall (Nat.ne_of_lt (Nat.lt_add_of_pos_right n.succ_pos))
    rw [Nat.succ_add]
    simp only [Hsqd.backCopy] at hfirst ⊢
    split at hfirst
    · exact absurd hfirst (hstop _)
    · rename_i hin
      split at hfirst
      · cases hfirst
      · split at hfirst
        · exact absurd hfirst (hstop _)
        · rename_i hroom
          rw [if_neg hin, if_neg hroom]
          exact ih hfirst (by rw [hall, Hsqd.push_olen]; omega)

/-- After a copy from inside the output there is a byte at every address below the new length. -/
theorem CopyResult.filled {h : Hsqd} {len back : Nat} {m : Memory} (hcopy : CopyResult h len back m)
    (hfill : h.obuf.filled h.olen) (hb : 1 ≤ back) (hle : back ≤ h.olen) : m.filled (h.olen + len) := by
  obtain ⟨hnew, hold⟩ := hcopy
  intro a ha
  by_cases hlt : a < h.olen
  · rw [hold a (.inl hlt)]
    exact hfill a hlt
  · obtain ⟨j, rfl⟩ := Nat.exists_eq_add_of_le (Nat.not_lt.mp hlt)
    have hmod := Nat.mod_lt j hb
    rw [hnew j (by omega)]
    exact hfill _ (by omega)

/-- A copy into a full buffer faults at its first byte (R155). -/
theorem Hsqd.backCopy_full {caps : Caps} {back len : Nat} {h : Hsqd} (hlen : 1 ≤ len) (hb : 1 ≤ back)
    (hle : back ≤ h.olen) (hfill : h.obuf.filled h.olen) (hfull : full caps.outCap h.olen = true) :
    Hsqd.backCopy caps (-(back : Int)) len h = .ok (h.fatal .capacityExceeded h.pos) := by
  obtain ⟨n, rfl⟩ := Nat.exists_eq_add_of_le' hlen
  obtain ⟨b, hread⟩ :=
    Option.isSome_iff_exists.mp (hfill ((h.olen : Int) + -(back : Int)).toNat (by omega))
  simp only [Hsqd.backCopy, if_neg (show ¬(h.olen : Int) + -(back : Int) < 0 by omega), hread, if_pos hfull]

/-- A copy longer than the room before it appends the bytes that fit, and then faults (R153, R155, R319). -/
theorem Hsqd.backCopy_cut {caps : Caps} {h : Hsqd} {len back cap : Nat} (hb : 1 ≤ back) (hle : back ≤ h.olen)
    (hfill : h.obuf.filled h.olen) (hcap : caps.outCap = some cap) (hroom : h.olen ≤ cap)
    (hlong : cap < h.olen + len) :
    ∃ m, CopyResult h (cap - h.olen) back m ∧ Hsqd.backCopy caps (-(back : Int)) len h =
      .ok { h with obuf := m, olen := cap, st := ⟨.fault, .capacityExceeded, h.pos⟩ } := by
  have hnew : h.olen + (cap - h.olen) = cap := by omega
  obtain ⟨m, hfirst, hcopy⟩ := Hsqd.backCopy_copies (caps := caps) (cap - h.olen) hb hle hfill
    (by rw [hcap, hnew]; exact decide_eq_false (Nat.lt_irrefl cap))
  have hfill' := hcopy.filled hfill hb hle
  have hrest := Hsqd.backCopy_add (len - (cap - h.olen)) hfirst rfl
  rw [show cap - h.olen + (len - (cap - h.olen)) = len by omega] at hrest
  rw [hnew] at hfill' hrest
  refine ⟨m, hcopy, hrest.trans ?_⟩
  exact Hsqd.backCopy_full (h := { h with obuf := m, olen := cap }) (by omega) hb (hle.trans hroom) hfill'
    (by rw [hcap]; exact decide_eq_true (Nat.le_refl cap))

/-! ## Stores that are full -/

/-- A unit error that finds the log full (R322). -/
theorem Imgd.unitError_full {caps : Caps} {e : LogEntry} {cur : Nat} {next : Imgd → Imgd} {m : Imgd}
    (hfull : full caps.logCap m.skiplog.length = true) :
    m.unitError caps e cur next = m.fatal .capacityExceeded cur :=
  if_pos hfull

/-- A unit error of a sentence that finds the log full (R322). -/
theorem Txtp.sentenceError_full {caps : Caps} {x : Txtp} (cause : UnitCause)
    (hfull : full caps.logCap x.skiplog.length = true) :
    x.sentenceError caps cause = x.fatal .capacityExceeded x.c :=
  if_pos hfull

/-- A sentence that finds `SENTENCES` full: `DUP_START` is written before the append fails (R282, R317). -/
theorem Txtp.storeSentence_full {caps : Caps} {x : Txtp} (hfull : full caps.nSentCap x.sentences.length = true) :
    x.storeSentence caps =
      ({ x with dupStart := x.dupStart || startTaken x.sentences x.sstart } : Txtp).fatal .capacityExceeded x.c :=
  if_pos hfull

/-- Settles O45: the copy is cut at the capacity, and every other append tests its store first. -/
theorem fullStoreIsFatal : Obligations.FullStoreIsFatal := by
  refine ⟨fun caps h len back cap hb hle hfill hcap hroom hlong => ?_, fun caps m cause hfull => ?_,
    fun caps m loc cnt hfull => ?_, fun s loc raws hfull hout => ?_, fun s raw hfull => ?_,
    fun caps x cause hfull => ?_, fun caps x hfull => ?_⟩
  · exact Hsqd.backCopy_cut hb hle hfill hcap hroom hlong
  · exact Imgd.unitError_full hfull
  · exact Imgd.unitError_full hfull
  · obtain ⟨c, hc, hlarge⟩ := hout
    have hany : raws.any channelOut = true := List.any_eq_true.mpr ⟨c, hc, channelOut_iff.mpr hlarge⟩
    exact onImgd_ok ((if_pos hany).trans (congrArg Except.ok (Imgd.unitError_full hfull)))
  · exact onImgd_ok (if_pos hfull)
  · exact Txtp.sentenceError_full cause hfull
  · rw [Txtp.storeSentence_full hfull]
    exact ⟨rfl, rfl⟩

end Sys2Proof.Machine
end

section
/-! PROOFS. The reads of HSQD past the end of the input: the header, an instruction word, an operand byte (O16;
R311). -/

namespace Sys2Proof.Machine

/-- HSQD goes on with the bits that `pfx` holds, unless it stands at an instruction boundary at the end of the input
(R144 to R146). -/
theorem fetchHsqd_code {h : Hsqd} (hphase : h.phase = .body) (hpos : h.pfx = none → h.pos ≠ h.inLen) :
    fetchHsqd h = h.fetchCode (h.pfx.getD []) := by
  cases hpfx : h.pfx with
  | none => exact hpfx ▸ fetchHsqd_body hphase (hpos hpfx)
  | some p => simp only [fetchHsqd, hphase, hpfx, Option.getD_some]

/-- Bits that complete no code are consumed, and the instruction word is missing (R145, R311). -/
theorem Hsqd.fetchCode_no_word {h : Hsqd} {p : List Bool} {bs : List Byte}
    (hnone : classify (p ++ bufferBits h.bitbuf h.bitcnt) = none)
    (hwin : window .ibuf h.ibuf h.pos h.inLen = .ok bs) (hshort : bs.length < 2) :
    h.fetchCode p = .control (({ h.drained with pfx := none } : Hsqd).fatal .unexpectedEnd h.pos) := by
  simp only [Hsqd.fetchCode, takePrefix_none hnone, hnone]
  exact Hsqd.fetchIn_iw_short hwin hshort

/-- The code is consumed, and an operand byte of its kind is missing (R311). -/
theorem Hsqd.fetchCode_operands_short {h : Hsqd} {k : PrefixKind} {p more : List Bool} {bs : List Byte} {n : Nat}
    (hlen : p.length < k.bits.length) (hbits : p ++ bufferBits h.bitbuf h.bitcnt = k.bits ++ more)
    (hwin : window .ibuf h.ibuf h.pos h.inLen = .ok bs) (hdec : decode (.operands k) bs = .error (.short n)) :
    h.fetchCode p = .control ((Hsqd.begun (.operands k) bs
      { h with
        bitbuf := h.bitbuf >>> (k.bits.length - p.length), bitcnt := more.length, pfx := none }).overrun n) := by
  have hcode : classify k.bits = some k := classify_eq_some.mpr ⟨[], (List.append_nil _).symm⟩
  simp only [Hsqd.fetchCode, takePrefix_some hlen hbits, hcode]
  exact Hsqd.fetchIn_short hwin hdec

/-- A step whose operand bytes are not all there abandons the instruction (R311). -/
theorem step_operands_short {s : State} {q : List HostMove} {k : PrefixKind} {more : List Bool} {bs : List Byte}
    {n : Nat} (hq : s.hostq = .run .hsqd :: q) (hrun : s.hsqd.st.status = .running) (hphase : s.hsqd.phase = .body)
    (hpos : s.hsqd.pfx = none → s.hsqd.pos ≠ s.hsqd.inLen)
    (hlen : (s.hsqd.pfx.getD []).length < k.bits.length)
    (hbits : s.hsqd.pfx.getD [] ++ bufferBits s.hsqd.bitbuf s.hsqd.bitcnt = k.bits ++ more)
    (hwin : window .ibuf s.hsqd.ibuf s.hsqd.pos s.hsqd.inLen = .ok bs)
    (hdec : decode (.operands k) bs = .error (.short n)) :
    step s = .next ((s.setHostq q).setHsqd ((Hsqd.begun (.operands k) bs
      { s.hsqd with
        bitbuf := s.hsqd.bitbuf >>> (k.bits.length - (s.hsqd.pfx.getD []).length), bitcnt := more.length,
        pfx := none }).overrun n)) := by
  rw [step_hsqd hq hrun, fetchHsqd_code hphase hpos, Hsqd.fetchCode_operands_short hlen hbits hwin hdec]
  rfl

/-- Settles O16: the header, the instruction word, and the operands of each kind, by what their decoders miss. -/
theorem hsqdReadPastEndFaults : Obligations.HsqdReadPastEndFaults := by
  refine ⟨fun s q bs hq hrun hphase hwin hshort => ?_, fun s q bs hq hrun hphase hpos hnone hwin hshort => ?_,
    fun s q k more bs hq hrun hphase hpos hlen hbits hwin => ⟨?_, ?_, ?_, ?_⟩⟩
  · rw [step_hsqd hq hrun, fetchHsqd_header hphase, Hsqd.fetchIn_short hwin (decodeHdr_short hshort)]
    rfl
  · rw [step_hsqd hq hrun, fetchHsqd_code hphase hpos, Hsqd.fetchCode_no_word hnone hwin hshort]
    rfl
  · rintro rfl rfl
    exact step_operands_short hq hrun hphase hpos hlen hbits hwin rfl
  · rintro b1 b2 rfl rfl
    exact step_operands_short hq hrun hphase hpos hlen hbits hwin rfl
  · rintro rfl hshort
    match bs, hshort with
    | [], _ => exact step_operands_short hq hrun hphase hpos hlen hbits hwin rfl
    | [_], _ => exact step_operands_short hq hrun hphase hpos hlen hbits hwin rfl
  · rintro l u rfl rfl hraw
    exact step_operands_short hq hrun hphase hpos hlen hbits hwin (if_pos ((len3_eq_zero _).mpr hraw))

end Sys2Proof.Machine
end

section
/-! PROOFS. An engine that is not RUNNING keeps its state in every step that does not start it afresh (O50; R59,
R322). -/

namespace Sys2Proof.Machine

/-- The state of engine `e` in `t` is the one in `s`. -/
def State.SameEngine (s t : State) : Engine → Prop
  | .hsqd => t.hsqd = s.hsqd
  | .imgd => t.imgd = s.imgd
  | .txtp => t.txtp = s.txtp

theorem State.SameEngine.refl (s : State) (e : Engine) : s.SameEngine s e := by
  cases e <;> rfl

/-- A step of one engine leaves every other one as it is (R30). -/
theorem engineStep_sameEngine {e e' : Engine} {s t : State} (h : engineStep e' s = .next t) (hne : e ≠ e') :
    s.SameEngine t e := by
  obtain ⟨hhsqd, himgd, htxtp⟩ := enginesShareNoState.2 s t
  cases e' with
  | hsqd =>
    rw [hhsqd h]
    cases e <;> [exact absurd rfl hne; rfl; rfl]
  | imgd =>
    rw [himgd h]
    cases e <;> [rfl; exact absurd rfl hne; rfl]
  | txtp =>
    rw [htxtp h]
    cases e <;> [rfl; rfl; exact absurd rfl hne]

section
variable {e : Engine} {s t : State} (hidle : (statusOf e s).status ≠ .running)
include hidle

/-- No engine's step changes an engine that is not RUNNING: not its own (R59), nor another's (R30). -/
theorem engineStep_keeps_idle {e' : Engine} (h : engineStep e' s = .next t) : s.SameEngine t e := by
  by_cases hown : e = e'
  · subst hown
    rw [engineStep_of_not_running hidle] at h
    cases h
    exact .refl s e
  · exact engineStep_sameEngine h hown

/-- A move of the host changes an engine that is not RUNNING only by starting it afresh (R322). -/
theorem hostStep_keeps_idle {mv : HostMove} (h : hostStep mv s = .next t) (hmv : ¬mv.Restarts e) :
    s.SameEngine t e := by
  cases mv with
  | reset => exact absurd trivial hmv
  | launch req =>
    obtain ⟨-, hhsqd, himgd, htxtp⟩ := execLaunch_frame h
    cases e <;> [exact hhsqd hmv; exact himgd hmv; exact htxtp hmv]
  | compose j dflt =>
    simp only [hostStep] at h
    split at h <;> cases h
    cases e <;> rfl
  | run e' => exact engineStep_keeps_idle hidle h

/-- A step changes an engine that is not RUNNING only if the host starts it afresh. -/
theorem step_keeps_idle (h : step s = .next t) (hmv : ∀ mv q, s.hostq = mv :: q → ¬mv.Restarts e) :
    s.SameEngine t e := by
  unfold step at h
  split at h
  · rename_i mv q hq
    have hkept := hostStep_keeps_idle (s := s.setHostq q) (by cases e <;> exact hidle) h (hmv mv q hq)
    cases e <;> exact hkept
  · unfold freeStep at h
    split at h
    · exact engineStep_keeps_idle hidle h
    · cases h
      exact .refl s e

end

/-- A run that is over has no RUNNING engine (R31). -/
theorem not_running_of_over {st : EngineStatus} (hover : st.status = .done ∨ st.status = .fault) :
    st.status ≠ .running := by
  rcases hover with hover | hover <;> rw [hover] <;> decide

/-- Settles O50: an engine whose run is over is not RUNNING, and only its launch and RESET start it afresh. -/
theorem endedRunsAreSticky : Obligations.EndedRunsAreSticky := by
  intro s t hstep hreset
  have hlaunch {mv : HostMove} {q : List HostMove} {e : Engine} (hq : s.hostq = mv :: q) (hr : mv.Restarts e) :
      ∃ req, mv = .launch req ∧ LaunchReq.engine req = e :=
    HostMove.launch_of_restarts hr fun hres => hreset q (hres ▸ hq)
  refine ⟨fun hover hne => ?_, fun hover hne => ?_, fun hover hne => ?_⟩
  · refine step_keeps_idle (e := .hsqd) (not_running_of_over hover) hstep fun mv q hq hr => ?_
    obtain ⟨⟨bytes, verify⟩ | _ | _, rfl, ⟨⟩⟩ := hlaunch hq hr
    exact hne bytes verify q hq
  · refine step_keeps_idle (e := .imgd) (not_running_of_over hover) hstep fun mv q hq hr => ?_
    obtain ⟨_ | p | _, rfl, ⟨⟩⟩ := hlaunch hq hr
    exact hne p q hq
  · refine step_keeps_idle (e := .txtp) (not_running_of_over hover) hstep fun mv q hq hr => ?_
    obtain ⟨_ | _ | ⟨p, charset, itab⟩, rfl, ⟨⟩⟩ := hlaunch hq hr
    exact hne p charset itab q hq

end Sys2Proof.Machine
end

section
/-! PROOFS. Every run of HSQD ends within its bound (O18; R360): a step ends the run, or it reads a byte. -/

namespace Sys2Proof.Machine

/-- The run of an engine is over (R31). -/
def EngineStatus.Over (st : EngineStatus) : Prop := st.status = .done ∨ st.status = .fault

/-- The run is over, or the engine is still RUNNING and `P` holds. -/
def EngineStatus.OverOr (st : EngineStatus) (P : Prop) : Prop := st.Over ∨ (st.status = .running ∧ P)

/-- A run begins with the engine's step. -/
theorem runEngine_of_step {e : Engine} {s t : State} (h : engineStep e s = .next t) (n : Nat) :
    runEngine e (n + 1) s = runEngine e n t := by
  rw [runEngine, h]

/-- The run is over in `h'`, or the cursor has moved. -/
def Hsqd.Advances (h h' : Hsqd) : Prop := h'.st.OverOr (h.pos < h'.pos)

theorem Hsqd.advances_fatal (h₀ : Hsqd) (cause : Cause) (info : Nat) (h : Hsqd) : h₀.Advances (h.fatal cause info) :=
  .inl (.inr rfl)

/-- A fault of `Append` ends the run, and a byte appended leaves the cursor (R155). -/
theorem Hsqd.Advances.append {h₀ h : Hsqd} (hadv : h₀.Advances h) (caps : Caps) (b : Byte) :
    h₀.Advances (h.append caps b) := by
  rcases h.append_cases caps b with ⟨-, he⟩ | ⟨-, he⟩ <;> rw [he]
  · exact Hsqd.advances_fatal _ _ _ _
  · exact hadv

/-- A fault of `BackCopy` ends the run, and the bytes copied leave the cursor (R153). -/
theorem Hsqd.Advances.backCopy {h₀ h : Hsqd} {caps : Caps} {dist : Int} {len : Nat} (hadv : h₀.Advances h) :
    Answers h₀.Advances (Hsqd.backCopy caps dist len h) := by
  induction len generalizing h with
  | zero => exact answers_ok hadv
  | succ len ih =>
    unfold Hsqd.backCopy
    dsimp only
    split
    · exact answers_ok (Hsqd.advances_fatal _ _ _ _)
    · split
      · exact answers_error _
      · split
        · exact answers_ok (Hsqd.advances_fatal _ _ _ _)
        · exact ih hadv

/-- Every instruction of a RUNNING HSQD moves the cursor over its bytes, or ends the run. -/
theorem Hsqd.op_advances {caps : Caps} {h : Hsqd} (hrun : h.st.status = .running) {i : Instr}
    (hown : engineOf i = some .hsqd) : Answers h.Advances (hsqdOp i caps h) := by
  have hmove {h' : Hsqd} {k : Nat} (hst : h'.st = h.st) (hpos : h'.pos = h.pos + (k + 1)) : h.Advances h' :=
    .inr ⟨hst ▸ hrun, by omega⟩
  cases i <;> simp only [engineOf, reduceCtorEq, Option.some.injEq] at hown
  case hdr h0 h1 h2 h3 h4 h5 =>
    simp only [hsqdOp, hdrOp]
    split
    · exact answers_ok (Hsqd.advances_fatal _ _ _ _)
    · exact answers_ok (hmove rfl rfl)
  case iw w => exact answers_ok (hmove rfl rfl)
  case lit b => exact answers_ok ((hmove (h' := { h with pos := h.pos + 1, kind := .copyByte }) rfl rfl).append caps b)
  case m0 b1 b2 d => exact Hsqd.Advances.backCopy (hmove rfl rfl)
  case m1 raw => exact Hsqd.Advances.backCopy (hmove rfl rfl)
  case m1x raw e => exact Hsqd.Advances.backCopy (hmove rfl rfl)
  case endMark raw => exact answers_ok (.inl (.inl rfl))

theorem Hsqd.fetchIn_advances {caps : Caps} {h : Hsqd} (hrun : h.st.status = .running) {ctx : Ctx}
    (hctx : ctx.engine = .hsqd) : Answers h.Advances ((h.fetchIn ctx).perform (hsqdOp · caps)) := by
  refine Fetch.answers_withBytes fun bs => ?_
  split
  · exact Hsqd.op_advances hrun (hctx ▸ engineOf_decode ‹_›)
  · exact answers_ok (Hsqd.advances_fatal _ _ _ _)
  · exact answers_ok (Hsqd.advances_fatal _ _ _ _)

/-- The bits that Decode consumes leave the cursor (R145, R146). -/
theorem Hsqd.fetchCode_advances {caps : Caps} {h : Hsqd} (hrun : h.st.status = .running) (p : List Bool) :
    Answers h.Advances ((h.fetchCode p).perform (hsqdOp · caps)) := by
  unfold Hsqd.fetchCode
  dsimp only
  split
  · exact Hsqd.fetchIn_advances (h := { h with bitbuf := _, bitcnt := _, pfx := none }) hrun rfl
  · exact Hsqd.fetchIn_advances (h := { h with bitbuf := _, bitcnt := _, pfx := some _ }) hrun rfl

/-- A step of a RUNNING HSQD ends the run, or it reads a byte. -/
theorem Hsqd.next_advances {caps : Caps} {h : Hsqd} (hrun : h.st.status = .running) :
    Answers h.Advances (h.next caps) := by
  rw [Hsqd.next, if_pos hrun]
  unfold fetchHsqd
  split
  · exact Hsqd.fetchIn_advances hrun rfl
  · split
    · exact Hsqd.fetchCode_advances hrun _
    · split
      · exact answers_ok (.inl (.inl rfl))
      · exact Hsqd.fetchCode_advances hrun _

/-- A step of an engine is never refused: only moves of the host are. -/
theorem engineStep_ne_refused (e : Engine) (s : State) (r : Refusal) : engineStep e s ≠ .refused r := by
  cases e with
  | hsqd => rw [engineStep_hsqd_eq]; unfold onHsqd; split <;> nofun
  | imgd => rw [engineStep_imgd_eq]; unfold onImgd; split <;> nofun
  | txtp => rw [engineStep_txtp_eq]; unfold onTxtp; split <;> nofun

/-- A step of an engine of a well-kept machine goes on to a well-kept machine. -/
theorem State.Inv.engineStep_next {s : State} (hi : s.Inv) (e : Engine) :
    ∃ t, Machine.engineStep e s = .next t ∧ t.Inv := by
  have hkept := hi.engineStep e
  cases hs : Machine.engineStep e s with
  | next t => exact ⟨t, rfl, by rwa [hs] at hkept⟩
  | fault r => rw [hs] at hkept; exact hkept.elim
  | refused r => exact absurd hs (engineStep_ne_refused e s r)

/-- A step of a well-kept machine with HSQD RUNNING ends its run, or it leaves fewer bytes. -/
theorem State.Inv.hsqd_step {s : State} (hi : s.Inv) (hrun : s.hsqd.st.status = .running) :
    ∃ t, Machine.engineStep .hsqd s = .next t ∧ t.Inv ∧
      t.hsqd.st.OverOr (t.hsqd.inLen - t.hsqd.pos < s.hsqd.inLen - s.hsqd.pos) := by
  obtain ⟨t, hstep, hit⟩ := hi.engineStep_next .hsqd
  obtain ⟨⟨-, -, hpos, -⟩, -⟩ := id hit
  obtain ⟨-, ⟨⟨-, hlen, -⟩, -⟩, -⟩ := engineStep_extends hstep
  have hadv : s.hsqd.Advances t.hsqd := by
    obtain ⟨h', hnext, rfl⟩ := onHsqd_next.mp (engineStep_hsqd_eq s ▸ hstep)
    exact Hsqd.next_advances hrun h' hnext
  refine ⟨t, hstep, hit, hadv.imp_right fun ⟨hrun', hlt⟩ => ⟨hrun', ?_⟩⟩
  omega

/-- A run of HSQD with at most `k` bytes left ends after at most `k + 1` steps. -/
theorem State.Inv.hsqd_run_ends {k : Nat} {s : State} (hi : s.Inv) (hrun : s.hsqd.st.status = .running)
    (hk : s.hsqd.inLen - s.hsqd.pos ≤ k) :
    ∃ n t, n ≤ k + 1 ∧ runEngine .hsqd n s = .next t ∧ t.hsqd.st.Over := by
  induction k generalizing s with
  | zero =>
    obtain ⟨t, hstep, -, hover | ⟨-, hlt⟩⟩ := hi.hsqd_step hrun
    · exact ⟨1, t, le_rfl, runEngine_of_step hstep 0, hover⟩
    · omega
  | succ k ih =>
    obtain ⟨t, hstep, hit, hover | ⟨hrun', hlt⟩⟩ := hi.hsqd_step hrun
    · exact ⟨1, t, by omega, runEngine_of_step hstep 0, hover⟩
    · obtain ⟨n, u, hn, hu, hover⟩ := ih hit hrun' (by omega)
      exact ⟨n + 1, u, by omega, (runEngine_of_step hstep n).trans hu, hover⟩

/-- Settles O18: every step that does not end the run reads a byte, and none reads past the end of the input. -/
theorem hsqdRunEnds : Obligations.HsqdRunEnds :=
  fun _ hi hrun => hi.hsqd_run_ends hrun le_rfl

end Sys2Proof.Machine
end

section
/-! PROOFS. Every run of IMGD and of TXTP ends (O56; R360). A step ends the run, or it lowers what is left to do in
the lexicographic order of the engine's nested loops. -/

namespace Sys2Proof.Machine

/-- Where each step from a well-kept state ends the run or lowers the state's rank, every run ends. -/
theorem runEngine_ends {e : Engine} {ρ : Type} {below : ρ → ρ → Prop} (hwf : WellFounded below) (rank : State → ρ)
    (hstep : ∀ {s t : State}, s.Inv → (statusOf e s).status = .running → engineStep e s = .next t →
      (statusOf e t).OverOr (below (rank t) (rank s)))
    {s : State} (hi : s.Inv) (hrun : (statusOf e s).status = .running) :
    ∃ n t, runEngine e n s = .next t ∧ (statusOf e t).Over := by
  induction hr : rank s using hwf.induction generalizing s with
  | _ r ih =>
    subst hr
    obtain ⟨t, hs, hit⟩ := hi.engineStep_next e
    rcases hstep hi hrun hs with hover | ⟨hrun', hlt⟩
    · exact ⟨1, t, runEngine_of_step hs 0, hover⟩
    · obtain ⟨n, u, hu, hover⟩ := ih _ hlt hit hrun' rfl
      exact ⟨n + 1, u, (runEngine_of_step hs n).trans hu, hover⟩

/-- The lexicographic order of a number and what comes after it. -/
abbrev LexBelow {α : Type} (r : α → α → Prop) : Nat × α → Nat × α → Prop := Prod.Lex (· < ·) r

theorem LexBelow.wf {α : Type} {r : α → α → Prop} (h : WellFounded r) : WellFounded (LexBelow r) :=
  WellFounded.prod_lex wellFounded_lt h

/-- What is fetched from a window may use that the window was read. -/
theorem Fetch.answers_withWindow {σ : Type} {P : σ → Prop} {op : Instr → σ → Except Fault σ}
    {w : Except Fault (List Byte)} {f : List Byte → Fetch σ} (h : ∀ bs, w = .ok bs → Answers P ((f bs).perform op)) :
    Answers P ((Fetch.withBytes w f).perform op) := by
  cases w with
  | ok bs => exact h bs rfl
  | error r => exact answers_error r

/-! ## IMGD -/

/-- The rows and the bytes left in a part. -/
def Imgd.rowsLeft (m : Imgd) : Nat := (m.height.toNat - m.y) + (m.pend - m.s)

/-- What is left for IMGD to do, read in a phase: the loops of the run, the bytes of the palette area or the parts,
the stages of the part, and its rows and bytes. -/
def Imgd.rankIn (m : Imgd) : ImgdPhase → Nat × Nat × Nat × Nat
  | .pointer => (3, 0, 0, 0)
  | .palette => (2, m.oas.toNat - m.pcur, 0, 0)
  | .offsets => (1, 0, 0, 0)
  | .frame => (0, m.n - m.i, 2, 0)
  | .header => (0, m.n - m.i, 1, 0)
  | .rows => (0, m.n - m.i, 0, m.rowsLeft)
  | .runs => (0, m.n - m.i, 0, m.rowsLeft)

def Imgd.rank (m : Imgd) : Nat × Nat × Nat × Nat := m.rankIn m.phase

/-- The order of the ranks of IMGD. -/
abbrev Imgd.Below : Nat × Nat × Nat × Nat → Nat × Nat × Nat × Nat → Prop := LexBelow (LexBelow (LexBelow (· < ·)))

theorem Imgd.below_wf : WellFounded Imgd.Below := LexBelow.wf (LexBelow.wf (LexBelow.wf wellFounded_lt))

/-- The run is over in `m'`, or less is left to do. -/
def Imgd.Descends (m m' : Imgd) : Prop := m'.st.OverOr (Imgd.Below m'.rank m.rank)

theorem Imgd.descends_fatal (m : Imgd) (cause : Cause) (info : Nat) (u : Imgd) : m.Descends (u.fatal cause info) :=
  .inl (.inr rfl)

theorem Imgd.descends_of_below {m m' : Imgd} {p p' : ImgdPhase} (hp : m.phase = p) (hp' : m'.phase = p')
    (hrun : m'.st.status = .running) (hlt : Imgd.Below (m'.rankIn p') (m.rankIn p)) : m.Descends m' := by
  subst hp hp'
  exact .inr ⟨hrun, hlt⟩

/-- In the part loop the parts left decide first. -/
theorem Imgd.rank_of_part {m : Imgd} (hp : m.phase = .frame ∨ m.phase.inPart = true) :
    ∃ stage, m.rank = (0, m.n - m.i, stage) := by
  unfold Imgd.rank
  cases hphase : m.phase <;> simp [hphase, ImgdPhase.inPart] at hp <;> exact ⟨_, rfl⟩

/-- `u` stands in the part of `m` and is RUNNING. -/
def Imgd.SamePart (m u : Imgd) : Prop := u.i = m.i ∧ u.n = m.n ∧ u.st.status = .running

/-- The part after one that is there (R212). -/
theorem Imgd.SamePart.nextPart {m u : Imgd} (hu : m.SamePart u) (hp : m.phase = .frame ∨ m.phase.inPart = true)
    (hin : m.i < m.n) : m.Descends u.nextPart := by
  obtain ⟨hi, hn, hrun⟩ := hu
  obtain ⟨stage, hrank⟩ := Imgd.rank_of_part hp
  refine .inr ⟨hrun, ?_⟩
  rw [hrank]
  refine .right _ (.left _ _ ?_)
  change u.n - (u.i + 1) < m.n - m.i
  omega

/-- A part that is skipped (R211), or the fault of a full log (R322). -/
theorem Imgd.SamePart.partError {caps : Caps} {cause : UnitCause} {m u : Imgd} (hu : m.SamePart u)
    (hp : m.phase = .frame ∨ m.phase.inPart = true) (hin : m.i < m.n) : m.Descends (u.partError caps cause) := by
  unfold Imgd.partError
  rcases u.unitError_cases caps _ _ _ with ⟨-, he⟩ | ⟨-, he⟩ <;> rw [he]
  · exact m.descends_fatal _ _ _
  · exact Imgd.SamePart.nextPart hu hp hin

theorem Imgd.fetchPointer_descends {caps : Caps} {m : Imgd} (hrun : m.st.status = .running)
    (hp : m.phase = .pointer) : Answers m.Descends (m.fetchPointer.perform (imgdOp · caps)) := by
  refine Fetch.answers_withBytes fun bs => ?_
  split
  · rename_i i rest hdec
    obtain ⟨-, hadm, -⟩ := decode_sound hdec
    cases i <;> simp only [Ctx.admits, Bool.false_eq_true] at hadm
    case oas v =>
      change Answers _ (oasOp v caps m)
      unfold oasOp
      dsimp only
      split <;> refine answers_ok ?_
      · exact m.descends_fatal _ _ _
      · exact Imgd.descends_of_below hp rfl hrun (.left _ _ (by decide))
  · exact answers_ok (m.descends_fatal _ _ _)

/-- From the palette to the offsets array (R205, R206). -/
theorem Imgd.descends_offsets {m m' : Imgd} (hp : m.phase = .palette) (hp' : m'.phase = .offsets)
    (hrun : m'.st.status = .running) : m.Descends m' :=
  Imgd.descends_of_below hp hp' hrun (.left _ _ (by decide))

/-- A record of the palette moves its cursor (R203). -/
theorem Imgd.palrec_descends {caps : Caps} {m : Imgd} (hrun : m.st.status = .running) (hp : m.phase = .palette)
    (loc : Byte) (raws : List Color) (hroom : m.pcur < m.oas.toNat) :
    Answers m.Descends (palrecOp loc raws caps m) := by
  have hmove {m' : Imgd} (hphase : m'.phase = m.phase) (hst : m'.st = m.st) (hoas : m'.oas = m.oas)
      (hcur : m'.pcur = m.pcur + 2 + 3 * raws.length) : m.Descends m' := by
    refine Imgd.descends_of_below hp (hphase.trans hp) (hst ▸ hrun) (.right _ (.left _ _ ?_))
    rw [hoas, hcur]
    omega
  unfold palrecOp
  dsimp only
  split
  · refine answers_ok ?_
    rcases Imgd.unitError_cases caps _ _ _ _ with ⟨-, he⟩ | ⟨-, he⟩ <;> rw [he]
    · exact m.descends_fatal _ _ _
    · exact hmove rfl rfl rfl rfl
  · split <;> refine answers_ok ?_
    · exact m.descends_fatal _ _ _
    · exact hmove rfl rfl rfl rfl

theorem Imgd.fetchPalette_descends {caps : Caps} {m : Imgd} (hrun : m.st.status = .running)
    (hp : m.phase = .palette) : Answers m.Descends ((m.fetchPalette caps).perform (imgdOp · caps)) := by
  refine Fetch.answers_withWindow fun bs hwin => ?_
  have hlen := window_length hwin
  split
  · rename_i i rest hdec
    obtain ⟨-, hadm, -⟩ := decode_sound hdec
    have hle := decode_encode_le hdec
    cases i <;> simp only [Ctx.admits, Bool.false_eq_true] at hadm
    case palterm => exact answers_ok (Imgd.descends_offsets hp rfl hrun)
    case palrec loc raws =>
      rw [palrec_encode_length] at hle
      exact Imgd.palrec_descends hrun hp loc raws (by omega)
  · refine answers_ok ?_
    unfold Imgd.palOverrun
    rcases Imgd.unitError_cases caps _ _ _ _ with ⟨-, he⟩ | ⟨-, he⟩ <;> rw [he]
    · exact m.descends_fatal _ _ _
    · exact Imgd.descends_offsets hp rfl hrun
  · exact answers_ok (Imgd.descends_offsets hp rfl hrun)

theorem Imgd.fetchOffsets_descends {caps : Caps} {m : Imgd} (hrun : m.st.status = .running)
    (hp : m.phase = .offsets) : Answers m.Descends (m.fetchOffsets.perform (imgdOp · caps)) := by
  refine Fetch.answers_withBytes fun bs => ?_
  split
  · rename_i i rest hdec
    obtain ⟨-, hadm, -⟩ := decode_sound hdec
    cases i <;> simp only [Ctx.admits, Bool.false_eq_true] at hadm
    case offs entries =>
      change Answers _ (offsOp entries caps m)
      unfold offsOp
      dsimp only
      split <;> refine answers_ok ?_
      · exact m.descends_fatal _ _ _
      · exact Imgd.descends_of_below hp rfl hrun (.left _ _ (by decide))
  · exact answers_ok (m.descends_fatal _ _ _)
  · exact answers_ok (m.descends_fatal _ _ _)

theorem Imgd.fetchFrame_descends {caps : Caps} {m : Imgd} (hrun : m.st.status = .running)
    (hp : m.phase = .frame) : Answers m.Descends ((m.fetchFrame caps).perform (imgdOp · caps)) := by
  unfold Imgd.fetchFrame
  split
  · rename_i hin
    split
    · refine answers_ok ?_
      unfold Imgd.framePart
      dsimp only
      split
      · exact Imgd.SamePart.partError ⟨rfl, rfl, hrun⟩ (.inl hp) hin
      · exact Imgd.descends_of_below hp rfl hrun (.right _ (.right _ (.left _ _ (by decide))))
    · exact answers_error _
    · exact answers_error _
  · exact answers_ok (.inl (.inl rfl))

/-- An image part's header opens the rows, skips the part, or passes `PIX_CAP` (R215, R221, R317). -/
theorem Imgd.descends_openPart {caps : Caps} {m u : Imgd} {rows : Imgd → Imgd}
    (hrows : ∀ pixels, m.Descends (rows { u with y := 0, x := 0, pixels := pixels })) :
    m.Descends (u.openPart caps rows) := by
  unfold Imgd.openPart
  split
  · exact m.descends_fatal _ _ _
  · exact hrows _

theorem Imgd.headerOp_descends {caps : Caps} {m : Imgd} (hrun : m.st.status = .running) (hp : m.phase = .header)
    (hin : m.i < m.n) {i : Instr} (hadm : Ctx.part.admits i = true) : Answers m.Descends (imgdOp i caps m) := by
  have hpart : m.phase = .frame ∨ m.phase.inPart = true := .inr (hp ▸ rfl)
  cases i <;> simp only [Ctx.admits, Bool.false_eq_true] at hadm
  case partUnknown rawBytes =>
    change Answers _ (partUnknownOp rawBytes caps m)
    unfold partUnknownOp
    dsimp only
    split <;> refine answers_ok ?_
    · exact m.descends_fatal _ _ _
    · exact Imgd.SamePart.nextPart ⟨rfl, rfl, hrun⟩ hpart hin
  case partRaw width height poff =>
    refine answers_ok (Imgd.descends_openPart fun pixels => ?_)
    dsimp only
    split
    · exact Imgd.SamePart.partError ⟨rfl, rfl, hrun⟩ hpart hin
    · exact Imgd.descends_of_below hp rfl hrun (.right _ (.right _ (.left _ _ (by decide))))
  case partRle width height poff =>
    refine answers_ok (Imgd.descends_openPart fun pixels => ?_)
    exact Imgd.descends_of_below hp rfl hrun (.right _ (.right _ (.left _ _ (by decide))))

theorem Imgd.fetchHeader_descends {caps : Caps} {m : Imgd} (hrun : m.st.status = .running)
    (hp : m.phase = .header) (hin : m.i < m.n) :
    Answers m.Descends ((m.fetchHeader caps).perform (imgdOp · caps)) := by
  have hpart : m.phase = .frame ∨ m.phase.inPart = true := .inr (hp ▸ rfl)
  refine Fetch.answers_withBytes fun bs => ?_
  split
  · exact Imgd.headerOp_descends hrun hp hin (decode_sound ‹_›).2.1
  · exact answers_ok (Imgd.SamePart.partError ⟨rfl, rfl, hrun⟩ hpart hin)
  · exact answers_ok (Imgd.SamePart.partError ⟨rfl, rfl, hrun⟩ hpart hin)

/-- `u` stands in the rows of `m` and is RUNNING. -/
def Imgd.SameRows (m u : Imgd) : Prop :=
  m.SamePart u ∧ u.phase = m.phase ∧ u.height = m.height ∧ u.pend = m.pend

/-- In the rows of a part the rows and the bytes left decide. -/
theorem Imgd.SameRows.descends {m u : Imgd} (hu : m.SameRows u) (hp : m.phase.inRows = true)
    (hlt : u.rowsLeft < m.rowsLeft) : m.Descends u := by
  obtain ⟨⟨hi, hn, hrun⟩, hphase, -⟩ := hu
  have hrank : ∀ v : Imgd, v.phase.inRows = true → v.rank = (0, v.n - v.i, 0, v.rowsLeft) := by
    intro v hv
    unfold Imgd.rank
    cases hphase : v.phase <;> simp [hphase, ImgdPhase.inRows] at hv <;> rfl
  refine .inr ⟨hrun, ?_⟩
  rw [hrank u (hphase ▸ hp), hrank m hp, hi, hn]
  exact .right _ (.right _ (.right _ hlt))

/-- `u` is `m` after a data item of the same row (R221, R225, R226). -/
def Imgd.ReadsTo (m u : Imgd) : Prop := m.SameRows u ∧ u.y = m.y ∧ m.s < u.s

theorem Imgd.ReadsTo.descends {m u : Imgd} (hu : m.ReadsTo u) (hp : m.phase.inRows = true) (hroom : m.s < m.pend) :
    m.Descends u := by
  obtain ⟨hsame, hy, hs⟩ := hu
  refine hsame.descends hp ?_
  obtain ⟨-, -, hheight, hpend⟩ := hsame
  unfold Imgd.rowsLeft
  rw [hy, hheight, hpend]
  omega

/-- Emitting writes the array and the row's counters alone (R217). -/
theorem Imgd.ReadsTo.emitPairs {m u : Imgd} (hu : m.ReadsTo u) (vs : List Byte) : m.ReadsTo (Imgd.emitPairs vs u) := by
  rw [Imgd.emitPairs_eq]
  exact hu

/-- The end of a row that is there (R221, R223). -/
theorem Imgd.SameRows.descends_row {m u : Imgd} (hu : m.SameRows u) (hp : m.phase.inRows = true)
    (hrow : m.y < m.height.toNat) (hy : u.y = m.y + 1) (hs : u.s = m.s) : m.Descends u := by
  refine hu.descends hp ?_
  obtain ⟨-, -, hheight, hpend⟩ := hu
  unfold Imgd.rowsLeft
  rw [hy, hs, hheight, hpend]
  omega

theorem ImgdPhase.inPart_of_inRows {p : ImgdPhase} (h : p.inRows = true) : p.inPart = true := by
  revert h
  cases p <;> decide

theorem Imgd.dataOp_descends {caps : Caps} {m : Imgd} (hrun : m.st.status = .running) (hp : m.phase.inRows = true)
    (hroom : m.s < m.pend) {ctx : Ctx} (hctx : ctx = .pair ∨ ctx = .rle) {i : Instr} (hadm : ctx.admits i = true) :
    Answers m.Descends (imgdOp i caps m) := by
  have hsame : m.SameRows m := ⟨⟨rfl, rfl, hrun⟩, rfl, rfl, rfl⟩
  rcases hctx with rfl | rfl <;> cases i <;> simp only [Ctx.admits, Bool.false_eq_true] at hadm
  case pair v =>
    have hread : m.ReadsTo { m with v := v, s := m.s + 1 } := ⟨hsame, rfl, Nat.lt_succ_self m.s⟩
    exact answers_ok ((hread.emitPairs [v]).descends hp hroom)
  case rep c v =>
    have hread : m.ReadsTo { m with cmd := repCmd c, count := repCount c, v := v, s := m.s + 2 } :=
      ⟨hsame, rfl, Nat.lt_add_of_pos_right Nat.zero_lt_two⟩
    exact answers_ok ((hread.emitPairs (.replicate (repCount c) v)).descends hp hroom)
  case litr vs =>
    have hread : m.ReadsTo
        { m with cmd := litrCmd vs, count := vs.length, v := vs.getLastD m.v, s := m.s + 1 + vs.length } :=
      ⟨hsame, rfl, Nat.lt_add_right vs.length (Nat.lt_succ_self m.s)⟩
    exact answers_ok ((hread.emitPairs vs).descends hp hroom)

theorem Imgd.fetchData_descends {caps : Caps} {m : Imgd} (hrun : m.st.status = .running)
    (hp : m.phase.inRows = true) (hin : m.i < m.n) {ctx : Ctx} (hctx : ctx = .pair ∨ ctx = .rle) :
    Answers m.Descends ((m.fetchData caps ctx).perform (imgdOp · caps)) := by
  have hpart : m.phase = .frame ∨ m.phase.inPart = true := .inr (ImgdPhase.inPart_of_inRows hp)
  refine Fetch.answers_withWindow fun bs hwin => ?_
  have hlen := window_length hwin
  split
  · rename_i i rest hdec
    have hroom : m.s < m.pend := by
      cases bs with
      | nil => rcases hctx with rfl | rfl <;> cases hdec
      | cons b bs => rw [List.length_cons] at hlen; omega
    exact Imgd.dataOp_descends hrun hp hroom hctx (decode_sound hdec).2.1
  · exact answers_ok (Imgd.SamePart.partError ⟨rfl, rfl, hrun⟩ hpart hin)
  · exact answers_ok (Imgd.SamePart.partError ⟨rfl, rfl, hrun⟩ hpart hin)

theorem Imgd.endPart_descends {caps : Caps} {m : Imgd} (hrun : m.st.status = .running)
    (hp : m.phase.inRows = true) (hin : m.i < m.n) :
    Answers m.Descends ((m.endPart caps).perform (imgdOp · caps)) := by
  refine Fetch.answers_withBytes fun bs => ?_
  split <;> refine answers_ok ?_
  · exact m.descends_fatal _ _ _
  · exact Imgd.SamePart.nextPart ⟨rfl, rfl, hrun⟩ (.inr (ImgdPhase.inPart_of_inRows hp)) hin

theorem Imgd.fetchRows_descends {caps : Caps} {m : Imgd} (hrun : m.st.status = .running) (hp : m.phase = .rows)
    (hin : m.i < m.n) : Answers m.Descends ((m.fetchRows caps).perform (imgdOp · caps)) := by
  have hrows : m.phase.inRows = true := hp ▸ rfl
  unfold Imgd.fetchRows
  split
  · rename_i hrow
    split
    · exact Imgd.fetchData_descends hrun hrows hin (.inl rfl)
    · exact answers_ok (Imgd.SameRows.descends_row ⟨⟨rfl, rfl, hrun⟩, rfl, rfl, rfl⟩ hrows hrow rfl rfl)
  · exact Imgd.endPart_descends hrun hrows hin

theorem Imgd.fetchRuns_descends {caps : Caps} {m : Imgd} (hrun : m.st.status = .running) (hp : m.phase = .runs)
    (hin : m.i < m.n) : Answers m.Descends ((m.fetchRuns caps).perform (imgdOp · caps)) := by
  have hrows : m.phase.inRows = true := hp ▸ rfl
  unfold Imgd.fetchRuns
  split
  · rename_i hrow
    split
    · exact Imgd.fetchData_descends hrun hrows hin (.inr rfl)
    · exact answers_ok (Imgd.SameRows.descends_row ⟨⟨rfl, rfl, hrun⟩, rfl, rfl, rfl⟩ hrows hrow rfl rfl)
  · exact Imgd.endPart_descends hrun hrows hin

/-- A step of a RUNNING, well-kept IMGD ends the run or leaves less to do. -/
theorem Imgd.next_descends {caps : Caps} {m : Imgd} (hi : m.Inv caps) (hrun : m.st.status = .running) :
    Answers m.Descends (m.next caps) := by
  have hin : m.phase.inPart = true → m.i < m.n := fun h => by
    obtain ⟨-, -, -, -, -, hpart, -⟩ := hi
    exact (hpart h).1
  rw [Imgd.next, if_pos hrun]
  cases hp : m.phase <;> simp only [fetchImgd, hp]
  case pointer => exact Imgd.fetchPointer_descends hrun hp
  case palette => exact Imgd.fetchPalette_descends hrun hp
  case offsets => exact Imgd.fetchOffsets_descends hrun hp
  case frame => exact Imgd.fetchFrame_descends hrun hp
  case header => exact Imgd.fetchHeader_descends hrun hp (hin (hp ▸ rfl))
  case rows => exact Imgd.fetchRows_descends hrun hp (hin (hp ▸ rfl))
  case runs => exact Imgd.fetchRuns_descends hrun hp (hin (hp ▸ rfl))

/-! ## TXTP -/

/-- The number of parameters of the entry TXTP stands at. -/
def Txtp.arity (x : Txtp) : Nat := ((x.itab[x.entry]?).map fun ins => ins.params.length).getD 0

/-- What is left for TXTP to do, read in a phase: the index, the sentences, the stages of the sentence, and in a stage
its characters, or the entries of the table, the raw bytes that may start an expansion (R279) and the parameters. -/
def Txtp.rankIn (x : Txtp) : TxtpPhase → Nat × Nat × Nat × Nat × Nat × Nat
  | .index => (1, 0, 0, 0, 0, 0)
  | .frame => (0, x.n - x.i, 3, 0, 0, 0)
  | .raw => (0, x.n - x.i, 2, x.send - x.c, 0, 0)
  | .scan => (0, x.n - x.i, 1, x.itab.length - x.entry, rawItems x.w, x.arity + 1)
  | .params => (0, x.n - x.i, 1, x.itab.length - x.entry, rawItems x.w, x.arity - x.prm)
  | .final => (0, x.n - x.i, 0, x.w.length - x.outText.length, 0, 0)

def Txtp.rank (x : Txtp) : Nat × Nat × Nat × Nat × Nat × Nat := x.rankIn x.phase

/-- The order of the ranks of TXTP. -/
abbrev Txtp.Below : Nat × Nat × Nat × Nat × Nat × Nat → Nat × Nat × Nat × Nat × Nat × Nat → Prop :=
  LexBelow (LexBelow (LexBelow (LexBelow (LexBelow (· < ·)))))

theorem Txtp.below_wf : WellFounded Txtp.Below :=
  LexBelow.wf (LexBelow.wf (LexBelow.wf (LexBelow.wf (LexBelow.wf wellFounded_lt))))

/-- The run is over in `x'`, or less is left to do. -/
def Txtp.Descends (x x' : Txtp) : Prop := x'.st.OverOr (Txtp.Below x'.rank x.rank)

theorem Txtp.descends_fatal (x : Txtp) (cause : Cause) (info : Nat) (u : Txtp) : x.Descends (u.fatal cause info) :=
  .inl (.inr rfl)

theorem Txtp.descends_of_below {x x' : Txtp} {p p' : TxtpPhase} (hp : x.phase = p) (hp' : x'.phase = p')
    (hrun : x'.st.status = .running) (hlt : Txtp.Below (x'.rankIn p') (x.rankIn p)) : x.Descends x' := by
  subst hp hp'
  exact .inr ⟨hrun, hlt⟩

/-- After the index the sentences left decide first. -/
theorem Txtp.rank_of_sentence {x : Txtp} (hp : x.phase ≠ .index) : ∃ stage, x.rank = (0, x.n - x.i, stage) := by
  unfold Txtp.rank
  cases hphase : x.phase <;> [exact absurd hphase hp; skip; skip; skip; skip; skip] <;> exact ⟨_, rfl⟩

/-- `u` stands in the sentence of `x` and is RUNNING. -/
def Txtp.SameSentence (x u : Txtp) : Prop := u.i = x.i ∧ u.n = x.n ∧ u.st.status = .running

/-- The sentence after one that is there (R264). -/
theorem Txtp.SameSentence.nextSentence {x u : Txtp} (hu : x.SameSentence u) (hp : x.phase ≠ .index)
    (hin : x.i + 1 < x.n) : x.Descends u.nextSentence := by
  obtain ⟨hi, hn, hrun⟩ := hu
  obtain ⟨stage, hrank⟩ := Txtp.rank_of_sentence hp
  refine .inr ⟨hrun, ?_⟩
  rw [hrank]
  refine .right _ (.left _ _ ?_)
  change u.n - (u.i + 1) < x.n - x.i
  omega

/-- A sentence that is skipped (R264), or the fault of a full log (R322). -/
theorem Txtp.SameSentence.sentenceError {caps : Caps} {cause : UnitCause} {x u : Txtp} (hu : x.SameSentence u)
    (hp : x.phase ≠ .index) (hin : x.i + 1 < x.n) : x.Descends (u.sentenceError caps cause) := by
  unfold Txtp.sentenceError
  rcases u.unitError_cases caps _ _ _ with ⟨-, he⟩ | ⟨-, he⟩ <;> rw [he]
  · exact x.descends_fatal _ _ _
  · exact Txtp.SameSentence.nextSentence hu hp hin

theorem Txtp.fetchIndex_descends {caps : Caps} {x : Txtp} (hrun : x.st.status = .running) (hp : x.phase = .index) :
    Answers x.Descends (x.fetchIndex.perform (txtpOp · caps)) := by
  refine Fetch.answers_withBytes fun bs => ?_
  split
  · rename_i i rest hdec
    obtain ⟨-, hadm, -⟩ := decode_sound hdec
    cases i <;> simp only [Ctx.admits, Bool.false_eq_true] at hadm
    case tidx entries => exact answers_ok (Txtp.descends_of_below hp rfl hrun (.left _ _ Nat.zero_lt_one))
  · exact answers_ok (x.descends_fatal _ _ _)
  · exact answers_ok (x.descends_fatal _ _ _)

theorem Txtp.fetchFrame_descends {caps : Caps} {x : Txtp} (hrun : x.st.status = .running) (hp : x.phase = .frame) :
    Answers x.Descends ((x.fetchFrame caps).perform (txtpOp · caps)) := by
  unfold Txtp.fetchFrame
  split
  · rename_i hin
    split
    · refine answers_ok ?_
      unfold Txtp.frameSentence
      dsimp only
      split
      · exact Txtp.SameSentence.sentenceError ⟨rfl, rfl, hrun⟩ (by rw [hp]; nofun) hin
      · exact Txtp.descends_of_below hp rfl hrun (.right _ (.right _ (.left _ _ (by decide))))
    · exact answers_error _
    · exact answers_error _
  · exact answers_ok (.inl (.inl rfl))

/-- One character of the charset decode moves the cursor (R267). -/
theorem Txtp.descends_putRaw {x : Txtp} (hrun : x.st.status = .running) (hp : x.phase = .raw) (hlt : x.c < x.send)
    (ch : Char) : x.Descends (x.putChar ch) := by
  rw [Txtp.putChar, if_neg (by rw [hp]; nofun)]
  exact Txtp.descends_of_below hp hp hrun
    (.right _ (.right _ (.right _ (.left _ _ (Nat.sub_succ_lt_self x.send x.c hlt)))))

theorem Txtp.fetchRaw_descends {caps : Caps} {x : Txtp} (hrun : x.st.status = .running) (hp : x.phase = .raw) :
    Answers x.Descends ((x.fetchRaw caps).perform (txtpOp · caps)) := by
  unfold Txtp.fetchRaw
  split <;> refine Fetch.answers_withBytes fun bs => ?_
  · rename_i hlt
    split
    · rename_i i rest hdec
      obtain ⟨ch, hch⟩ := txtpOp_char (decode_sound hdec).2.1 caps x
      change Answers _ (txtpOp i caps x)
      rw [hch]
      exact answers_ok (Txtp.descends_putRaw hrun hp hlt ch)
    · exact answers_error _
  · refine answers_ok ?_
    unfold Txtp.startExpansion
    split
    · exact x.descends_fatal _ _ _
    · exact Txtp.descends_of_below hp rfl hrun (.right _ (.right _ (.left _ _ (by decide))))

/-- The scan goes on to the next entry of the table (R269). -/
theorem Txtp.descends_nextEntry {x : Txtp} (hrun : x.st.status = .running) (hp : x.phase = .scan)
    (hentry : x.entry < x.itab.length) (t : Byte) : x.Descends { x with t := t, entry := x.entry + 1 } :=
  Txtp.descends_of_below hp hp hrun
    (.right _ (.right _ (.right _ (.left _ _ (Nat.sub_succ_lt_self x.itab.length x.entry hentry)))))

/-- An expansion opens before the first of its parameters (R271). -/
theorem Txtp.tinstr_descends {x : Txtp} (hrun : x.st.status = .running) (hp : x.phase = .scan)
    (hentry : x.entry < x.itab.length) (t : Byte) (caps : Caps) :
    Answers x.Descends (tinstrOp t caps x) := by
  unfold tinstrOp
  split <;> refine answers_ok ?_
  · exact Txtp.descends_of_below hp rfl hrun
      (.right _ (.right _ (.right _ (.right _ (.right _ (Nat.lt_succ_self x.arity))))))
  · rw [← hp]
    exact Txtp.descends_nextEntry hrun hp hentry t

theorem Txtp.fetchScan_descends {caps : Caps} {x : Txtp} (hrun : x.st.status = .running) (hp : x.phase = .scan) :
    Answers x.Descends (x.fetchScan.perform (txtpOp · caps)) := by
  unfold Txtp.fetchScan
  split
  · exact answers_ok (Txtp.descends_of_below hp rfl hrun (.right _ (.right _ (.left _ _ Nat.zero_lt_one))))
  · rename_i ins hins
    obtain ⟨hentry, -⟩ := List.getElem?_eq_some_iff.mp hins
    split
    · exact answers_ok (Txtp.descends_nextEntry hrun hp hentry _)
    · split
      · rename_i i rest hdec
        obtain ⟨-, hadm, -⟩ := decodeItems_sound hdec
        cases i <;> simp only [ItemCtx.admits, Bool.false_eq_true] at hadm
        case tinstr t => exact Txtp.tinstr_descends hrun hp hentry t caps
      · exact answers_ok (Txtp.descends_nextEntry hrun hp hentry _)

/-- A parameter that is read leaves one parameter fewer (R271). -/
theorem Txtp.descends_putVal {x : Txtp} (hrun : x.st.status = .running) (hp : x.phase = .params)
    (hprm : x.prm < x.arity) (q r : Nat) (val : List Item) : x.Descends (Txtp.putVal val { x with q := q, r := r }) :=
  Txtp.descends_of_below hp hp hrun
    (.right _ (.right _ (.right _ (.right _ (.right _ (Nat.sub_succ_lt_self x.arity x.prm hprm))))))

theorem Txtp.paramOp_descends {caps : Caps} {x : Txtp} (hrun : x.st.status = .running) (hp : x.phase = .params)
    (hprm : x.prm < x.arity) {mode : ParamMode} {i : Instr} (hadm : (ItemCtx.param mode).admits i = true) :
    Answers x.Descends (txtpOp i caps x) := by
  cases i <;> simp only [ItemCtx.admits, Bool.false_eq_true] at hadm
  case paramRead8 v => exact answers_ok (Txtp.descends_putVal hrun hp hprm (x.q + 1) x.r _)
  case paramRead16 v => exact answers_ok (Txtp.descends_putVal hrun hp hprm (x.q + 2) x.r _)
  case paramReadUntil captured t => exact answers_ok (Txtp.descends_putVal hrun hp hprm _ _ captured)

/-- An expansion that closes leaves fewer raw bytes (R279). -/
theorem Txtp.descends_closeExpansion {x : Txtp} (hrun : x.st.status = .running) (hp : x.phase = .params)
    (hexp : x.Expanding) (caps : Caps) (ins : TextInstruction) : x.Descends (x.closeExpansion caps ins) := by
  cases hbig : exceeds caps.textCap (x.replaced ins).length with
  | true =>
    rw [Txtp.closeExpansion_exceeds hbig]
    exact x.descends_fatal _ _ _
  | false =>
    rw [Txtp.closeExpansion_replaced hbig]
    exact Txtp.descends_of_below hp rfl hrun
      (.right _ (.right _ (.right _ (.right _ (.left _ _ (hexp.rawItems_lt ins))))))

theorem Txtp.fetchParams_descends {caps : Caps} {x : Txtp} (hrun : x.st.status = .running) (hp : x.phase = .params)
    (hin : x.i + 1 < x.n) (hexp : x.Expanding) :
    Answers x.Descends ((x.fetchParams caps).perform (txtpOp · caps)) := by
  unfold Txtp.fetchParams
  split
  · exact answers_error _
  · rename_i ins hins
    split
    · exact answers_ok (Txtp.descends_closeExpansion hrun hp hexp caps ins)
    · rename_i prm hprm
      obtain ⟨hlt, -⟩ := List.getElem?_eq_some_iff.mp hprm
      have harity : x.arity = ins.params.length := by rw [Txtp.arity, hins]; rfl
      split
      · exact Txtp.paramOp_descends hrun hp (harity ▸ hlt) (decodeItems_sound ‹_›).2.1
      · exact answers_ok (Txtp.SameSentence.sentenceError ⟨rfl, rfl, hrun⟩ (by rw [hp]; nofun) hin)

/-- One character of the final decode (R280). -/
theorem Txtp.descends_putFinal {x : Txtp} (hrun : x.st.status = .running) (hp : x.phase = .final)
    (hlt : x.outText.length < x.w.length) (ch : Char) : x.Descends { x with outText := x.outText ++ [ch] } := by
  refine Txtp.descends_of_below hp hp hrun (.right _ (.right _ (.right _ (.left _ _ ?_))))
  rw [List.length_append, List.length_singleton]
  exact Nat.sub_succ_lt_self x.w.length x.outText.length hlt

/-- A sentence that is over joins the store, or the store is full (R282). -/
theorem Txtp.descends_storeSentence {x : Txtp} (hrun : x.st.status = .running) (hp : x.phase = .final)
    (hin : x.i + 1 < x.n) (caps : Caps) : x.Descends (x.storeSentence caps) := by
  unfold Txtp.storeSentence
  dsimp only
  split
  · exact x.descends_fatal _ _ _
  · exact Txtp.SameSentence.nextSentence ⟨rfl, rfl, hrun⟩ (by rw [hp]; nofun) hin

theorem Txtp.fetchFinal_descends {caps : Caps} {x : Txtp} (hrun : x.st.status = .running) (hp : x.phase = .final)
    (hin : x.i + 1 < x.n) : Answers x.Descends ((x.fetchFinal caps).perform (txtpOp · caps)) := by
  unfold Txtp.fetchFinal
  split
  · exact answers_ok (Txtp.descends_storeSentence hrun hp hin caps)
  · rename_i ch hat
    obtain ⟨hlt, -⟩ := List.getElem?_eq_some_iff.mp hat
    exact answers_ok (Txtp.descends_putFinal hrun hp hlt ch)
  · rename_i b hat
    obtain ⟨hlt, -⟩ := List.getElem?_eq_some_iff.mp hat
    obtain ⟨ch, hch⟩ := txtpOp_char (decodeChar_sound x.charset b).2.1 caps x
    change Answers _ (txtpOp _ caps x)
    rw [hch, Txtp.putChar, if_pos hp]
    exact answers_ok (Txtp.descends_putFinal hrun hp hlt ch)

/-- A step of a RUNNING, well-kept TXTP ends the run or leaves less to do. -/
theorem Txtp.next_descends {caps : Caps} {x : Txtp} (hi : x.Inv caps) (hrun : x.st.status = .running) :
    Answers x.Descends (x.next caps) := by
  rw [Txtp.next, if_pos hrun]
  cases hp : x.phase <;> simp only [fetchTxtp, hp]
  case index => exact Txtp.fetchIndex_descends hrun hp
  case frame => exact Txtp.fetchFrame_descends hrun hp
  case raw => exact Txtp.fetchRaw_descends hrun hp
  case scan => exact Txtp.fetchScan_descends hrun hp
  case params =>
    obtain ⟨-, ⟨⟨-, hin, -⟩, -⟩, hexp⟩ := (Txtp.inv_iff hp).mp hi
    exact Txtp.fetchParams_descends hrun hp hin hexp
  case final =>
    obtain ⟨-, ⟨-, hin, -⟩, -⟩ := (Txtp.inv_iff hp).mp hi
    exact Txtp.fetchFinal_descends hrun hp hin

/-! ## The machine -/

/-- A step of IMGD ends its run or lowers its rank. -/
theorem engineStep_imgd_descends {s t : State} (hi : s.Inv) (hrun : s.imgd.st.status = .running)
    (h : engineStep .imgd s = .next t) : s.imgd.Descends t.imgd := by
  obtain ⟨-, hm, -⟩ := hi
  obtain ⟨m', hnext, rfl⟩ := onImgd_next.mp (engineStep_imgd_eq s ▸ h)
  exact Imgd.next_descends hm hrun m' hnext

/-- A step of TXTP ends its run or lowers its rank. -/
theorem engineStep_txtp_descends {s t : State} (hi : s.Inv) (hrun : s.txtp.st.status = .running)
    (h : engineStep .txtp s = .next t) : s.txtp.Descends t.txtp := by
  obtain ⟨-, -, hx, -⟩ := hi
  obtain ⟨x', hnext, rfl⟩ := onTxtp_next.mp (engineStep_txtp_eq s ▸ h)
  exact Txtp.next_descends hx hrun x' hnext

/-- Settles O56: the rank of an interpreter falls at every step that does not end its run. -/
theorem interpreterRunsEnd : Obligations.InterpreterRunsEnd := by
  refine fun s hi => ⟨fun hrun => ?_, fun hrun => ?_⟩
  · exact runEngine_ends (e := .imgd) Imgd.below_wf (fun s => s.imgd.rank) engineStep_imgd_descends hi hrun
  · exact runEngine_ends (e := .txtp) Txtp.below_wf (fun s => s.txtp.rank) engineStep_txtp_descends hi hrun

end Sys2Proof.Machine
end

section
/-! PROOFS. What a launch starts (O47; R352), and which results may be read (O49; R353). -/

namespace Sys2Proof.Machine

/-! ## Launches -/

/-- Bytes within `IN_CAP` are loaded into an HSQD that is otherwise as after reset (R352, log 10). -/
theorem launchedHsqd_loaded {caps : Caps} {bytes : List Byte} (h : exceeds caps.inCap bytes.length = false)
    (verify : Bool) :
    launchedHsqd caps bytes verify =
      { Hsqd.reset with
        st := ⟨.running, .none, 0⟩, verify := verify, ibuf := Memory.ofBytes 0 bytes, inLen := bytes.length } :=
  if_neg (Bool.eq_false_iff.mp h)

/-- A payload within `P_CAP` is loaded into an IMGD that is otherwise as after reset (R352, log 10). -/
theorem launchedImgd_loaded {caps : Caps} {bytes : List Byte} (h : exceeds caps.pCap bytes.length = false)
    (bound : Bool) :
    launchedImgd caps bytes bound =
      { Imgd.reset with
        st := ⟨.running, .none, 0⟩, bound := bound, pbuf := Memory.ofBytes 0 bytes, plen := bytes.length } :=
  if_neg (Bool.eq_false_iff.mp h)

/-- Inputs within `P_CAP` and `N_INSTR_CAP` are loaded into a TXTP that is otherwise as after reset (R352, log 10). -/
theorem launchedTxtp_loaded {caps : Caps} {bytes : List Byte} {itab : List TextInstruction}
    (h : exceeds caps.pCap bytes.length = false) (hitab : exceeds caps.nInstrCap itab.length = false) (bound : Bool)
    (charset : Charset) :
    launchedTxtp caps bytes bound charset itab =
      { Txtp.reset with
        st := ⟨.running, .none, 0⟩, bound := bound, pbuf := Memory.ofBytes 0 bytes, plen := bytes.length,
        charset := charset, itab := itab } :=
  if_neg (by rw [h, hitab]; decide)

/-- A launch of an interpreter goes on with the bytes its payload stands for, and with the binding (R41, R52, R85). -/
theorem withPayload_bound {p : Payload} {s : State} {bytes : List Byte} {bound : Bool}
    (h : (p = .bytes bytes ∧ bound = false) ∨
      (p = .obuf ∧ bound = true ∧ s.hsqd.st.status = .done ∧ window .obuf s.hsqd.obuf 0 s.hsqd.olen = .ok bytes))
    (f : List Byte → Bool → State) : withPayload p s f = .next (f bytes bound) := by
  rcases h with ⟨rfl, rfl⟩ | ⟨rfl, rfl, hdone, hwin⟩
  · rfl
  · simp only [withPayload, hdone, if_true, hwin]

/-- Settles O47: with no engine RUNNING the launch goes on, and inputs within the capacities are loaded. -/
theorem launchStartsEngine : Obligations.LaunchStartsEngine := by
  refine ⟨fun s bytes verify hidle hcap => ⟨?_, window_ofBytes _ bytes⟩,
    fun s p bytes bound hidle hpay hcap => ⟨?_, fun charset itab hitab => ?_⟩⟩
  · rw [← launchedHsqd_loaded hcap verify]
    exact execLaunch_of_idle hidle
  · rw [← launchedImgd_loaded hcap bound]
    exact (execLaunch_of_idle hidle).trans (withPayload_bound hpay s.launchImgd)
  · rw [← launchedTxtp_loaded hcap hitab bound charset]
    exact (execLaunch_of_idle hidle).trans (withPayload_bound hpay _)

/-! ## Result reads -/

/-- The bytes of a window are those the host reads. -/
theorem slice_of_window {sp : Space} {m : Memory} {n : Nat} {bs : List Byte} (h : window sp m 0 n = .ok bs) :
    m.slice 0 n = some bs := by
  unfold window at h
  split at h
  · rename_i hslice
    cases h
    exact hslice
  · cases h

/-- The condition of R35: HSQD is DONE, or in a FAULT other than UnexpectedEnd at 0. -/
abbrev State.HeaderReadable (s : State) : Prop :=
  s.hsqd.st.status = .done ∨
    (s.hsqd.st.status = .fault ∧ ¬ (s.hsqd.st.cause = .unexpectedEnd ∧ s.hsqd.st.faultPos = 0))

theorem readHeader_eq (s : State) :
    readHeader s = if s.HeaderReadable then some ⟨s.hsqd.usize, s.hsqd.csize, s.hsqd.cksum⟩ else none := by
  unfold readHeader State.HeaderReadable
  cases hst : s.hsqd.st.status
  case fault => by_cases hlost : s.hsqd.st.cause = .unexpectedEnd ∧ s.hsqd.st.faultPos = 0 <;> simp [hlost]
  all_goals simp

/-- Settles O49: each read tests the status, and `HDR` the cause and the position too. -/
theorem resultReadsAreGated : Obligations.ResultReadsAreGated := by
  refine fun s => ⟨fun h => if_neg h, fun h => if_neg h, fun h => if_neg h, fun bs hdone hwin => ?_,
    fun h => if_pos h, fun h => if_pos h, fun e h => if_pos h, fun e h => if_neg h, ?_, ?_⟩
  · rw [readHsqd, if_pos hdone, slice_of_window hwin]
    rfl
  · rw [readHeader_eq]
    exact ite_eq_or_eq _ _ _
  · rw [readHeader_eq, Option.isSome_ite]

end Sys2Proof.Machine
end
